-- ==== Sys2Proof/Word.lean ====
section
/-! DEFINITION. Word.lean: the widths of the block's own quantities (spec 00_scope.md rule R10). -/

namespace Sys2Proof

/-- A transceiver register, a bus data byte, a frame byte (R10: "8 bits"). -/
abbrev Byte := BitVec 8

/-- A transceiver register address, 0x00 to 0x3F (R10: "a bus address is 6 bits"). -/
abbrev BusAddr := BitVec 6

end Sys2Proof
end

