-- ==== Sys2Proof/Config.lean ====
section
/-! DEFINITION. Config.lean: the parameters the spec leaves open (00_scope.md rule R9), the constants it fixes (rule R8), the
reference instantiation the spec prints, and the free value a bus read returns. -/

namespace Sys2Proof

/-- How RECEIVE clears a FIFO overrun: the parameter OVR_CLEAR (R9, R165). -/
inductive OvrClear where
  | none  -- no write is made
  | w1c   -- the block writes M_FIFOOVERRUN to ADDR_IRQFLAGS2
  deriving DecidableEq, Repr

/-- One (address, value) byte pair of the register program (R140). -/
structure CfgEntry where
  addr  : Byte
  value : Byte
  deriving DecidableEq, Repr

/-- CFG, the register program, by the roles of R140; `sync` holds the n sync-word entries. -/
structure RegisterProgram where
  dataModulation : CfgEntry
  fdevMsb        : CfgEntry
  fdevLsb        : CfgEntry
  frfMsb         : CfgEntry
  frfMid         : CfgEntry
  frfLsb         : CfgEntry
  afcControl     : CfgEntry
  lna            : CfgEntry
  rxBandwidth    : CfgEntry
  afcFei         : CfgEntry
  rssiThreshold  : CfgEntry
  preambleLsb    : CfgEntry
  syncConfig     : CfgEntry
  sync           : List CfgEntry
  packetConfig1  : CfgEntry
  payloadLength  : CfgEntry
  nodeAddress    : CfgEntry
  fifoThreshold  : CfgEntry
  deriving DecidableEq, Repr

/-- The list INIT writes, in R140's order: |CFG| = 17 + n. -/
def RegisterProgram.entries (p : RegisterProgram) : List CfgEntry :=
  [p.dataModulation, p.fdevMsb, p.fdevLsb, p.frfMsb, p.frfMid, p.frfLsb, p.afcControl, p.lna,
   p.rxBandwidth, p.afcFei, p.rssiThreshold, p.preambleLsb, p.syncConfig]
  ++ p.sync
  ++ [p.packetConfig1, p.payloadLength, p.nodeAddress, p.fifoThreshold]

/-- A keystream byte KS(seed, index) = value at which the parameter KS departs from its default (R9, R191). -/
structure KeystreamEntry where
  seed  : BitVec 16
  index : Nat
  value : Byte
  deriving DecidableEq, Repr

/-- A seed SEED(product) = value at which the parameter SEED departs from its default (R9, R190). -/
structure SeedEntry where
  product : Byte
  value   : BitVec 16
  deriving DecidableEq, Repr

/-- A width WIDTH(type) = value at which the parameter WIDTH departs from its default (R9, R196). -/
structure WidthEntry where
  type  : Byte
  value : BitVec 4
  deriving DecidableEq, Repr

/-- The parameters of R9. The functions KS, SEED and WIDTH are given by the arguments at which they depart from the
defaults R9's third column names; where two entries speak of one argument the first counts (log entry 12). -/
structure Config where
  addrFifo      : BusAddr
  addrOpmode    : BusAddr
  addrVersion   : BusAddr
  addrIrqflags1 : BusAddr
  addrIrqflags2 : BusAddr
  mModeready    : Byte
  mFifonotempty : Byte
  mFifooverrun  : Byte
  mPacketsent   : Byte
  mPayloadrdy   : Byte
  cfg           : RegisterProgram
  modePollMax   : Nat
  txPollMax     : Nat
  ovrClear      : OvrClear
  ks            : List KeystreamEntry
  seeds         : List SeedEntry
  widths        : List WidthEntry
  deriving DecidableEq, Repr

/-- The configuration of the machine after reset: the reference addresses and masks of R9, the CFG, MODE_POLL_MAX = 4,
TX_POLL_MAX = 4 and OVR_CLEAR = W1C of 95_test_vectors.md, and KS, SEED and WIDTH at their defaults. PRESUMED, unsafe (log
entry 3): these are one instantiation of the parameters; claims quantify over the state, hence over every configuration. -/
def Config.reference : Config where
  addrFifo      := 0x00
  addrOpmode    := 0x01
  addrVersion   := 0x10
  addrIrqflags1 := 0x27
  addrIrqflags2 := 0x28
  mModeready    := 0x80
  mFifonotempty := 0x40
  mFifooverrun  := 0x10
  mPacketsent   := 0x08
  mPayloadrdy   := 0x04
  cfg :=
    { dataModulation := ⟨0x02, 0x00⟩
      fdevMsb        := ⟨0x05, 0x01⟩
      fdevLsb        := ⟨0x06, 0xEC⟩
      frfMsb         := ⟨0x07, 0x6C⟩
      frfMid         := ⟨0x08, 0x93⟩
      frfLsb         := ⟨0x09, 0x33⟩
      afcControl     := ⟨0x0B, 0x00⟩
      lna            := ⟨0x18, 0x08⟩
      rxBandwidth    := ⟨0x19, 0x43⟩
      afcFei         := ⟨0x1E, 0x2C⟩
      rssiThreshold  := ⟨0x29, 0xDC⟩
      preambleLsb    := ⟨0x2D, 0x03⟩
      syncConfig     := ⟨0x2E, 0x88⟩
      sync           := [⟨0x2F, 0x2D⟩, ⟨0x30, 0xD4⟩]
      packetConfig1  := ⟨0x37, 0xA0⟩
      payloadLength  := ⟨0x38, 0x42⟩
      nodeAddress    := ⟨0x39, 0x06⟩
      fifoThreshold  := ⟨0x3C, 0x81⟩ }
  modePollMax := 4
  txPollMax   := 4
  ovrClear    := .w1c
  ks          := []
  seeds       := []
  widths      := []

/-- FREE VALUE (log entry 2): the byte the transceiver answers to the n-th bus read when the state's list of answers is
used up. R5: "every byte returned by a bus read is a free input of the step (an oracle answer)". It has no body. -/
opaque Config.busAnswer : Nat → Byte

/-- VERSION_EXPECTED = 36 (R8). -/
def Config.versionExpected : Byte := 36

/-- MIN_R1_MSGLEN = 13 (R8). -/
def Config.minR1Msglen : Nat := 13

/-- MAX_R1_MSGLEN = 15 (R8). -/
def Config.maxR1Msglen : Nat := 15

/-- MAX_FIFO_BUFFER = 66 (R8): the greatest frame and the size of FBUF. -/
def Config.maxFifoBuffer : Nat := 66

/-- CRYPT_PID = 242 (R8). -/
def Config.cryptPid : Byte := 242

/-- SYNC_BYTES_MAX = 8 (R8). -/
def Config.syncBytesMax : Nat := 8

/-- The most records a frame of 66 bytes can hold (R34). -/
def Config.maxRecords : Nat := 28

end Sys2Proof
end

