-- ==== Sys2Proof/Syntax.lean ====
section
/-! DEFINITION. Syntax.lean: one constructor per row of spec/opcode_table.json.

The table's rows come in five formats (30_encoding.md): the host command byte, the bus transaction, the opmode value, a
record's type byte and a record's parameter-id byte. A byte means a row only in its own format, so the format stands beside
the row here and selects the decoder in Decode.lean. -/

namespace Sys2Proof

/-- The five encodings of the opcode table (its "format" column). -/
inductive Format where
  | cmd          -- the host command byte (R90)
  | busAddr      -- a bus transaction: address byte, then data byte (R94)
  | opmodeValue  -- the byte SETMODE writes to the opmode register (R96)
  | recordType   -- the type byte of an OpenThings record (R100)
  | recordPid    -- the parameter-id byte of an OpenThings record (R99)
  deriving DecidableEq, Repr

/-- The rows of spec/opcode_table.json. -/
inductive Instr where
  -- host commands (R91)
  | init
  | setmodeStandby
  | setmodeTx
  | setmodeRx
  | receive
  | transmit
  | encode
  | decode
  -- every other command byte, with its fields RSV, M, OP (R92)
  | illegal (rsv : BitVec 2) (m : BitVec 2) (op : BitVec 4)
  -- bus transactions (R130, R131)
  | busRead (a : BusAddr)
  | busWrite (a : BusAddr) (v : Byte)
  -- opmode values (R96)
  | opmodeStandby
  | opmodeTx
  | opmodeRx
  -- record type bytes, by tag T[7:4], with the low nibble T[3:0] (R100, R196)
  | typeOtUint (low : BitVec 4)
  | typeOtUint4 (low : BitVec 4)
  | typeOtUint8 (low : BitVec 4)
  | typeOtUint12 (low : BitVec 4)
  | typeOtUint16 (low : BitVec 4)
  | typeOtUint20 (low : BitVec 4)
  | typeOtUint24 (low : BitVec 4)
  | typeOtChar (low : BitVec 4)
  | typeOtSint (low : BitVec 4)
  | typeOtSint8 (low : BitVec 4)
  | typeOtSint16 (low : BitVec 4)
  | typeOtSint24 (low : BitVec 4)
  | typeUnnamedC (low : BitVec 4)
  | typeUnnamedD (low : BitVec 4)
  | typeUnnamedE (low : BitVec 4)
  | typeOtFloat (low : BitVec 4)
  -- the parameter-id byte 0x00 (R99)
  | recordTerminator
  deriving DecidableEq, Repr

/-- The format a row is written in. -/
def Instr.format : Instr → Format
  | .init => .cmd
  | .setmodeStandby => .cmd
  | .setmodeTx => .cmd
  | .setmodeRx => .cmd
  | .receive => .cmd
  | .transmit => .cmd
  | .encode => .cmd
  | .decode => .cmd
  | .illegal _ _ _ => .cmd
  | .busRead _ => .busAddr
  | .busWrite _ _ => .busAddr
  | .opmodeStandby => .opmodeValue
  | .opmodeTx => .opmodeValue
  | .opmodeRx => .opmodeValue
  | .typeOtUint _ => .recordType
  | .typeOtUint4 _ => .recordType
  | .typeOtUint8 _ => .recordType
  | .typeOtUint12 _ => .recordType
  | .typeOtUint16 _ => .recordType
  | .typeOtUint20 _ => .recordType
  | .typeOtUint24 _ => .recordType
  | .typeOtChar _ => .recordType
  | .typeOtSint _ => .recordType
  | .typeOtSint8 _ => .recordType
  | .typeOtSint16 _ => .recordType
  | .typeOtSint24 _ => .recordType
  | .typeUnnamedC _ => .recordType
  | .typeUnnamedD _ => .recordType
  | .typeUnnamedE _ => .recordType
  | .typeOtFloat _ => .recordType
  | .recordTerminator => .recordPid

end Sys2Proof
end

