-- ==== Sys2Proof/Machine/State.lean ====
section
/-! DEFINITION. Machine/State.lean: the state of the block (10_state.md rules R20 to R34), the state after reset (R40), and
why a step can stop. What the model adds beside the block's own state is marked so (log entries 2, 4, 5, 7, 10, 17). -/

namespace Sys2Proof.Machine

/-- The result codes of R240. The reserved codes 0xC to 0xE are "never written" and have no constructor. -/
inductive ResultCode where
  | ok
  | versionMismatch
  | timeout
  | badFraming
  | overrun
  | wrongMode
  | badLength
  | notInitialised
  | checksumFailed
  | unsupportedType
  | malformedRecord
  | illegalCommand
  | none            -- the reset value: no command has finished since reset
  deriving DecidableEq, Repr

/-- MODE, the source's RadioState and NONE (R27, R93). -/
inductive Mode where
  | standby
  | tx
  | rx
  | none
  deriving DecidableEq, Repr

/-- The targets of SETMODE: every mode but NONE (R93). -/
inductive Target where
  | standby
  | tx
  | rx
  deriving DecidableEq, Repr

/-- PHASE, the sequencer's position (R24). -/
inductive Phase where
  | idle
  | initCfg (k : Nat)
  | initVer
  | smWrite
  | smPoll (i : Nat)
  | rxPoll (i : Nat)
  | rxLen
  | rxData (j : Nat)
  | rxOvr
  | rxClr
  | rxDrainFlag (d : Nat)
  | rxDrainRead (d : Nat)
  | txData (j : Nat)
  | txPoll (i : Nat)
  | codec
  deriving DecidableEq, Repr

/-- One record register MSG_REC[k] (R34). `none` is R40's "unwritten". -/
structure MsgRec where
  pid   : Option Byte
  type  : Option Byte
  vlen  : Option (BitVec 4)
  val   : Vector (Option Byte) 15
  deriving DecidableEq, Repr

/-- The message register set MSG (R34). `none` is R40's "unwritten". -/
structure Msg where
  mfr     : Option Byte
  product : Option Byte
  pip     : Option (BitVec 16)
  devid   : Option (BitVec 24)
  nrec    : BitVec 5
  recs    : Vector MsgRec 28
  deriving DecidableEq, Repr

/-- A named register of the block as the host or a fault names it (R62: "a set of named registers"). -/
inductive Reg where
  | status
  | rxPolls
  | flen
  | fbuf (i : Nat)
  | msgMfr
  | msgProduct
  | msgPip
  | msgDevid
  | msgNrec
  | recPid (k : Nat)
  | recType (k : Nat)
  | recVlen (k : Nat)
  | recVal (k b : Nat)
  | seqL               -- the sequencer's L, which the host does not see (R25)
  deriving DecidableEq, Repr

/-- One entry of the bus trace (R132): `read a v` is `R a v`, `write a v` is `W a v`. -/
inductive BusEvent where
  | read (a : BusAddr) (v : Byte)
  | write (a : BusAddr) (v : Byte)
  deriving DecidableEq, Repr

/-- What the host has got back from a register read (R292); the widest register has 24 bits. -/
structure ReadBack where
  reg   : Reg
  value : BitVec 24
  deriving DecidableEq, Repr

/-- A move of the host (R292, R104). The model's own input alphabet (log entry 5). -/
inductive HostMove where
  | reset                            -- the one reset (R270)
  | cmd (c : Byte)                   -- write c to CMD (R22)
  | write (r : Reg) (v : BitVec 24)  -- write a register (R39)
  | read (r : Reg)                   -- read a register (R39)
  | assertResult (c : ResultCode)    -- ASSERT RESULT = c (R104): a program stops where it fails (R105)
  | wait                             -- WAIT: wait until BUSY = 0 (R104)
  | tick                             -- the host makes no access in this step
  deriving DecidableEq, Repr

/-- A record as PARSE returns it: (PID, T, W, V[0..W-1]) (R197). -/
structure Rec where
  pid   : Byte
  type  : Byte
  width : Nat
  val   : List Byte
  deriving DecidableEq, Repr

/-- Where PARSE stands (R197). -/
inductive ParseStatus where
  | running
  | done
  | failed (code : ResultCode)
  deriving DecidableEq, Repr

/-- The variables of PARSE(P, N) (R197): P, pos, end, recs, and whether it has returned. The model's own scratch: R205 calls
P "a combinational temporary, not state"; it is empty outside DECODE's one step (log entry 10). -/
structure Parser where
  plain  : List Byte
  pos    : Nat
  stop   : Nat
  recs   : List Rec
  status : ParseStatus
  deriving DecidableEq, Repr

/-- No parse is running. -/
def Parser.empty : Parser := { plain := [], pos := 0, stop := 0, recs := [], status := .done }

/-- The state. The fields down to `lenL` are the block's own (R20: "exactly"); those after it are the model's. -/
structure State where
  -- STATUS, by its fields (R23)
  result  : ResultCode
  busy    : Bool
  initOk  : Bool
  modeOk  : Bool
  mode    : Mode
  -- the other host-visible registers (R31 to R34)
  rxPolls : BitVec 16
  flen    : BitVec 8
  fbuf    : List Host.Cell        -- written bytes of FBUF[0..65], indices rising; an unlisted byte is unwritten (R41)
  msg     : Msg
  -- the sequencer (R24, R25)
  phase   : Phase
  idxI    : Option Nat
  idxJ    : Option Nat
  lenL    : Option Byte
  -- the model's own
  command : Option Instr          -- the running command (log entry 7)
  parser  : Parser                -- PARSE's variables (log entry 10)
  config  : Config                -- the parameters of R9: no step writes them (R35; log entry 4)
  host    : List HostMove         -- the host's moves to come, oldest first (log entry 5)
  reads   : List ReadBack         -- what the host has read, oldest first (log entry 17)
  answers : List Byte             -- the transceiver's answers to come, first first (log entry 2)
  draws   : Nat                   -- how many bus reads have been answered (log entry 2)
  trace   : List BusEvent         -- the bus trace, oldest first (R132; log entry 17)
  deriving DecidableEq, Repr

/-- The model's faults: R245 says the block has exactly one kind. -/
inductive Fault where
  /-- Raised by ENCODE, DECODE, TRANSMIT and a host read on a register or byte that is unwritten (R41, R245(a)), and
  by RECEIVE on an unwritten L, which no run reaches. Safe: the model stops where a chip might return some value. -/
  | unwritten (r : Reg)
  deriving DecidableEq, Repr

/-- Why the model gives a state no step. -/
inductive Refusal where
  /-- Raised by a refused arm of exec only: an instruction with no meaning yet. Safe. No arm is refused. -/
  | notModelled (mnemonic : String)
  /-- Raised by the step when the configuration is ill formed: "ill-formed and a model refuses it" (R72). Safe. -/
  | illFormedConfig
  /-- Raised by the step, or by a command of exec, on a host access that R39 rules out: "the model gives the host no such
  move". Unsafe for claims about hosts that break R39 (D31; log entry 6). -/
  | hostProtocol
  /-- Raised by the step or a command of exec in a state whose PHASE does not belong to the running command, which R24 does
  not have. Safe: no run reaches it (log entry 18). -/
  | phaseMismatch
  deriving DecidableEq, Repr

/-- How a codec command ends early: by a model fault (R245), or by a finish with a result code (R242). -/
inductive Halt where
  | fault (f : Fault)
  | finish (c : ResultCode)
  deriving DecidableEq, Repr

/-- An unwritten record register (R40). -/
def MsgRec.unwritten : MsgRec :=
  { pid := none, type := none, vlen := none, val := Vector.replicate 15 none }

/-- MSG after reset (R40): MSG_NREC is 0, every other register unwritten. -/
def Msg.reset : Msg :=
  { mfr := none, product := none, pip := none, devid := none, nrec := 0, recs := Vector.replicate 28 MsgRec.unwritten }

/-- The machine right after reset (R40, R270), with the reference configuration (log entry 3), no host move, no
transceiver answer fixed, and nothing on the bus. -/
def State.reset : State where
  result  := .none
  busy    := false
  initOk  := false
  modeOk  := false
  mode    := .none
  rxPolls := 0
  flen    := 0
  fbuf    := []
  msg     := Msg.reset
  phase   := .idle
  idxI    := none
  idxJ    := none
  lenL    := none
  command := none
  parser  := Parser.empty
  config  := Config.reference
  host    := []
  reads   := []
  answers := []
  draws   := 0
  trace   := []

end Sys2Proof.Machine
end

