-- ==== Sys2Proof/Machine/Flags.lean ====
section
/-! DEFINITION. Machine/Flags.lean: the transceiver flags the block tests (R36), and STATUS as the host reads it (R23). -/

namespace Sys2Proof.Machine

/-- A flag "is set" when `(byte & mask) != 0` (R36). -/
def flagSet (b mask : Byte) : Bool := (b &&& mask) != 0

/-- The 4-bit code of RESULT (R240). -/
def ResultCode.code : ResultCode → BitVec 4
  | .ok => 0x0
  | .versionMismatch => 0x1
  | .timeout => 0x2
  | .badFraming => 0x3
  | .overrun => 0x4
  | .wrongMode => 0x5
  | .badLength => 0x6
  | .notInitialised => 0x7
  | .checksumFailed => 0x8
  | .unsupportedType => 0x9
  | .malformedRecord => 0xA
  | .illegalCommand => 0xB
  | .none => 0xF

/-- The 2-bit code of MODE (R23, R93). -/
def Mode.code : Mode → BitVec 2
  | .standby => 0b00
  | .tx => 0b01
  | .rx => 0b10
  | .none => 0b11

/-- STATUS (R23): RESULT [3:0], BUSY [4], INIT_OK [5], MODE_OK [6], 0 [7], MODE [9:8], 0 [15:10]. -/
def State.status (s : State) : BitVec 16 :=
  (0#6) ++ s.mode.code ++ (0#1) ++ BitVec.ofBool s.modeOk ++ BitVec.ofBool s.initOk ++ BitVec.ofBool s.busy
    ++ s.result.code

end Sys2Proof.Machine
end

