-- ==== Sys2Proof/WellFormed.lean ====
section
/-! DEFINITION. WellFormed.lean: which instructions and which configurations are well formed. -/

namespace Sys2Proof

/-- The eight command bytes of R91, by their fields: RSV = 00 and (OP in 1, 3, 4, 5, 6 with M = 00, or OP = 2 with
M in 00, 01, 10). -/
def legalCommand (rsv m : BitVec 2) (op : BitVec 4) : Bool :=
  rsv == 0 && ((m == 0 && (op == 1 || op == 3 || op == 4 || op == 5 || op == 6)) || (op == 2 && m != 3))

/-- An ILLEGAL row stands for a byte outside the eight encodings (R92); every other row is well formed at every value of
its fields. -/
def Instr.wf : Instr → Bool
  | .illegal rsv m op => !legalCommand rsv m op
  | _ => true

/-- An 8-bit one-hot mask (R9). -/
def oneHot (b : Byte) : Bool :=
  b == 0x01 || b == 0x02 || b == 0x04 || b == 0x08 || b == 0x10 || b == 0x20 || b == 0x40 || b == 0x80

/-- An address of the transceiver's register space, 0x00 to 0x3F (R72). -/
def CfgEntry.wf (e : CfgEntry) : Bool := decide (e.addr.toNat ≤ 0x3F)

/-- R9, R72, R140: every CFG address in 0x00-0x3F, at most SYNC_BYTES_MAX sync bytes, one-hot masks, poll bounds at least
1. The five block addresses are 6 bits wide by their type. -/
def Config.wf (c : Config) : Bool :=
  c.cfg.entries.all CfgEntry.wf
  && decide (c.cfg.sync.length ≤ Config.syncBytesMax)
  && oneHot c.mModeready && oneHot c.mFifonotempty && oneHot c.mFifooverrun && oneHot c.mPacketsent
  && oneHot c.mPayloadrdy
  && decide (1 ≤ c.modePollMax) && decide (1 ≤ c.txPollMax)

/-- D6, R143(c): the register program does not touch the FIFO, opmode or IRQ-flags-2 registers. A configuration that
breaks this is still run as given (R143(c)), so it is no part of `Config.wf`. -/
def Config.avoidsFifoAndMode (c : Config) : Bool :=
  c.cfg.entries.all fun e =>
    e.addr != c.addrFifo.setWidth 8 && e.addr != c.addrOpmode.setWidth 8 && e.addr != c.addrIrqflags2.setWidth 8

end Sys2Proof
end

