-- ==== Sys2Proof/Decode.lean ====
section
/-! DEFINITION. Decode.lean: from bytes to a row of the table and back (30_encoding.md rules R90 to R100). The same byte
is a different row in a different format, so the format is an argument (log entry 11). -/

namespace Sys2Proof

/-- Why bytes are no row of the format asked for. -/
inductive DecodeError where
  | noBytes          -- there is no byte to read
  | addressBit6      -- a bus address byte with bit 6 set, which the block never sends (R95)
  | noDataByte       -- a bus write without its data byte (R94)
  | notAnOpmode      -- a byte SETMODE never writes to the opmode register (R96)
  | notTheTerminator -- a parameter id other than 0x00: data of a record, no row (R99)
  deriving DecidableEq, Repr

/-- The host command byte, c = RSV || M || OP (R90 to R93): total, every byte outside the eight encodings is ILLEGAL. -/
def decodeCommand (c : Byte) : Instr :=
  let rsv := c.extractLsb' 6 2
  let m   := c.extractLsb' 4 2
  let op  := c.extractLsb' 0 4
  match c.toNat with
  | 0x01 => .init
  | 0x02 => .setmodeStandby
  | 0x12 => .setmodeTx
  | 0x22 => .setmodeRx
  | 0x03 => .receive
  | 0x04 => .transmit
  | 0x05 => .encode
  | 0x06 => .decode
  | _    => .illegal rsv m op

/-- A bus transaction, A = W || 0 || a[5:0] then D (R94, R95). A read's data byte is the transceiver's answer and no part
of the instruction, so it stays in the rest of the list. -/
def decodeBus : List Byte → Except DecodeError (Instr × List Byte)
  | [] => .error .noBytes
  | a :: rest =>
    if a.getLsbD 6 then .error .addressBit6
    else if a.getLsbD 7 then
      match rest with
      | [] => .error .noDataByte
      | d :: rest' => .ok (.busWrite (a.extractLsb' 0 6) d, rest')
    else .ok (.busRead (a.extractLsb' 0 6), rest)

/-- The three opmode values of R96. -/
def decodeOpmode (b : Byte) : Except DecodeError Instr :=
  match b.toNat with
  | 0x04 => .ok .opmodeStandby
  | 0x0C => .ok .opmodeTx
  | 0x10 => .ok .opmodeRx
  | _    => .error .notAnOpmode

/-- A record's type byte, T = tag || low (R100, R196): total, every tag is a row. -/
def decodeType (t : Byte) : Instr :=
  let low := t.extractLsb' 0 4
  match (t.extractLsb' 4 4).toNat with
  | 0x0 => .typeOtUint low
  | 0x1 => .typeOtUint4 low
  | 0x2 => .typeOtUint8 low
  | 0x3 => .typeOtUint12 low
  | 0x4 => .typeOtUint16 low
  | 0x5 => .typeOtUint20 low
  | 0x6 => .typeOtUint24 low
  | 0x7 => .typeOtChar low
  | 0x8 => .typeOtSint low
  | 0x9 => .typeOtSint8 low
  | 0xA => .typeOtSint16 low
  | 0xB => .typeOtSint24 low
  | 0xC => .typeUnnamedC low
  | 0xD => .typeUnnamedD low
  | 0xE => .typeUnnamedE low
  | _   => .typeOtFloat low

/-- A parameter-id byte: 0x00 is the terminator, any other is data of a record (R99). -/
def decodePid (b : Byte) : Except DecodeError Instr :=
  if b = 0 then .ok .recordTerminator else .error .notTheTerminator

/-- Decode a list of bytes in a format: the row, and the bytes after it. -/
def decodeAs (f : Format) (bs : List Byte) : Except DecodeError (Instr × List Byte) :=
  match f with
  | .cmd =>
    match bs with
    | [] => .error .noBytes
    | c :: rest => .ok (decodeCommand c, rest)
  | .busAddr => decodeBus bs
  | .opmodeValue =>
    match bs with
    | [] => .error .noBytes
    | b :: rest =>
      match decodeOpmode b with
      | .ok i => .ok (i, rest)
      | .error e => .error e
  | .recordType =>
    match bs with
    | [] => .error .noBytes
    | t :: rest => .ok (decodeType t, rest)
  | .recordPid =>
    match bs with
    | [] => .error .noBytes
    | b :: rest =>
      match decodePid b with
      | .ok i => .ok (i, rest)
      | .error e => .error e

/-- The instruction read from a word whose bits are numbered as spec/opcode_table.json numbers them, the first byte in
bits 7:0. One byte is read at the host command port, the only place where the block takes an instruction from outside
(R90); two bytes are a bus transaction, the table's only two-byte format (log entry 11). -/
def decodeTableWord (nbits w : Nat) : Option Instr :=
  if nbits ≤ 8 then some (decodeCommand (BitVec.ofNat 8 w))
  else
    match decodeBus [BitVec.ofNat 8 w, BitVec.ofNat 8 (w / 256)] with
    | .ok (i, _) => some i
    | .error _ => none

/-- The type byte tag || low (R100). -/
def typeByte (tag low : BitVec 4) : Byte := tag ++ low

/-- The address byte of a bus read, 00 || a (R94). -/
def readAddressByte (a : BusAddr) : Byte := (0#2) ++ a

/-- The address byte of a bus write, 10 || a = a | 0x80 (R94). -/
def writeAddressByte (a : BusAddr) : Byte := (2#2) ++ a

/-- The bytes of a row (R91, R94, R96, R99, R100). A bus read is its address byte: its data byte comes from the
transceiver. -/
def encode : Instr → List Byte
  | .init => [0x01]
  | .setmodeStandby => [0x02]
  | .setmodeTx => [0x12]
  | .setmodeRx => [0x22]
  | .receive => [0x03]
  | .transmit => [0x04]
  | .encode => [0x05]
  | .decode => [0x06]
  | .illegal rsv m op => [rsv ++ m ++ op]
  | .busRead a => [readAddressByte a]
  | .busWrite a v => [writeAddressByte a, v]
  | .opmodeStandby => [0x04]
  | .opmodeTx => [0x0C]
  | .opmodeRx => [0x10]
  | .typeOtUint low => [typeByte 0x0 low]
  | .typeOtUint4 low => [typeByte 0x1 low]
  | .typeOtUint8 low => [typeByte 0x2 low]
  | .typeOtUint12 low => [typeByte 0x3 low]
  | .typeOtUint16 low => [typeByte 0x4 low]
  | .typeOtUint20 low => [typeByte 0x5 low]
  | .typeOtUint24 low => [typeByte 0x6 low]
  | .typeOtChar low => [typeByte 0x7 low]
  | .typeOtSint low => [typeByte 0x8 low]
  | .typeOtSint8 low => [typeByte 0x9 low]
  | .typeOtSint16 low => [typeByte 0xA low]
  | .typeOtSint24 low => [typeByte 0xB low]
  | .typeUnnamedC low => [typeByte 0xC low]
  | .typeUnnamedD low => [typeByte 0xD low]
  | .typeUnnamedE low => [typeByte 0xE low]
  | .typeOtFloat low => [typeByte 0xF low]
  | .recordTerminator => [0x00]

end Sys2Proof
end

