-- ==== Sys2Proof/Machine/Operands.lean ====
section
/-! DEFINITION. Machine/Operands.lean: how each operand is assembled (30_encoding.md rule R102), and the functions of the
codec that both its commands use (43_codec.md rules R190 to R196). -/

namespace Sys2Proof.Machine

/-- The mode a target names. -/
def Target.mode : Target → Mode
  | .standby => .standby
  | .tx => .tx
  | .rx => .rx

/-- OPMODE_VAL(m) (R96). -/
def opmodeVal : Target → Byte
  | .standby => 0x04
  | .tx => 0x0C
  | .rx => 0x10

/-- MODEOF(M) (R93); 0b11 encodes no target. -/
def modeOf (m : BitVec 2) : Option Target :=
  match m.toNat with
  | 0 => some .standby
  | 1 => some .tx
  | 2 => some .rx
  | _ => none

/-- The bytes of a transaction on the wire, the address byte and then the data byte (R94). -/
def BusEvent.wire : BusEvent → List Byte
  | .read a v => [readAddressByte a, v]
  | .write a v => [writeAddressByte a, v]

/-- The total length N = L + 1, computed without 8-bit wrap (R98). -/
def frameLength (l : Byte) : Nat := l.toNat + 1

/-- R162: the frame is accepted for reading when 13 <= L + 1 <= 15. -/
def framingOk (l : Byte) : Bool :=
  decide (Config.minR1Msglen ≤ frameLength l) && decide (frameLength l ≤ Config.maxR1Msglen)

/-- The default of WIDTH(T), the number of value bytes, by the tag T[7:4]; `none` is UNSUPPORTED (R196). -/
def defaultWidth (t : Byte) : Option Nat :=
  match (t.extractLsb' 4 4).toNat with
  | 0x0 => some 0
  | 0x1 => some 1
  | 0x2 => some 1
  | 0x3 => some 2
  | 0x4 => some 2
  | 0x5 => some 3
  | 0x6 => some 3
  | 0x7 => some (t.extractLsb' 0 4).toNat
  | 0x8 => some 0
  | 0x9 => some 1
  | 0xA => some 2
  | 0xB => some 3
  | 0xC => some (t.extractLsb' 0 4).toNat
  | 0xD => some (t.extractLsb' 0 4).toNat
  | 0xE => some (t.extractLsb' 0 4).toNat
  | _   => none

/-- The width the configuration gives a type byte in place of the default (R9). -/
def widthEntry (c : Config) (t : Byte) : Option (BitVec 4) := (c.widths.find? fun e => e.type == t).map (·.value)

/-- WIDTH(T), a parameter with a default (R9, R196); `none` is UNSUPPORTED. The FLOAT tag is UNSUPPORTED and no other tag is,
whatever the parameter (R198, R200; log entry 12). -/
def width (c : Config) (t : Byte) : Option Nat :=
  (defaultWidth t).map fun w => ((widthEntry c t).map BitVec.toNat).getD w

/-- The default of SEED(p): (CRYPT_PID << 8) ^ zext_16(p) (R190). -/
def defaultSeed (product : Byte) : BitVec 16 :=
  (Config.cryptPid.setWidth 16 <<< 8) ^^^ product.setWidth 16

/-- The seed the configuration gives a product in place of the default (R9). -/
def seedEntry (c : Config) (product : Byte) : Option (BitVec 16) :=
  (c.seeds.find? fun e => e.product == product).map (·.value)

/-- SEED(p), a parameter with a default (R9, R190). -/
def seed (c : Config) (product : Byte) : BitVec 16 := (seedEntry c product).getD (defaultSeed product)

/-- STEP(r) of the keystream's shift register (R191). -/
def keystreamStep (r : BitVec 16) : BitVec 16 :=
  (r >>> 1) ^^^ (if r.getLsbD 0 then 0xF5F5#16 else 0#16)

/-- STEP applied n times (R191). -/
def keystreamSteps : Nat → BitVec 16 → BitVec 16
  | 0, r => r
  | n + 1, r => keystreamSteps n (keystreamStep r)

/-- The default of KS(s, k): 5 * (k + 1) steps, then the low byte ^ 0x5A (R191). -/
def defaultKeystream (s : BitVec 16) (k : Nat) : Byte :=
  (keystreamSteps (5 * (k + 1)) s).extractLsb' 0 8 ^^^ 0x5A#8

/-- The keystream byte the configuration gives in place of the default (R9). -/
def keystreamEntry (c : Config) (s : BitVec 16) (k : Nat) : Option Byte :=
  (c.ks.find? fun e => e.seed == s && e.index == k).map (·.value)

/-- KS(s, k), a parameter with a default (R9, R191). -/
def keystream (c : Config) (s : BitVec 16) (k : Nat) : Byte := (keystreamEntry c s k).getD (defaultKeystream s k)

/-- XCRYPT on the bytes from offset i on, of a frame of length n: offsets 3 to n - 2 are XORed with KS(s, i - 3) (R192,
R193). -/
def xcryptFrom (c : Config) (n : Nat) (s : BitVec 16) : Nat → List Byte → List Byte
  | _, [] => []
  | i, b :: bs => (if 3 ≤ i ∧ i + 2 ≤ n then b ^^^ keystream c s (i - 3) else b) :: xcryptFrom c n s (i + 1) bs

/-- XCRYPT(X, N, s) (R193). -/
def xcrypt (c : Config) (x : List Byte) (n : Nat) (s : BitVec 16) : List Byte := xcryptFrom c n s 0 x

/-- The sum mod 256 of a list of bytes (R11: `+` on 8-bit values, mod 256). -/
def sumBytes : List Byte → Byte
  | [] => 0
  | b :: bs => b + sumBytes bs

/-- CHECKSUM(F, N): the sum mod 256 of F[1] to F[N-2] (R195). -/
def checksum (f : List Byte) (n : Nat) : Byte := sumBytes ((f.take (n - 1)).drop 1)

/-- A 16-bit field of a frame, most significant byte first (R64). -/
def join16 (hi lo : Byte) : BitVec 16 := hi ++ lo

/-- A 24-bit field of a frame, most significant byte first (R64). -/
def join24 (hi mid lo : Byte) : BitVec 24 := hi ++ mid ++ lo

/-- Byte i of a value, byte 0 the least significant (R64, R215). -/
def byteOf {n : Nat} (v : BitVec n) (i : Nat) : Byte := v.extractLsb' (8 * i) 8

end Sys2Proof.Machine
end

