-- ==== Sys2Proof/Machine/Ops.lean ====
section
/-! DEFINITION. Machine/Ops.lean: the named operations the commands share: FBUF (R60), MSG (R34), the bus (R130, R131), the
start of a command (R90) and its end (R242), which is the block's whole exception entry: it saves nothing, has no handler
address and nothing returns from it (R243). -/

namespace Sys2Proof.Machine

/-! ### The frame buffer -/

/-- One byte of FBUF; an unlisted byte is unwritten (R41). -/
def Memory.read : List Host.Cell → Nat → Option Byte
  | [], _ => none
  | (a, b) :: m, i => if a = i then some b else Memory.read m i

/-- Put one byte at its place in a rising list of cells. -/
def Memory.insert : List Host.Cell → Nat → Byte → List Host.Cell
  | [], i, v => [(i, v)]
  | (a, b) :: m, i, v =>
    if i < a then (i, v) :: (a, b) :: m
    else if i = a then (i, v) :: m
    else (a, b) :: Memory.insert m i v

/-- FBUF[i] <- v. There is no byte above FBUF[65], and no rule forms such an index (R60), so nothing is stored there. -/
def Memory.write (m : List Host.Cell) (i : Nat) (v : Byte) : List Host.Cell :=
  if i < Config.maxFifoBuffer then Memory.insert m i v else m

/-- FBUF[i ..] <- the bytes of a list, in order. -/
def Memory.writeBytes : List Host.Cell → Nat → List Byte → List Host.Cell
  | m, _, [] => m
  | m, i, v :: vs => Memory.writeBytes (Memory.write m i v) (i + 1) vs

/-- The canonical form from index `lo` on: indices strictly rising, none above 65. No listed cell reads as an unlisted
one does, since an unlisted byte is unwritten. -/
def Memory.wfFrom : Nat → List Host.Cell → Bool
  | _, [] => true
  | lo, (a, _) :: m => decide (lo ≤ a) && decide (a < Config.maxFifoBuffer) && Memory.wfFrom (a + 1) m

/-- The canonical form of FBUF. -/
def Memory.wf (m : List Host.Cell) : Bool := Memory.wfFrom 0 m

/-- A register or byte that must hold a value to be read. The stop is the spec's: "A model must treat a read of it, by the
host or by a command, as a fault of the model (not as zero)" (R41; R245(a); U11: fault). -/
def need {α : Type} (r : Reg) : Option α → Except Fault α
  | some v => .ok v
  | none => .error (.unwritten r)

/-- MemRead(i, 1) (R12, R60). -/
def State.fbufByte (s : State) (i : Nat) : Except Fault Byte := need (.fbuf i) (Memory.read s.fbuf i)

/-- The `n` bytes from FBUF[i] on; the first unwritten one is the fault. -/
def State.fbufBytes (s : State) : Nat → Nat → Except Fault (List Byte)
  | _, 0 => .ok []
  | i, n + 1 =>
    match s.fbufByte i with
    | .error f => .error f
    | .ok b =>
      match s.fbufBytes (i + 1) n with
      | .error f => .error f
      | .ok bs => .ok (b :: bs)

/-- MemWrite(i, 1, v) (R12, R60). -/
def State.setFbuf (s : State) (i : Nat) (v : Byte) : State := { s with fbuf := Memory.write s.fbuf i v }

/-! ### The message registers -/

/-- MSG_REC[k] (R34). -/
def Msg.recAt (m : Msg) (k : Nat) : MsgRec := (m.recs[k]?).getD MsgRec.unwritten

/-- MSG_REC[k] <- r; there are 28 of them (R34). -/
def Msg.setRec (m : Msg) (k : Nat) (r : MsgRec) : Msg := { m with recs := m.recs.setIfInBounds k r }

/-- VAL[b] of a record register (R34). -/
def MsgRec.valAt (r : MsgRec) (b : Nat) : Option Byte := (r.val[b]?).getD none

/-- VAL[b] <- v; there are 15 of them (R34). -/
def MsgRec.setVal (r : MsgRec) (b : Nat) (v : Byte) : MsgRec := { r with val := r.val.setIfInBounds b (some v) }

/-- VAL[b ..] <- the bytes of a list, in order; the others keep what they hold (log entry 20). -/
def MsgRec.setVals : MsgRec → Nat → List Byte → MsgRec
  | r, _, [] => r
  | r, b, v :: vs => MsgRec.setVals (r.setVal b v) (b + 1) vs

/-! ### The bus -/

/-- The byte the transceiver answers to the next bus read: a free input (R5; log entry 2). -/
def State.nextAnswer (s : State) : Byte :=
  match s.answers with
  | [] => Config.busAnswer s.draws
  | v :: _ => v

/-- BusRead(a): the transaction of R130. The byte it returns is `s.nextAnswer`. -/
def State.busRead (s : State) (a : BusAddr) : State :=
  { s with answers := s.answers.tail, draws := s.draws + 1, trace := s.trace ++ [.read a s.nextAnswer] }

/-- BusWrite(a, v): the transaction of R131. -/
def State.busWrite (s : State) (a : BusAddr) (v : Byte) : State := { s with trace := s.trace ++ [.write a v] }

/-- The opmode write of SETMODE, with the updates made in its step (R145, R27, R96). -/
def State.writeOpmode (s : State) (m : Target) : State :=
  { s with modeOk := false, mode := m.mode }.busWrite s.config.addrOpmode (opmodeVal m)

/-! ### The start and the end of a command -/

/-- The first phase of each command (R90, R24). ILLEGAL takes the one combinational phase (log entry 8). A row that is no
command has none. -/
def firstPhase : Instr → Phase
  | .init => .initCfg 0
  | .setmodeStandby => .smWrite
  | .setmodeTx => .smWrite
  | .setmodeRx => .smWrite
  | .receive => .rxPoll 1
  | .transmit => .txData 0
  | .encode => .codec
  | .decode => .codec
  | .illegal _ _ _ => .codec
  | .busRead _ => .idle
  | .busWrite _ _ => .idle
  | .opmodeStandby => .idle
  | .opmodeTx => .idle
  | .opmodeRx => .idle
  | .typeOtUint _ => .idle
  | .typeOtUint4 _ => .idle
  | .typeOtUint8 _ => .idle
  | .typeOtUint12 _ => .idle
  | .typeOtUint16 _ => .idle
  | .typeOtUint20 _ => .idle
  | .typeOtUint24 _ => .idle
  | .typeOtChar _ => .idle
  | .typeOtSint _ => .idle
  | .typeOtSint8 _ => .idle
  | .typeOtSint16 _ => .idle
  | .typeOtSint24 _ => .idle
  | .typeUnnamedC _ => .idle
  | .typeUnnamedD _ => .idle
  | .typeUnnamedE _ => .idle
  | .typeOtFloat _ => .idle
  | .recordTerminator => .idle

/-- The acceptance of a command: BUSY <- 1 and PHASE to its first phase (R90). -/
def State.accept (s : State) (i : Instr) : State :=
  { s with busy := true, phase := firstPhase i, command := some i }

/-- finish(code): RESULT <- code, BUSY <- 0, PHASE <- IDLE; no other write is undone or made (R12, R242). -/
def State.finish (s : State) (code : ResultCode) : State :=
  { s with result := code, busy := false, phase := .idle, command := none }

/-- PHASE <- p. -/
def State.goto (s : State) (p : Phase) : State := { s with phase := p }

/-- One step of a command: its acceptance while the block is idle, one controller step of it while it runs (R90, R13; log
entry 9). While another command runs the host has no such move (R39). -/
def State.runCommand (s : State) (i : Instr) (controllerStep : State → Host.Outcome State Fault Refusal) :
    Host.Outcome State Fault Refusal :=
  if s.busy then
    if s.command = some i then controllerStep s else .refused .hostProtocol
  else .next (s.accept i)

/-- A register read inside a command: on an unwritten one the model faults (R41). -/
def orFault {α : Type} (r : Except Fault α) (go : α → Host.Outcome State Fault Refusal) :
    Host.Outcome State Fault Refusal :=
  match r with
  | .ok v => go v
  | .error f => .fault f

end Sys2Proof.Machine
end

