-- ==== Sys2Proof/Machine/Bus.lean ====
section
/-! DEFINITION. Machine/Bus.lean: the bus transactions (40_bus.md rules R130, R131) and the opmode values (R96), which the
sequencer issues inside the commands (log entry 10). -/

namespace Sys2Proof.Machine

/-- BUS_READ a (R130): the trace grows by `R a v` for the byte v the transceiver answers. -/
def execBusRead (a : BusAddr) (s : State) : Host.Outcome State Fault Refusal := .next (s.busRead a)

/-- BUS_WRITE a, v (R131): the trace grows by `W a v`. -/
def execBusWrite (a : BusAddr) (v : Byte) (s : State) : Host.Outcome State Fault Refusal := .next (s.busWrite a v)

/-- OPMODE STANDBY (R96, R145): the whole byte 0x04 is written to ADDR_OPMODE. -/
def execOpmodeStandby (s : State) : Host.Outcome State Fault Refusal := .next (s.writeOpmode .standby)

/-- OPMODE TX (R96, R145): the whole byte 0x0C is written to ADDR_OPMODE. -/
def execOpmodeTx (s : State) : Host.Outcome State Fault Refusal := .next (s.writeOpmode .tx)

/-- OPMODE RX (R96, R145): the whole byte 0x10 is written to ADDR_OPMODE. -/
def execOpmodeRx (s : State) : Host.Outcome State Fault Refusal := .next (s.writeOpmode .rx)

end Sys2Proof.Machine
end

