-- ==== Sys2Proof/Machine/Records.lean ====
section
/-! DEFINITION. Machine/Records.lean: PARSE (43_codec.md rules R197 to R200) as operations on its variables, and the meaning
of each record type byte and of the terminator: one step of PARSE, for the record at the position it has reached (log
entry 10). -/

namespace Sys2Proof.Machine

/-- PARSE returns an error. -/
def Parser.fail (p : Parser) (code : ResultCode) : Parser := { p with status := .failed code }

/-- PARSE(P, N) before its loop: no records, pos = 8, end = N - 1, the offset of the checksum (R197). -/
def Parser.start (plain : List Byte) (n : Nat) : Parser :=
  { plain := plain, pos := 8, stop := n - 1, recs := [], status := .running }

/-- A record with type byte t at pos: WIDTH(t) value bytes, by the configuration's WIDTH, that must end before the checksum
(R197, R199, R200). A parse that has returned takes nothing. -/
def Parser.takeRecord (c : Config) (p : Parser) (t : Byte) : Parser :=
  match p.status with
  | .running =>
    match width c t with
    | none => p.fail .unsupportedType
    | some w =>
      if p.stop < p.pos + 2 + w then p.fail .malformedRecord
      else
        { p with
          recs := p.recs ++ [⟨p.plain.getD p.pos 0, t, w, (p.plain.drop (p.pos + 2)).take w⟩]
          pos := p.pos + 2 + w }
  | _ => p

/-- The terminator at pos: it must be the last byte before the checksum (R197). -/
def Parser.terminate (p : Parser) : Parser :=
  match p.status with
  | .running => if p.pos + 1 = p.stop then { p with status := .done } else p.fail .malformedRecord
  | _ => p

/-- One turn of PARSE's loop (R197): the end, the terminator, a missing type byte, or a record. -/
def Parser.next (c : Config) (p : Parser) : Parser :=
  match p.status with
  | .running =>
    if p.stop ≤ p.pos then { p with status := .done }
    else if p.plain.getD p.pos 0 = 0 then p.terminate
    else if p.stop ≤ p.pos + 1 then p.fail .malformedRecord
    else p.takeRecord c (p.plain.getD (p.pos + 1) 0)
  | _ => p

/-- PARSE's loop, n turns of it; each turn returns or advances pos by 2 or more, so N turns are enough. -/
def Parser.run (c : Config) : Nat → Parser → Parser
  | 0, p => p
  | n + 1, p => Parser.run c n (p.next c)

/-- A record type byte: PARSE's step for the record at the position it has reached. -/
def State.takeRecord (s : State) (t : Byte) : State := { s with parser := s.parser.takeRecord s.config t }

/-- OT_UINT, tag 0x0: no value bytes by default (R196, R199). -/
def execTypeOtUint (low : BitVec 4) (s : State) : Host.Outcome State Fault Refusal :=
  .next (s.takeRecord (typeByte 0x0 low))

/-- OT_UINT4, tag 0x1: 1 value byte by default (R196). -/
def execTypeOtUint4 (low : BitVec 4) (s : State) : Host.Outcome State Fault Refusal :=
  .next (s.takeRecord (typeByte 0x1 low))

/-- OT_UINT8, tag 0x2: 1 value byte by default (R196). -/
def execTypeOtUint8 (low : BitVec 4) (s : State) : Host.Outcome State Fault Refusal :=
  .next (s.takeRecord (typeByte 0x2 low))

/-- OT_UINT12, tag 0x3: 2 value bytes by default (R196). -/
def execTypeOtUint12 (low : BitVec 4) (s : State) : Host.Outcome State Fault Refusal :=
  .next (s.takeRecord (typeByte 0x3 low))

/-- OT_UINT16, tag 0x4: 2 value bytes by default (R196). -/
def execTypeOtUint16 (low : BitVec 4) (s : State) : Host.Outcome State Fault Refusal :=
  .next (s.takeRecord (typeByte 0x4 low))

/-- OT_UINT20, tag 0x5: 3 value bytes by default (R196). -/
def execTypeOtUint20 (low : BitVec 4) (s : State) : Host.Outcome State Fault Refusal :=
  .next (s.takeRecord (typeByte 0x5 low))

/-- OT_UINT24, tag 0x6: 3 value bytes by default (R196). -/
def execTypeOtUint24 (low : BitVec 4) (s : State) : Host.Outcome State Fault Refusal :=
  .next (s.takeRecord (typeByte 0x6 low))

/-- OT_CHAR, tag 0x7: by default as many value bytes as the low nibble says (R196). -/
def execTypeOtChar (low : BitVec 4) (s : State) : Host.Outcome State Fault Refusal :=
  .next (s.takeRecord (typeByte 0x7 low))

/-- OT_SINT, tag 0x8: no value bytes by default (R196, R199). -/
def execTypeOtSint (low : BitVec 4) (s : State) : Host.Outcome State Fault Refusal :=
  .next (s.takeRecord (typeByte 0x8 low))

/-- OT_SINT8, tag 0x9: 1 value byte by default (R196). -/
def execTypeOtSint8 (low : BitVec 4) (s : State) : Host.Outcome State Fault Refusal :=
  .next (s.takeRecord (typeByte 0x9 low))

/-- OT_SINT16, tag 0xA: 2 value bytes by default (R196). -/
def execTypeOtSint16 (low : BitVec 4) (s : State) : Host.Outcome State Fault Refusal :=
  .next (s.takeRecord (typeByte 0xA low))

/-- OT_SINT24, tag 0xB: 3 value bytes by default (R196). -/
def execTypeOtSint24 (low : BitVec 4) (s : State) : Host.Outcome State Fault Refusal :=
  .next (s.takeRecord (typeByte 0xB low))

/-- Unnamed tag 0xC: an opaque record, by default as many value bytes as the low nibble says (R196, R198). -/
def execTypeUnnamedC (low : BitVec 4) (s : State) : Host.Outcome State Fault Refusal :=
  .next (s.takeRecord (typeByte 0xC low))

/-- Unnamed tag 0xD: an opaque record, by default as many value bytes as the low nibble says (R196, R198). -/
def execTypeUnnamedD (low : BitVec 4) (s : State) : Host.Outcome State Fault Refusal :=
  .next (s.takeRecord (typeByte 0xD low))

/-- Unnamed tag 0xE: an opaque record, by default as many value bytes as the low nibble says (R196, R198). -/
def execTypeUnnamedE (low : BitVec 4) (s : State) : Host.Outcome State Fault Refusal :=
  .next (s.takeRecord (typeByte 0xE low))

/-- OT_FLOAT, tag 0xF: PARSE returns UNSUPPORTED_TYPE, whatever the low nibble (R200). -/
def execTypeOtFloat (low : BitVec 4) (s : State) : Host.Outcome State Fault Refusal :=
  .next (s.takeRecord (typeByte 0xF low))

/-- The terminator, parameter id 0x00 (R99, R197). -/
def execRecordTerminator (s : State) : Host.Outcome State Fault Refusal :=
  .next { s with parser := s.parser.terminate }

end Sys2Proof.Machine
end

