-- ==== Sys2Proof/Machine/Codec.lean ====
section
/-! DEFINITION. Machine/Codec.lean: ENCODE and DECODE (43_codec.md). Each is one controller step with no bus transaction. -/

namespace Sys2Proof.Machine

/-- A codec read: on an unwritten register the command ends in the model fault, as the spec orders: "a fault of the model
(not as zero)" (R41), "a read of an unwritten one is a model fault" (R216), R245(a). -/
def needHalt {α : Type} (r : Reg) (v : Option α) (go : α → Except Halt β) : Except Halt β :=
  match v with
  | some x => go x
  | none => .error (.fault (.unwritten r))

/-! ### DECODE -/

/-- DECODE's first checks (R205, R206, R208): the length, the length byte, the checksum over the received bytes. The
bytes FBUF[0 .. N-1] when they pass. FBUF[0] is read only when 9 <= FLEN <= 66 (log entry 14). -/
def receivedFrame (s : State) : Except Halt (List Byte) :=
  let n := s.flen.toNat
  if n < 9 ∨ Config.maxFifoBuffer < n then .error (.finish .malformedRecord)
  else
    match s.fbufByte 0 with
    | .error f => .error (.fault f)
    | .ok l =>
      if l.toNat ≠ n - 1 then .error (.finish .malformedRecord)
      else
        match s.fbufBytes 0 n with
        | .error f => .error (.fault f)
        | .ok f => if checksum f n ≠ f.getD (n - 1) 0 then .error (.finish .checksumFailed) else .ok f

/-- The decrypted frame P (R207). -/
def decryptedFrame (c : Config) (f : List Byte) : List Byte := xcrypt c f f.length (seed c (f.getD 2 0))

/-- MSG_REC[k] <- a parsed record (R205): PID, TYPE, VLEN and VAL[0 .. w-1]. -/
def Msg.storeRec (m : Msg) (k : Nat) (r : Rec) : Msg :=
  m.setRec k
    { (m.recAt k).setVals 0 r.val with
      pid := some r.pid, type := some r.type, vlen := some (BitVec.ofNat 4 r.width) }

/-- MSG_REC[k ..] <- the parsed records, in order (R205). -/
def Msg.storeRecs : Msg → Nat → List Rec → Msg
  | m, _, [] => m
  | m, k, r :: rs => Msg.storeRecs (m.storeRec k r) (k + 1) rs

/-- The header and MSG_NREC from the decrypted frame, then the records (R205, R209). -/
def Msg.store (m : Msg) (p : List Byte) (recs : List Rec) : Msg :=
  Msg.storeRecs
    { m with
      mfr := some (p.getD 1 0)
      product := some (p.getD 2 0)
      pip := some (join16 (p.getD 3 0) (p.getD 4 0))
      devid := some (join24 (p.getD 5 0) (p.getD 6 0) (p.getD 7 0))
      nrec := BitVec.ofNat 5 recs.length }
    0 recs

/-- PARSE(P, N) run to its return, with P the decrypted frame (R197, R207). -/
def parseFrame (c : Config) (f : List Byte) : Parser := (Parser.start (decryptedFrame c f) f.length).run c f.length

/-- DECODE's one step (R205, R210). -/
def decodeStep (s : State) : Host.Outcome State Fault Refusal :=
  match s.phase with
  | .codec =>
    match receivedFrame s with
    | .error (.fault f) => .fault f
    | .error (.finish c) => .next (s.finish c)
    | .ok f =>
      let s := { s with parser := parseFrame s.config f }
      match s.parser.status with
      | .failed c => .next ({ s with parser := Parser.empty }.finish c)
      | _ =>
        .next ({ s with msg := s.msg.store s.parser.plain s.parser.recs, parser := Parser.empty }.finish .ok)
  | _ => .refused .phaseMismatch

/-- DECODE (R205 to R210). -/
def execDecode (s : State) : Host.Outcome State Fault Refusal := s.runCommand .decode decodeStep

/-! ### ENCODE -/

/-- ENCODE's checks of records k, k+1, ... (R215, R216), `n` of them, in order: the sum of their lengths 2 + VLEN. -/
def checkRecs (c : Config) (m : Msg) : Nat → Nat → Except Halt Nat
  | _, 0 => .ok 0
  | k, n + 1 =>
    needHalt (.recPid k) (m.recAt k).pid fun pid =>
    if pid = 0 then .error (.finish .malformedRecord)
    else
      needHalt (.recType k) (m.recAt k).type fun t =>
      match width c t with
      | none => .error (.finish .unsupportedType)
      | some w =>
        needHalt (.recVlen k) (m.recAt k).vlen fun vlen =>
        if vlen.toNat ≠ w then .error (.finish .malformedRecord)
        else
          match checkRecs c m (k + 1) n with
          | .error h => .error h
          | .ok total => .ok (2 + vlen.toNat + total)

/-- VAL[b ..] of record k, `c` bytes (R215, R216). -/
def recVals (m : Msg) (k : Nat) : Nat → Nat → Except Halt (List Byte)
  | _, 0 => .ok []
  | b, c + 1 =>
    needHalt (.recVal k b) ((m.recAt k).valAt b) fun v =>
    match recVals m k (b + 1) c with
    | .error h => .error h
    | .ok vs => .ok (v :: vs)

/-- The bytes of record k: PID, TYPE, VAL[0 .. VLEN-1] (R215). -/
def recBytes (m : Msg) (k : Nat) : Except Halt (List Byte) :=
  needHalt (.recPid k) (m.recAt k).pid fun pid =>
  needHalt (.recType k) (m.recAt k).type fun t =>
  needHalt (.recVlen k) (m.recAt k).vlen fun vlen =>
  match recVals m k 0 vlen.toNat with
  | .error h => .error h
  | .ok vs => .ok (pid :: t :: vs)

/-- The bytes of records k, k+1, ..., `c` of them (R215, R217). -/
def recsBytes (m : Msg) : Nat → Nat → Except Halt (List Byte)
  | _, 0 => .ok []
  | k, c + 1 =>
    match recBytes m k with
    | .error h => .error h
    | .ok bs =>
      match recsBytes m (k + 1) c with
      | .error h => .error h
      | .ok rest => .ok (bs ++ rest)

/-- The header bytes, offsets 1 to 7 (R215, R97). -/
def headerBytes (m : Msg) : Except Halt (List Byte) :=
  needHalt .msgMfr m.mfr fun mfr =>
  needHalt .msgProduct m.product fun product =>
  needHalt .msgPip m.pip fun pip =>
  needHalt .msgDevid m.devid fun devid =>
  .ok [mfr, product, byteOf pip 1, byteOf pip 0, byteOf devid 2, byteOf devid 1, byteOf devid 0]

/-- The bytes 0 to N-2 of a frame, not yet encrypted: the length byte, the header, the records, the terminator (R215,
R218). The length byte stands already here: offset 0 is neither encrypted nor summed (R192, R195). -/
def plainFrame (header records : List Byte) : List Byte :=
  BitVec.ofNat 8 (header.length + records.length + 2) :: (header ++ records ++ [0])

/-- The frame from its plain bytes 0 to N-2 (R215, R217): encrypt, then append the checksum of the encrypted bytes. -/
def sealFrame (c : Config) (p : List Byte) : List Byte :=
  let n := p.length + 1
  let f := xcrypt c p n (seed c (p.getD 2 0))
  f ++ [checksum f n]

/-- The frame ENCODE builds, or how it ends early (R215, R216). -/
def encodedFrame (c : Config) (m : Msg) : Except Halt (List Byte) :=
  if Config.maxRecords < m.nrec.toNat then .error (.finish .malformedRecord)
  else
    match checkRecs c m 0 m.nrec.toNat with
    | .error h => .error h
    | .ok total =>
      if Config.maxFifoBuffer < 10 + total then .error (.finish .badLength)
      else
        match headerBytes m with
        | .error h => .error h
        | .ok header =>
          match recsBytes m 0 m.nrec.toNat with
          | .error h => .error h
          | .ok records => .ok (sealFrame c (plainFrame header records))

/-- ENCODE's one step (R215). -/
def encodeStep (s : State) : Host.Outcome State Fault Refusal :=
  match s.phase with
  | .codec =>
    match encodedFrame s.config s.msg with
    | .error (.fault f) => .fault f
    | .error (.finish c) => .next (s.finish c)
    | .ok f =>
      .next ({ s with fbuf := Memory.writeBytes s.fbuf 0 f, flen := BitVec.ofNat 8 f.length }.finish .ok)
  | _ => .refused .phaseMismatch

/-- ENCODE (R215 to R218). -/
def execEncode (s : State) : Host.Outcome State Fault Refusal := s.runCommand .encode encodeStep

end Sys2Proof.Machine
end

