-- ==== Sys2Proof/Machine/Fifo.lean ====
section
/-! DEFINITION. Machine/Fifo.lean: RECEIVE and TRANSMIT (42_fifo_sequencer.md). -/

namespace Sys2Proof.Machine

/-- One payload-ready poll, RX_POLL(i) (R160, R161). -/
def receivePoll (i : Nat) (s : State) : State :=
  let v := s.nextAnswer
  let s := { s with idxI := some i }.busRead s.config.addrIrqflags2
  if flagSet v s.config.mPayloadrdy then s.goto .rxLen
  else if i < s.rxPolls.toNat then s.goto (.rxPoll (i + 1))
  else s.finish .timeout

/-- RECEIVE's first step: the gates of R241 and R160, FLEN <- 0, and the first poll; with RX_POLLS = 0 there is none
(R161). -/
def receiveStart (s : State) : State :=
  if s.initOk = false then s.finish .notInitialised
  else if s.mode ≠ .rx ∨ s.modeOk = false then s.finish .wrongMode
  else
    let s := { s with flen := 0 }
    if s.rxPolls.toNat = 0 then s.finish .timeout else receivePoll 1 s

/-- The length byte, RX_LEN (R160, R162): it is checked before any further FIFO read. -/
def receiveLength (s : State) : State :=
  let l := s.nextAnswer
  let s := { (s.busRead s.config.addrFifo).setFbuf 0 l with lenL := some l }
  if framingOk l then s.goto (.rxData 1) else s.goto (.rxDrainFlag 1)

/-- One data byte, RX_DATA(j) (R164). -/
def receiveData (j : Nat) (l : Byte) (s : State) : State :=
  let v := s.nextAnswer
  let s := { (s.busRead s.config.addrFifo).setFbuf j v with idxJ := some j }
  if j < l.toNat then s.goto (.rxData (j + 1)) else s.goto .rxOvr

/-- The overrun check, RX_OVR (R165). -/
def receiveOverrun (l : Byte) (s : State) : State :=
  let v := s.nextAnswer
  let s := s.busRead s.config.addrIrqflags2
  if flagSet v s.config.mFifooverrun then
    match s.config.ovrClear with
    | .w1c => s.goto .rxClr
    | .none => s.finish .overrun
  else { s with flen := BitVec.ofNat 8 (frameLength l) }.finish .ok

/-- The drain's flag read, RX_DRAIN_FLAG(d) (R163). -/
def receiveDrainFlag (d : Nat) (s : State) : State :=
  let v := s.nextAnswer
  let s := s.busRead s.config.addrIrqflags2
  if flagSet v s.config.mFifonotempty then s.goto (.rxDrainRead d) else s.finish .badFraming

/-- The drain's FIFO read, RX_DRAIN_READ(d), whose byte is discarded; at most MAX_FIFO_BUFFER - 1 = 65 of them (R163). -/
def receiveDrainRead (d : Nat) (s : State) : State :=
  let s := s.busRead s.config.addrFifo
  if d < Config.maxFifoBuffer - 1 then s.goto (.rxDrainFlag (d + 1)) else s.finish .badFraming

/-- RECEIVE's phases (R160, R163). -/
def receiveStep (s : State) : Host.Outcome State Fault Refusal :=
  match s.phase with
  | .rxPoll i => .next (if i = 1 then receiveStart s else receivePoll i s)
  | .rxLen => .next (receiveLength s)
  | .rxData j =>
    if 1 ≤ j ∧ j < Config.maxR1Msglen then orFault (need .seqL s.lenL) fun l => .next (receiveData j l s)
    else .refused .phaseMismatch
  | .rxOvr => orFault (need .seqL s.lenL) fun l => .next (receiveOverrun l s)
  | .rxClr => .next ((s.busWrite s.config.addrIrqflags2 s.config.mFifooverrun).finish .overrun)
  | .rxDrainFlag d => .next (receiveDrainFlag d s)
  | .rxDrainRead d => .next (receiveDrainRead d s)
  | _ => .refused .phaseMismatch

/-- RECEIVE (R160 to R165). -/
def execReceive (s : State) : Host.Outcome State Fault Refusal := s.runCommand .receive receiveStep

/-- One byte of the FIFO load, TX_DATA(j) (R168); the byte must be written (R41). -/
def transmitData (j : Nat) (s : State) : Host.Outcome State Fault Refusal :=
  orFault (s.fbufByte j) fun b =>
    .next (({ s with idxJ := some j }.busWrite s.config.addrFifo b).goto
      (if j + 1 < s.flen.toNat then .txData (j + 1) else .txPoll 1))

/-- TRANSMIT's first step: the gates in R167's order (INIT_OK, the mode, the length), then the first byte. -/
def transmitStart (s : State) : Host.Outcome State Fault Refusal :=
  if s.initOk = false then .next (s.finish .notInitialised)
  else if s.mode ≠ .tx ∨ s.modeOk = false then .next (s.finish .wrongMode)
  else if s.flen.toNat = 0 ∨ Config.maxFifoBuffer < s.flen.toNat then .next (s.finish .badLength)
  else transmitData 0 s

/-- One packet-sent poll, TX_POLL(i) (R169). -/
def transmitPoll (i : Nat) (s : State) : State :=
  let v := s.nextAnswer
  let s := { s with idxI := some i }.busRead s.config.addrIrqflags2
  if flagSet v s.config.mPacketsent then s.finish .ok
  else if i < s.config.txPollMax then s.goto (.txPoll (i + 1))
  else s.finish .timeout

/-- TRANSMIT's phases (R166). -/
def transmitStep (s : State) : Host.Outcome State Fault Refusal :=
  match s.phase with
  | .txData j => if j = 0 then transmitStart s else transmitData j s
  | .txPoll i => .next (transmitPoll i s)
  | _ => .refused .phaseMismatch

/-- TRANSMIT (R166 to R170). -/
def execTransmit (s : State) : Host.Outcome State Fault Refusal := s.runCommand .transmit transmitStep

end Sys2Proof.Machine
end

