-- ==== Sys2Proof/Machine/ModeController.lean ====
section
/-! DEFINITION. Machine/ModeController.lean: INIT, SETMODE (41_mode_controller.md) and ILLEGAL (30_encoding.md rule R92). -/

namespace Sys2Proof.Machine

/-- INIT's phases (R141). INIT_OK and MODE_OK are cleared with the first step. -/
def initStep (s : State) : Host.Outcome State Fault Refusal :=
  match s.phase with
  | .initCfg k =>
    match s.config.cfg.entries[k]? with
    | none => .refused .phaseMismatch
    | some e =>
      let s := if k = 0 then { s with initOk := false, modeOk := false } else s
      .next ((s.busWrite (e.addr.setWidth 6) e.value).goto
        (if k + 1 < s.config.cfg.entries.length then .initCfg (k + 1) else .initVer))
  | .initVer =>
    let v := s.nextAnswer
    let s := s.busRead s.config.addrVersion
    if v = Config.versionExpected then .next ({ s with initOk := true }.finish .ok)
    else .next (s.finish .versionMismatch)
  | _ => .refused .phaseMismatch

/-- INIT (R141 to R143): no precondition; CFG is written in order, then the version byte is compared with 36. -/
def execInit (s : State) : Host.Outcome State Fault Refusal := s.runCommand .init initStep

/-- SETMODE's phases for target m (R145, R146, R147). -/
def setmodeStep (m : Target) (s : State) : Host.Outcome State Fault Refusal :=
  match s.phase with
  | .smWrite =>
    if s.initOk then .next ((s.writeOpmode m).goto (.smPoll 1)) else .next (s.finish .notInitialised)
  | .smPoll i =>
    let v := s.nextAnswer
    let s := { s with idxI := some i }.busRead s.config.addrIrqflags1
    if flagSet v s.config.mModeready then .next ({ s with modeOk := true }.finish .ok)
    else if i < s.config.modePollMax then .next (s.goto (.smPoll (i + 1)))
    else .next (s.finish .timeout)
  | _ => .refused .phaseMismatch

/-- SETMODE STANDBY (R145). -/
def execSetmodeStandby (s : State) : Host.Outcome State Fault Refusal :=
  s.runCommand .setmodeStandby (setmodeStep .standby)

/-- SETMODE TX (R145). -/
def execSetmodeTx (s : State) : Host.Outcome State Fault Refusal := s.runCommand .setmodeTx (setmodeStep .tx)

/-- SETMODE RX (R145). -/
def execSetmodeRx (s : State) : Host.Outcome State Fault Refusal := s.runCommand .setmodeRx (setmodeStep .rx)

/-- ILLEGAL's one step (R92): finish(ILLEGAL_COMMAND) and nothing else. -/
def illegalStep (s : State) : Host.Outcome State Fault Refusal :=
  match s.phase with
  | .codec => .next (s.finish .illegalCommand)
  | _ => .refused .phaseMismatch

/-- ILLEGAL (R92): every command byte outside the eight encodings. -/
def execIllegal (rsv m : BitVec 2) (op : BitVec 4) (s : State) : Host.Outcome State Fault Refusal :=
  s.runCommand (.illegal rsv m op) illegalStep

end Sys2Proof.Machine
end

