-- ==== Sys2Proof/Machine/Dispatch.lean ====
section
/-! DEFINITION. Machine/Dispatch.lean: one arm per row of the opcode table. -/

namespace Sys2Proof.Machine

/-- The meaning of each instruction: for a host command, one step of it (log entry 9). -/
def exec (i : Instr) (s : State) : Host.Outcome State Fault Refusal :=
  match i with
  -- the mode controller
  | .init => Sys2Proof.Machine.execInit s
  | .setmodeStandby => Sys2Proof.Machine.execSetmodeStandby s
  | .setmodeTx => Sys2Proof.Machine.execSetmodeTx s
  | .setmodeRx => Sys2Proof.Machine.execSetmodeRx s
  -- the FIFO sequencer
  | .receive => Sys2Proof.Machine.execReceive s
  | .transmit => Sys2Proof.Machine.execTransmit s
  -- the codec
  | .encode => Sys2Proof.Machine.execEncode s
  | .decode => Sys2Proof.Machine.execDecode s
  -- every other command byte
  | .illegal rsv m op => Sys2Proof.Machine.execIllegal rsv m op s
  -- bus transactions and opmode values
  | .busRead a => Sys2Proof.Machine.execBusRead a s
  | .busWrite a v => Sys2Proof.Machine.execBusWrite a v s
  | .opmodeStandby => Sys2Proof.Machine.execOpmodeStandby s
  | .opmodeTx => Sys2Proof.Machine.execOpmodeTx s
  | .opmodeRx => Sys2Proof.Machine.execOpmodeRx s
  -- record type bytes and the terminator
  | .typeOtUint low => Sys2Proof.Machine.execTypeOtUint low s
  | .typeOtUint4 low => Sys2Proof.Machine.execTypeOtUint4 low s
  | .typeOtUint8 low => Sys2Proof.Machine.execTypeOtUint8 low s
  | .typeOtUint12 low => Sys2Proof.Machine.execTypeOtUint12 low s
  | .typeOtUint16 low => Sys2Proof.Machine.execTypeOtUint16 low s
  | .typeOtUint20 low => Sys2Proof.Machine.execTypeOtUint20 low s
  | .typeOtUint24 low => Sys2Proof.Machine.execTypeOtUint24 low s
  | .typeOtChar low => Sys2Proof.Machine.execTypeOtChar low s
  | .typeOtSint low => Sys2Proof.Machine.execTypeOtSint low s
  | .typeOtSint8 low => Sys2Proof.Machine.execTypeOtSint8 low s
  | .typeOtSint16 low => Sys2Proof.Machine.execTypeOtSint16 low s
  | .typeOtSint24 low => Sys2Proof.Machine.execTypeOtSint24 low s
  | .typeUnnamedC low => Sys2Proof.Machine.execTypeUnnamedC low s
  | .typeUnnamedD low => Sys2Proof.Machine.execTypeUnnamedD low s
  | .typeUnnamedE low => Sys2Proof.Machine.execTypeUnnamedE low s
  | .typeOtFloat low => Sys2Proof.Machine.execTypeOtFloat low s
  | .recordTerminator => Sys2Proof.Machine.execRecordTerminator s

end Sys2Proof.Machine
end

