-- ==== Sys2Proof/Machine/HostPort.lean ====
section
/-! DEFINITION. Machine/HostPort.lean: the host's moves (70_reset_and_hazards.md rule R292, 30_encoding.md rules R104,
R105), and the controller's own step. -/

namespace Sys2Proof.Machine

/-- The step of a running command: one step of the instruction it runs (R13, R30). -/
def controllerStep (s : State) : Host.Outcome State Fault Refusal :=
  match s.command with
  | some i => exec i s
  | none => .refused .phaseMismatch

/-- Reset (R270 to R272): every field of the block takes its reset value, between two steps, with no bus transaction. The
configuration, the transceiver, the host and the records of what happened are not the block's state (R271). -/
def State.hostReset (s : State) : State :=
  { State.reset with
    config := s.config, host := s.host, reads := s.reads, answers := s.answers, draws := s.draws, trace := s.trace }

/-- A host write of a register, with BUSY = 0 (R39, R292): RX_POLLS, FLEN, FBUF[i] and MSG. The value's low bits, as many
as the register has, are stored (log entry 16). STATUS is read-only (R23), and L is not host-visible (R25). -/
def State.hostWrite (s : State) (r : Reg) (v : BitVec 24) : Option State :=
  match r with
  | .status => none
  | .rxPolls => some { s with rxPolls := v.setWidth 16 }
  | .flen => some { s with flen := v.setWidth 8 }
  | .fbuf i => if i < Config.maxFifoBuffer then some (s.setFbuf i (v.setWidth 8)) else none
  | .msgMfr => some { s with msg := { s.msg with mfr := some (v.setWidth 8) } }
  | .msgProduct => some { s with msg := { s.msg with product := some (v.setWidth 8) } }
  | .msgPip => some { s with msg := { s.msg with pip := some (v.setWidth 16) } }
  | .msgDevid => some { s with msg := { s.msg with devid := some v } }
  | .msgNrec => some { s with msg := { s.msg with nrec := v.setWidth 5 } }
  | .recPid k =>
    if k < 28 then some { s with msg := s.msg.setRec k { s.msg.recAt k with pid := some (v.setWidth 8) } } else none
  | .recType k =>
    if k < 28 then some { s with msg := s.msg.setRec k { s.msg.recAt k with type := some (v.setWidth 8) } } else none
  | .recVlen k =>
    if k < 28 then some { s with msg := s.msg.setRec k { s.msg.recAt k with vlen := some (v.setWidth 4) } } else none
  | .recVal k b =>
    if k < 28 ∧ b < 15 then some { s with msg := s.msg.setRec k ((s.msg.recAt k).setVal b (v.setWidth 8)) } else none
  | .seqL => none

/-- The value of a register the host may read with BUSY = 0: FLEN, FBUF[i], MSG (R39, R292). The outer `none` is a register
the host cannot read, the inner one an unwritten register (R41). -/
def State.hostValue (s : State) (r : Reg) : Option (Option (BitVec 24)) :=
  match r with
  | .status => some (some (s.status.setWidth 24))
  | .rxPolls => none
  | .flen => some (some (s.flen.setWidth 24))
  | .fbuf i => if i < Config.maxFifoBuffer then some ((Memory.read s.fbuf i).map (·.setWidth 24)) else none
  | .msgMfr => some (s.msg.mfr.map (·.setWidth 24))
  | .msgProduct => some (s.msg.product.map (·.setWidth 24))
  | .msgPip => some (s.msg.pip.map (·.setWidth 24))
  | .msgDevid => some s.msg.devid
  | .msgNrec => some (some (s.msg.nrec.setWidth 24))
  | .recPid k => if k < 28 then some ((s.msg.recAt k).pid.map (·.setWidth 24)) else none
  | .recType k => if k < 28 then some ((s.msg.recAt k).type.map (·.setWidth 24)) else none
  | .recVlen k => if k < 28 then some ((s.msg.recAt k).vlen.map (·.setWidth 24)) else none
  | .recVal k b => if k < 28 ∧ b < 15 then some (((s.msg.recAt k).valAt b).map (·.setWidth 24)) else none
  | .seqL => none

/-- A host read: STATUS at any time, with no side effect (R23); the others with BUSY = 0 (R39). On an unwritten register it is
the model fault, as the spec orders: "a read of it, by the host or by a command, as a fault of the model" (R41; R292: the
host must "not read unwritten state"). -/
def State.hostRead (s : State) (r : Reg) : Host.Outcome State Fault Refusal :=
  if s.busy ∧ r ≠ .status then .refused .hostProtocol
  else
    match s.hostValue r with
    | none => .refused .hostProtocol
    | some none => .fault (.unwritten r)
    | some (some v) => .next { s with reads := s.reads ++ [⟨r, v⟩] }

/-- One move of the host, already taken off the list (R292, R104). A move R39 rules out is no move of the model. -/
def hostStep (m : HostMove) (s : State) : Host.Outcome State Fault Refusal :=
  match m with
  | .reset => .next s.hostReset
  | .cmd c => if s.busy then .refused .hostProtocol else exec (decodeCommand c) s
  | .write r v =>
    if s.busy then .refused .hostProtocol
    else
      match s.hostWrite r v with
      | none => .refused .hostProtocol
      | some t => .next t
  | .read r => s.hostRead r
  | .assertResult c => .next (if s.result = c then s else { s with host := [] })
  | .wait => if s.busy then controllerStep { s with host := .wait :: s.host } else .next s
  | .tick => if s.busy then controllerStep s else .next s

/-- One step: the host's next move, if it has one; else the controller's, if a command runs; else nothing happens and the
block waits (R270). An ill-formed configuration is refused (R72). -/
def machineStep (s : State) : Host.Outcome State Fault Refusal :=
  if s.config.wf then
    match s.host with
    | [] => if s.busy then controllerStep s else .next s
    | m :: rest => hostStep m { s with host := rest }
  else .refused .illFormedConfig

/-! ### Host programs (R104, R105) -/

/-- A command line: "Every command line implies a following WAIT" (R104). -/
def commandLine (c : Byte) : List HostMove := [.cmd c, .wait]

/-- A pseudo-command: its commands in order, stopping at the first whose RESULT is not OK (R105). -/
def pseudoCommand : List Byte → List HostMove
  | [] => []
  | c :: cs => commandLine c ++ .assertResult .ok :: pseudoCommand cs

/-- SEND (R105): ENCODE, SETMODE STANDBY, SETMODE TX, TRANSMIT, SETMODE RX. -/
def hostSend : List HostMove := pseudoCommand [0x05, 0x02, 0x12, 0x04, 0x22]

/-- SEND STANDBY (R105): SEND ending with SETMODE STANDBY. -/
def hostSendStandby : List HostMove := pseudoCommand [0x05, 0x02, 0x12, 0x04, 0x02]

/-- LISTEN (R105): SETMODE RX, RECEIVE, DECODE. -/
def hostListen : List HostMove := pseudoCommand [0x22, 0x03, 0x06]

/-- BRACKET_RX (R105): SETMODE STANDBY, SETMODE RX, RECEIVE, SETMODE STANDBY. -/
def hostBracketRx : List HostMove := pseudoCommand [0x02, 0x22, 0x03, 0x02]

/-- The idle block with the byte c as the host's next command: the state whose next step takes exactly that command. -/
def State.withCommand (s : State) (c : Byte) : State :=
  { s with busy := false, phase := .idle, command := none, host := .cmd c :: s.host }

end Sys2Proof.Machine
end

