-- ==== Sys2Proof/Machine/Step.lean ====
section
/-! DEFINITION. Machine/Step.lean: the step, and the state whose next step takes a given instruction (log entries 5, 11). -/

namespace Sys2Proof.Machine

/-- One step of the machine: next, fault or refusal. -/
def step (s : State) : Host.Outcome State Fault Refusal := machineStep s

/-- The state s with the byte of w at the host's command port, the one place where the block takes an instruction (R22,
R63). A bus transaction (more than 8 bits) is issued by the sequencer and never fetched (R130, R131), so s stays as it
is. -/
def State.withFetchWord (s : State) (nbits w : Nat) : State :=
  if nbits ≤ 8 then s.withCommand (BitVec.ofNat 8 w) else s

end Sys2Proof.Machine
end

