-- ==== Sys2Proof/Safety.lean ====
section
/-! DEFINITION. Safety.lean: what a sound state is, in the terms the claims use: the sequencer's position agrees with the
running command (R24), no FIFO access is possible outside a ready mode (R28, R75), and every command ends (R38). -/

namespace Sys2Proof.Machine

/-- Command i runs and the sequencer stands at phase p. -/
def State.Running (s : State) (i : Instr) (p : Phase) : Prop := s.busy = true ∧ s.command = some i ∧ s.phase = p

/-- The j-th of the transceiver's answers to come, j = 0 the next one (R5). -/
def State.answerAt (s : State) (j : Nat) : Byte := (s.answers[j]?).getD (Config.busAnswer (s.draws + j))

/-- The received length byte is held and its frame was accepted (R162). -/
def State.lengthHeld (s : State) : Bool :=
  match s.lenL with
  | some l => framingOk l
  | none => false

/-- The phases of each command, with R24's index ranges. RX_POLL(1) and TX_DATA(0) are also the first phases of a RECEIVE
or TRANSMIT that its first step will refuse (R90, R161, R167). -/
def State.phaseOf (s : State) : Instr → Phase → Bool
  | .init, .initCfg k => decide (k < s.config.cfg.entries.length)
  | .init, .initVer => true
  | .setmodeStandby, .smWrite => true
  | .setmodeStandby, .smPoll i => decide (1 ≤ i) && decide (i ≤ s.config.modePollMax)
  | .setmodeTx, .smWrite => true
  | .setmodeTx, .smPoll i => decide (1 ≤ i) && decide (i ≤ s.config.modePollMax)
  | .setmodeRx, .smWrite => true
  | .setmodeRx, .smPoll i => decide (1 ≤ i) && decide (i ≤ s.config.modePollMax)
  | .receive, .rxPoll i => i == 1 || (decide (1 ≤ i) && decide (i ≤ s.rxPolls.toNat))
  | .receive, .rxLen => true
  | .receive, .rxData j => s.lengthHeld && decide (1 ≤ j) && decide (j ≤ (s.lenL.getD 0).toNat)
  | .receive, .rxOvr => s.lengthHeld
  | .receive, .rxClr => true
  | .receive, .rxDrainFlag d => decide (1 ≤ d) && decide (d ≤ 65)
  | .receive, .rxDrainRead d => decide (1 ≤ d) && decide (d ≤ 65)
  | .transmit, .txData j => j == 0 || (decide (j < s.flen.toNat) && decide (s.flen.toNat ≤ 66))
  | .transmit, .txPoll i => decide (1 ≤ i) && decide (i ≤ s.config.txPollMax)
  | .encode, .codec => true
  | .decode, .codec => true
  | .illegal rsv m op, .codec => !legalCommand rsv m op
  | _, _ => false

/-- R24, R30: PHASE = IDLE exactly when BUSY = 0, and otherwise PHASE is one of the running command's. -/
def State.sequencerOk (s : State) : Bool :=
  match s.command with
  | none => !s.busy && s.phase == .idle
  | some i => s.busy && s.phaseOf i s.phase

/-- SETMODE's target, by the command that runs (R91). -/
def setmodeTarget : Instr → Option Target
  | .setmodeStandby => some .standby
  | .setmodeTx => some .tx
  | .setmodeRx => some .rx
  | _ => none

/-- What has been established when the sequencer stands at a phase: INIT has cleared INIT_OK and MODE_OK past its first
write (R141); SETMODE polls with INIT_OK = 1, MODE_OK = 0 and MODE at its target (R145); RECEIVE is past its gate with
FLEN = 0 (R160); TRANSMIT is past its gate (R166). -/
def State.phaseGate (s : State) : Bool :=
  let receiving := s.initOk && s.modeOk && s.mode == .rx && s.flen == 0
  let transmitting := s.initOk && s.modeOk && s.mode == .tx
  match s.phase with
  | .initCfg k => k == 0 || (!s.initOk && !s.modeOk)
  | .initVer => !s.initOk && !s.modeOk
  | .smPoll _ => s.initOk && !s.modeOk && (s.command.bind setmodeTarget).map Target.mode == some s.mode
  | .rxPoll i => i == 1 || receiving
  | .rxLen => receiving
  | .rxData _ => receiving
  | .rxOvr => receiving
  | .rxClr => receiving
  | .rxDrainFlag _ => receiving
  | .rxDrainRead _ => receiving
  | .txData j => j == 0 || transmitting
  | .txPoll _ => transmitting
  | _ => true

/-- R28, R29, R75: MODE_OK = 1 only with INIT_OK = 1 and a mode commanded, and each phase stands behind its gate. -/
def State.gateOk (s : State) : Bool := (!s.modeOk || (s.initOk && s.mode != .none)) && s.phaseGate

/-- The machine's invariant: FBUF in canonical form, the sequencer and its gates in order, no parse in progress between
steps (R205: P is no state). -/
def State.Inv (s : State) : Prop :=
  Memory.wf s.fbuf = true ∧ s.sequencerOk = true ∧ s.gateOk = true ∧ s.parser = Parser.empty

/-- One transaction seen by an observer of the bus who asks whether mode-ready has been read set since the last opmode
write (R28, R75). -/
def noteModeReady (c : Config) (seen : Bool) : BusEvent → Bool
  | .write a _ => if a = c.addrOpmode then false else seen
  | .read a v => if a = c.addrIrqflags1 ∧ flagSet v c.mModeready = true then true else seen

/-- The trace shows a mode-ready read after its last opmode write (R28, R75). -/
def modeReadySeen (c : Config) (trace : List BusEvent) : Bool := trace.foldl (noteModeReady c) false

/-- The opmode register has an address of its own, apart from the FIFO and IRQ-flags-2 registers (R61 lists them as
different registers). -/
def opmodeApart (c : Config) : Bool := c.addrOpmode != c.addrFifo && c.addrOpmode != c.addrIrqflags2

/-- MODE_OK = 1 only after the trace has shown mode-ready since the last opmode write (R28). -/
def State.ReadyWitnessed (s : State) : Prop := s.modeOk = true → modeReadySeen s.config s.trace = true

/-- A bound on the controller steps the running command still takes (R38, R291). -/
def State.stepsLeft (s : State) : Nat :=
  match s.phase with
  | .idle => 0
  | .initCfg k => s.config.cfg.entries.length - k + 1
  | .initVer => 1
  | .smWrite => 1 + s.config.modePollMax
  | .smPoll i => s.config.modePollMax - i + 1
  | .rxPoll i => (s.rxPolls.toNat + 1 - i) + 131
  | .rxLen => 131
  | .rxData j => 14 - j + 3
  | .rxOvr => 2
  | .rxClr => 1
  | .rxDrainFlag d => 2 * (65 - d) + 2
  | .rxDrainRead d => 2 * (65 - d) + 1
  | .txData j => s.flen.toNat - j + s.config.txPollMax
  | .txPoll i => s.config.txPollMax - i + 1
  | .codec => 1

/-- R38's bound on the controller steps of one command, without its leading 1 (the acceptance). -/
def State.stepBound (s : State) : Nat :=
  max (s.config.cfg.entries.length + 1)
    (max (1 + s.config.modePollMax) (max (s.rxPolls.toNat + 1 + 130) (max (s.flen.toNat + s.config.txPollMax) 1)))

/-- The width of a register in bits (R23, R31 to R34). -/
def regBits : Reg → Nat
  | .status => 16
  | .rxPolls => 16
  | .flen => 8
  | .fbuf _ => 8
  | .msgMfr => 8
  | .msgProduct => 8
  | .msgPip => 16
  | .msgDevid => 24
  | .msgNrec => 5
  | .recPid _ => 8
  | .recType _ => 8
  | .recVlen _ => 4
  | .recVal _ _ => 8
  | .seqL => 8

/-- The index RECEIVE stores to at a phase (R160: RX_LEN stores FBUF[0], RX_DATA(j) stores FBUF[j]). -/
def receiveStores : Phase → Option Nat
  | .rxLen => some 0
  | .rxData j => some j
  | _ => none

/-- t is s after a host move, `rest` the moves still to come, that writes record register k only: the other records, the other
MSG registers and all else are as before (R34, R39). -/
def State.RecordWritten (s t : State) (rest : List HostMove) (k : Nat) : Prop :=
  { t with msg := s.msg } = { s with host := rest } ∧ { t.msg with recs := s.msg.recs } = s.msg ∧
    ∀ j, j ≠ k → t.msg.recAt j = s.msg.recAt j

/-- Record k passes ENCODE's checks (R216): its PID is not 0x00, its type has a width, and VLEN is that width. -/
def Msg.RecPasses (c : Config) (m : Msg) (k : Nat) : Prop :=
  ∃ pid t vlen, (m.recAt k).pid = some pid ∧ pid ≠ 0 ∧ (m.recAt k).type = some t ∧
    (m.recAt k).vlen = some vlen ∧ width c t = some vlen.toNat

/-- The value bytes of record k that ENCODE reads are written (R216). -/
def Msg.ValsWritten (m : Msg) (k : Nat) : Prop :=
  ∀ b, b < ((m.recAt k).vlen.getD 0).toNat → ∃ v, (m.recAt k).valAt b = some v

/-- The bytes of record k of a message whose registers are written: PID, TYPE, VAL[0 .. VLEN-1] (R215). -/
def Msg.recWire (m : Msg) (k : Nat) : List Byte :=
  (m.recAt k).pid.getD 0 :: (m.recAt k).type.getD 0 ::
    (List.range ((m.recAt k).vlen.getD 0).toNat).map fun b => ((m.recAt k).valAt b).getD 0

/-- The bytes of all records of a message, in index order (R217). -/
def Msg.recsWire (m : Msg) : List Byte := (List.range m.nrec.toNat).flatMap m.recWire

/-- The record bytes PARSE reads back as a record (R99): PID, TYPE, value bytes. -/
def Rec.wire (r : Rec) : List Byte := r.pid :: r.type :: r.val

/-- A record PARSE can return (R99, R197): PID not 0x00, and as many value bytes as its type byte says. -/
def Rec.Valid (c : Config) (r : Rec) : Prop := r.pid ≠ 0 ∧ Machine.width c r.type = some r.width ∧ r.val.length = r.width

end Sys2Proof.Machine
end

