-- ==== Sys2Proof/Certificates/Slice0/Obligations.lean ====
section
/-! DEFINITION. Certificates/Slice0/Obligations.lean: the statements for the provers. -/

open Sys2Proof Sys2Proof.Machine

/-! ### Encodings -/

/-- R91: the eight command bytes, and no other byte is one of the eight commands. -/
def Obligations.CommandBytesExactlyEight : Prop :=
  decodeCommand 0x01 = .init ∧ decodeCommand 0x02 = .setmodeStandby ∧ decodeCommand 0x12 = .setmodeTx ∧
  decodeCommand 0x22 = .setmodeRx ∧ decodeCommand 0x03 = .receive ∧ decodeCommand 0x04 = .transmit ∧
  decodeCommand 0x05 = .encode ∧ decodeCommand 0x06 = .decode ∧
  ∀ c : Byte, c ∉ [0x01, 0x02, 0x12, 0x22, 0x03, 0x04, 0x05, 0x06] →
    ∃ rsv m op, decodeCommand c = .illegal rsv m op

/-- R94, R96, R99, R196: words of the other formats, written out from the spec's encodings of them (0x10 read, 0x81 0x10
written; 0x0C; 0x75, 0x40, 0xF3; 0x00), and words that are no row. -/
def Obligations.RowWordsDecode : Prop :=
  decodeAs .busAddr [0x10] = .ok (.busRead 0x10, []) ∧
  decodeAs .busAddr [0x81, 0x10] = .ok (.busWrite 0x01 0x10, []) ∧
  decodeAs .busAddr [0x40, 0x00] = .error .addressBit6 ∧
  decodeAs .opmodeValue [0x0C] = .ok (.opmodeTx, []) ∧
  decodeAs .opmodeValue [0x08] = .error .notAnOpmode ∧
  decodeAs .recordType [0x75] = .ok (.typeOtChar 0x5, []) ∧
  decodeAs .recordType [0x40] = .ok (.typeOtUint16 0x0, []) ∧
  decodeAs .recordType [0xF3] = .ok (.typeOtFloat 0x3, []) ∧
  decodeAs .recordPid [0x00] = .ok (.recordTerminator, []) ∧
  decodeAs .recordPid [0x73] = .error .notTheTerminator

/-- R92: a byte with RSV != 00, or OP = 0 or OP >= 7, or M != 00 with OP != 2, or OP = 2 with M = 11, is ILLEGAL; its
command is accepted like any other and in its one step performs finish(ILLEGAL_COMMAND) and changes nothing else. -/
def Obligations.IllegalCommandFinishes : Prop :=
  ∀ (c : Byte) (rsv m : BitVec 2) (op : BitVec 4),
    rsv = c.extractLsb' 6 2 → m = c.extractLsb' 4 2 → op = c.extractLsb' 0 4 →
    (rsv ≠ 0 ∨ op = 0 ∨ 7 ≤ op.toNat ∨ (m ≠ 0 ∧ op ≠ 2) ∨ (op = 2 ∧ m = 3)) →
    decodeCommand c = .illegal rsv m op ∧
    (∀ s : State, s.busy = false →
      exec (.illegal rsv m op) s =
        .next { s with
          busy := true, phase := firstPhase (.illegal rsv m op), command := some (.illegal rsv m op) }) ∧
    (∀ s : State, s.Running (.illegal rsv m op) (firstPhase (.illegal rsv m op)) →
      exec (.illegal rsv m op) s =
        .next { s with result := .illegalCommand, busy := false, phase := .idle, command := none })

/-- R90 to R100: the decoder reads back what the encoder writes, for every well-formed row at every operand value, and
whatever the decoder reads is what the encoder writes: no bit is dropped and no two rows of a format overlap. -/
def Obligations.DecodeEncodeAgree : Prop :=
  (∀ (i : Instr) (rest : List Byte), i.wf = true → decodeAs i.format (encode i ++ rest) = .ok (i, rest)) ∧
  (∀ (f : Format) (bs rest : List Byte) (i : Instr), decodeAs f bs = .ok (i, rest) →
    i.wf = true ∧ i.format = f ∧ encode i ++ rest = bs)

/-- R94: the address byte of a write is a | 0x80, that of a read is a & 0x7F = a; then one data byte; bit 6 is 0. -/
def Obligations.BusWireBytes : Prop :=
  ∀ (a : BusAddr) (v : Byte),
    (BusEvent.write a v).wire = [a.setWidth 8 ||| 0x80, v] ∧
    (BusEvent.read a v).wire = [a.setWidth 8 &&& 0x7F, v] ∧ a.setWidth 8 &&& 0x7F = a.setWidth 8 ∧
    (a.setWidth 8 ||| (0x80 : Byte)).getLsbD 7 = true ∧ (a.setWidth 8 ||| (0x80 : Byte)).getLsbD 6 = false ∧
    (a.setWidth 8 : Byte).getLsbD 7 = false ∧ (a.setWidth 8 : Byte).getLsbD 6 = false

/-- R196, R9, R200: WIDTH by the tag T[7:4], for every low nibble, where the configuration keeps the default for that type
byte; a configuration that gives the byte a width of its own gives that width, but never to FLOAT, which is UNSUPPORTED in
every configuration (log entry 12). -/
def Obligations.WidthByTag : Prop :=
  ∀ (c : Config) (low : BitVec 4),
    let w : BitVec 4 → Nat → Option Nat := fun tag n =>
      some (((widthEntry c (typeByte tag low)).map BitVec.toNat).getD n)
    width c (typeByte 0x0 low) = w 0x0 0 ∧ width c (typeByte 0x1 low) = w 0x1 1 ∧ width c (typeByte 0x2 low) = w 0x2 1 ∧
    width c (typeByte 0x3 low) = w 0x3 2 ∧ width c (typeByte 0x4 low) = w 0x4 2 ∧ width c (typeByte 0x5 low) = w 0x5 3 ∧
    width c (typeByte 0x6 low) = w 0x6 3 ∧ width c (typeByte 0x7 low) = w 0x7 low.toNat ∧
    width c (typeByte 0x8 low) = w 0x8 0 ∧ width c (typeByte 0x9 low) = w 0x9 1 ∧ width c (typeByte 0xA low) = w 0xA 2 ∧
    width c (typeByte 0xB low) = w 0xB 3 ∧ width c (typeByte 0xC low) = w 0xC low.toNat ∧
    width c (typeByte 0xD low) = w 0xD low.toNat ∧ width c (typeByte 0xE low) = w 0xE low.toNat ∧
    width c (typeByte 0xF low) = none ∧
    (∀ t, (∀ e ∈ c.widths, e.type ≠ t) → widthEntry c t = none)

/-! ### Reset, STATUS and the host's accesses -/

/-- R40: every field after reset; "unwritten" is the spec's own value (log entry 1). -/
def Obligations.ResetValues : Prop :=
  State.reset.result.code = 0xF ∧ State.reset.busy = false ∧ State.reset.initOk = false ∧
  State.reset.modeOk = false ∧ State.reset.mode.code = 0b11 ∧ State.reset.phase = .idle ∧
  State.reset.idxI = none ∧ State.reset.idxJ = none ∧ State.reset.lenL = none ∧
  State.reset.rxPolls = 0 ∧ State.reset.flen = 0 ∧ (∀ i, Memory.read State.reset.fbuf i = none) ∧
  State.reset.msg.nrec = 0 ∧ State.reset.msg.mfr = none ∧ State.reset.msg.product = none ∧
  State.reset.msg.pip = none ∧ State.reset.msg.devid = none ∧
  (∀ k, (State.reset.msg.recAt k).pid = none ∧ (State.reset.msg.recAt k).type = none ∧
    (State.reset.msg.recAt k).vlen = none ∧ ∀ b, (State.reset.msg.recAt k).valAt b = none)

/-- R270, R271: reset at any time, a running command or not: every field of the block takes its reset value; no bus
transaction is made, and the configuration and the transceiver's answers stay as they are. After it the block is idle and
waits: with no host move to come, a step changes nothing. -/
def Obligations.HostResetAtAnyTime : Prop :=
  (∀ (s : State) (rest : List HostMove), s.config.wf = true → s.host = .reset :: rest →
    step s = .next
      { State.reset with
        config := s.config, host := rest, reads := s.reads, answers := s.answers, draws := s.draws,
        trace := s.trace }) ∧
  (∀ s : State, s.config.wf = true → s.busy = false → s.host = [] → step s = .next s)

/-- R23: STATUS is RESULT [3:0], BUSY [4], INIT_OK [5], MODE_OK [6], 0, MODE [9:8], and zeros, with its reset values; the
host reads it at any time without a side effect, and cannot write it. R240: the code of each result, and that 0xC to 0xE are
no result's code. -/
def Obligations.StatusWord : Prop :=
  (∀ s : State,
    s.status.extractLsb' 0 4 = s.result.code ∧ s.status.getLsbD 4 = s.busy ∧ s.status.getLsbD 5 = s.initOk ∧
    s.status.getLsbD 6 = s.modeOk ∧ s.status.getLsbD 7 = false ∧ s.status.extractLsb' 8 2 = s.mode.code ∧
    s.status.extractLsb' 10 6 = 0) ∧
  Mode.standby.code = 0b00 ∧ Mode.tx.code = 0b01 ∧ Mode.rx.code = 0b10 ∧ Mode.none.code = 0b11 ∧
  State.reset.status = 0x030F ∧
  (ResultCode.ok.code = 0x0 ∧ ResultCode.versionMismatch.code = 0x1 ∧ ResultCode.timeout.code = 0x2 ∧
    ResultCode.badFraming.code = 0x3 ∧ ResultCode.overrun.code = 0x4 ∧ ResultCode.wrongMode.code = 0x5 ∧
    ResultCode.badLength.code = 0x6 ∧ ResultCode.notInitialised.code = 0x7 ∧ ResultCode.checksumFailed.code = 0x8 ∧
    ResultCode.unsupportedType.code = 0x9 ∧ ResultCode.malformedRecord.code = 0xA ∧
    ResultCode.illegalCommand.code = 0xB ∧ ResultCode.none.code = 0xF ∧
    ∀ r : ResultCode, r.code ≠ 0xC ∧ r.code ≠ 0xD ∧ r.code ≠ 0xE) ∧
  (∀ (s : State) (rest : List HostMove), s.config.wf = true → s.host = .read .status :: rest →
    step s = .next { s with host := rest, reads := s.reads ++ [⟨.status, s.status.setWidth 24⟩] }) ∧
  (∀ (s : State) (v : BitVec 24) (rest : List HostMove), s.config.wf = true → s.host = .write .status v :: rest →
    step s = .refused .hostProtocol)

/-- R39, R41, R292: while BUSY = 1 the host has no write of CMD or of a register and no read but of STATUS; while BUSY = 0
it can write RX_POLLS, FLEN, FBUF[0..65] and MSG, that one register taking the value and nothing else changing, and read
FLEN, FBUF and MSG, each giving what it holds and changing nothing, a read of an unwritten one being a fault (a write's
excess bits are dropped: the model's choice, log entry 16). -/
def Obligations.HostAccessOnlyWhileIdle : Prop :=
  (∀ (s : State) (rest : List HostMove), s.config.wf = true → s.busy = true →
    (∀ c, s.host = .cmd c :: rest → step s = .refused .hostProtocol) ∧
    (∀ r v, s.host = .write r v :: rest → step s = .refused .hostProtocol) ∧
    (∀ r, r ≠ .status → s.host = .read r :: rest → step s = .refused .hostProtocol)) ∧
  (∀ (s : State) (rest : List HostMove) (v : BitVec 24), s.config.wf = true → s.busy = false →
    (s.host = .write .rxPolls v :: rest → step s = .next { s with host := rest, rxPolls := v.setWidth 16 }) ∧
    (s.host = .write .flen v :: rest → step s = .next { s with host := rest, flen := v.setWidth 8 }) ∧
    (∀ i, i < 66 → s.host = .write (.fbuf i) v :: rest →
      ∃ t, step s = .next t ∧ { t with fbuf := s.fbuf } = { s with host := rest } ∧
        Memory.read t.fbuf i = some (v.setWidth 8) ∧ ∀ j, j ≠ i → Memory.read t.fbuf j = Memory.read s.fbuf j) ∧
    (s.host = .write .msgMfr v :: rest →
      step s = .next { s with host := rest, msg := { s.msg with mfr := some (v.setWidth 8) } }) ∧
    (s.host = .write .msgProduct v :: rest →
      step s = .next { s with host := rest, msg := { s.msg with product := some (v.setWidth 8) } }) ∧
    (s.host = .write .msgPip v :: rest →
      step s = .next { s with host := rest, msg := { s.msg with pip := some (v.setWidth 16) } }) ∧
    (s.host = .write .msgDevid v :: rest →
      step s = .next { s with host := rest, msg := { s.msg with devid := some v } }) ∧
    (s.host = .write .msgNrec v :: rest →
      step s = .next { s with host := rest, msg := { s.msg with nrec := v.setWidth 5 } }) ∧
    (∀ k, k < 28 →
      let old := s.msg.recAt k
      (s.host = .write (.recPid k) v :: rest →
        ∃ t, step s = .next t ∧ s.RecordWritten t rest k ∧ t.msg.recAt k = { old with pid := some (v.setWidth 8) }) ∧
      (s.host = .write (.recType k) v :: rest →
        ∃ t, step s = .next t ∧ s.RecordWritten t rest k ∧ t.msg.recAt k = { old with type := some (v.setWidth 8) }) ∧
      (s.host = .write (.recVlen k) v :: rest →
        ∃ t, step s = .next t ∧ s.RecordWritten t rest k ∧ t.msg.recAt k = { old with vlen := some (v.setWidth 4) }) ∧
      (∀ b, b < 15 → s.host = .write (.recVal k b) v :: rest →
        ∃ t, step s = .next t ∧ s.RecordWritten t rest k ∧ { t.msg.recAt k with val := old.val } = old ∧
          (t.msg.recAt k).valAt b = some (v.setWidth 8) ∧
          ∀ a, a ≠ b → (t.msg.recAt k).valAt a = old.valAt a))) ∧
  (∀ (s : State) (rest : List HostMove) (r : Reg), s.config.wf = true → s.busy = false → s.host = .read r :: rest →
    let gives : Option (BitVec 24) → Prop := fun v =>
      (∀ x, v = some x → step s = .next { s with host := rest, reads := s.reads ++ [⟨r, x⟩] }) ∧
      (v = none → step s = .fault (.unwritten r))
    (r = .flen → gives (some (s.flen.setWidth 24))) ∧
    (∀ i, i < 66 → r = .fbuf i → gives ((Memory.read s.fbuf i).map (·.setWidth 24))) ∧
    (r = .msgMfr → gives (s.msg.mfr.map (·.setWidth 24))) ∧
    (r = .msgProduct → gives (s.msg.product.map (·.setWidth 24))) ∧
    (r = .msgPip → gives (s.msg.pip.map (·.setWidth 24))) ∧
    (r = .msgDevid → gives s.msg.devid) ∧
    (r = .msgNrec → gives (some (s.msg.nrec.setWidth 24))) ∧
    (∀ k, k < 28 →
      (r = .recPid k → gives ((s.msg.recAt k).pid.map (·.setWidth 24))) ∧
      (r = .recType k → gives ((s.msg.recAt k).type.map (·.setWidth 24))) ∧
      (r = .recVlen k → gives ((s.msg.recAt k).vlen.map (·.setWidth 24))) ∧
      (∀ b, b < 15 → r = .recVal k b → gives (((s.msg.recAt k).valAt b).map (·.setWidth 24)))))

/-- R39, R60, R34: what the host writes to a register while BUSY = 0 is what it reads back, with as many low bits as the
register has (that the excess bits are dropped is the model's choice, log entry 16). -/
def Obligations.HostReadsBackWrites : Prop :=
  ∀ (s t : State) (r : Reg) (v : BitVec 24), r ≠ .rxPolls → s.hostWrite r v = some t →
    ∃ w, t.hostValue r = some (some w) ∧ w.toNat = v.toNat % 2 ^ regBits r

/-! ### One step -/

/-- R22, R90, R13, R30: a command byte the host writes while BUSY = 0 is decoded and run, the write taken off the host's
moves; a running command is stepped, with no host move to come or on a tick or a wait of the host. -/
def Obligations.StepRunsDecodedInstruction : Prop :=
  (∀ (s : State) (c : Byte) (rest : List HostMove), s.config.wf = true → s.busy = false → s.host = .cmd c :: rest →
    step s = exec (decodeCommand c) { s with host := rest }) ∧
  (∀ (s : State) (i : Instr), s.config.wf = true → s.busy = true → s.command = some i →
    (s.host = [] → step s = exec i s) ∧
    (∀ rest, s.host = .wait :: rest → step s = exec i s) ∧
    (∀ rest, s.host = .tick :: rest → step s = exec i { s with host := rest }))

/-- R90, R24: every command is accepted while BUSY = 0: BUSY <- 1, PHASE <- its first phase, nothing else
(that ILLEGAL's is CODEC is the model's choice, log entry 8). -/
def Obligations.CommandAcceptedAtFirstPhase : Prop :=
  (∀ (i : Instr) (s : State), i.format = .cmd → s.busy = false →
    exec i s = .next { s with busy := true, phase := firstPhase i, command := some i }) ∧
  firstPhase .init = .initCfg 0 ∧ firstPhase .setmodeStandby = .smWrite ∧ firstPhase .setmodeTx = .smWrite ∧
  firstPhase .setmodeRx = .smWrite ∧ firstPhase .receive = .rxPoll 1 ∧ firstPhase .transmit = .txData 0 ∧
  firstPhase .encode = .codec ∧ firstPhase .decode = .codec ∧
  ∀ rsv m op, firstPhase (.illegal rsv m op) = .codec

/-- R241: with INIT_OK = 0, SETMODE, RECEIVE and TRANSMIT finish NOT_INITIALISED in their first step, with no bus
transaction and no other change; INIT, ENCODE and DECODE never finish so. -/
def Obligations.InitialisationGate : Prop :=
  (∀ (i : Instr) (s : State),
    i = .setmodeStandby ∨ i = .setmodeTx ∨ i = .setmodeRx ∨ i = .receive ∨ i = .transmit →
    s.Running i (firstPhase i) → s.initOk = false →
    exec i s = .next { s with result := .notInitialised, busy := false, phase := .idle, command := none }) ∧
  (∀ (i : Instr) (s t : State), i = .init ∨ i = .encode ∨ i = .decode →
    s.busy = true → exec i s = .next t → t.busy = false → t.result ≠ .notInitialised)

/-! ### The bus transactions and the opmode values -/

/-- R130, R131, R5: a bus read records `R a v` for the transceiver's next answer v and uses that answer up; a bus write
records `W a v`; neither changes anything else. -/
def Obligations.BusTransactions : Prop :=
  ∀ (s : State) (a : BusAddr) (v : Byte),
    exec (.busRead a) s =
      .next { s with
        answers := s.answers.tail, draws := s.draws + 1, trace := s.trace ++ [.read a (s.answerAt 0)] } ∧
    exec (.busWrite a v) s = .next { s with trace := s.trace ++ [.write a v] }

/-- R96, R27, R145: the opmode write puts the whole byte 0x04, 0x0C or 0x10 into ADDR_OPMODE, sets MODE to the target and
clears MODE_OK; nothing else changes. -/
def Obligations.OpmodeWrites : Prop :=
  ∀ s : State,
    exec .opmodeStandby s =
      .next { s with
        modeOk := false, mode := .standby, trace := s.trace ++ [.write s.config.addrOpmode 0x04] } ∧
    exec .opmodeTx s =
      .next { s with modeOk := false, mode := .tx, trace := s.trace ++ [.write s.config.addrOpmode 0x0C] } ∧
    exec .opmodeRx s =
      .next { s with modeOk := false, mode := .rx, trace := s.trace ++ [.write s.config.addrOpmode 0x10] }

/-! ### INIT -/

/-- R141, R142: the version step reads ADDR_VERSION and compares the whole byte with 36: INIT_OK <- 1 and OK, or
VERSION_MISMATCH. -/
def Obligations.InitVersionDecides : Prop :=
  ∀ s : State, s.Running .init .initVer →
    exec .init s = .next
      { s with
        answers := s.answers.tail, draws := s.draws + 1,
        trace := s.trace ++ [.read s.config.addrVersion (s.answerAt 0)],
        initOk := s.initOk || s.answerAt 0 == 36,
        result := if s.answerAt 0 = 36 then .ok else .versionMismatch,
        busy := false, phase := .idle, command := none }

/-- R141, R143: the whole of INIT from its first phase, for every configuration and every transceiver: |CFG| writes in
CFG's order, then one read, INIT_OK and RESULT by the version byte, MODE_OK = 0, MODE unchanged, nothing else. -/
def Obligations.InitWritesProgramThenReadsVersion : Prop :=
  ∀ s : State, s.config.wf = true → s.Running .init (.initCfg 0) → s.host = [] →
    Host.Core.run core (s.config.cfg.entries.length + 1) s = .next
      { s with
        initOk := s.answerAt 0 == 36, modeOk := false,
        result := if s.answerAt 0 = 36 then .ok else .versionMismatch,
        busy := false, phase := .idle, command := none,
        answers := s.answers.tail, draws := s.draws + 1,
        trace := s.trace ++ s.config.cfg.entries.map (fun e => .write (e.addr.setWidth 6) e.value) ++
          [.read s.config.addrVersion (s.answerAt 0)] }

/-- R140, R66, R72: the register program has 17 + n entries, at most 25 and each with an address up to 0x3F in a well-formed
configuration, and every position holds the entry of its role, frequency deviation and carrier frequency most significant
register first. -/
def Obligations.RegisterProgramLength : Prop :=
  ∀ c : Config,
    let p := c.cfg
    let n := p.sync.length
    p.entries.length = 17 + n ∧
    (c.wf = true → p.entries.length ≤ 25 ∧ ∀ e ∈ p.entries, e.addr.toNat ≤ 0x3F) ∧
    (p.entries[0]? = some p.dataModulation ∧ p.entries[1]? = some p.fdevMsb ∧ p.entries[2]? = some p.fdevLsb ∧
      p.entries[3]? = some p.frfMsb ∧ p.entries[4]? = some p.frfMid ∧ p.entries[5]? = some p.frfLsb ∧
      p.entries[6]? = some p.afcControl ∧ p.entries[7]? = some p.lna ∧ p.entries[8]? = some p.rxBandwidth ∧
      p.entries[9]? = some p.afcFei ∧ p.entries[10]? = some p.rssiThreshold ∧
      p.entries[11]? = some p.preambleLsb ∧ p.entries[12]? = some p.syncConfig) ∧
    (∀ j, j < n → p.entries[13 + j]? = p.sync[j]?) ∧
    p.entries[13 + n]? = some p.packetConfig1 ∧ p.entries[14 + n]? = some p.payloadLength ∧
    p.entries[15 + n]? = some p.nodeAddress ∧ p.entries[16 + n]? = some p.fifoThreshold

/-! ### SETMODE -/

/-- R145, R146, R147: SETMODE's write step, and one mode-ready poll: the first set flag ends with MODE_OK <- 1 and OK, the
MODE_POLL_MAX-th clear one with TIMEOUT, any other goes on (that I is written with the poll is the model's choice,
log entry 13). -/
def Obligations.SetmodeSteps : Prop :=
  ∀ (i : Instr) (m : Target) (s : State), setmodeTarget i = some m →
    (s.Running i .smWrite → s.initOk = true →
      exec i s = .next
        { s with
          modeOk := false, mode := m.mode, phase := .smPoll 1,
          trace := s.trace ++ [.write s.config.addrOpmode (opmodeVal m)] }) ∧
    (∀ n, s.Running i (.smPoll n) →
      ∃ t, exec i s = .next t ∧
        { t with result := s.result, busy := s.busy, phase := s.phase, command := s.command, modeOk := s.modeOk } =
          { s with
            idxI := some n, answers := s.answers.tail, draws := s.draws + 1,
            trace := s.trace ++ [.read s.config.addrIrqflags1 (s.answerAt 0)] } ∧
        if (s.answerAt 0 &&& s.config.mModeready) ≠ 0 then
          t.modeOk = true ∧ t.result = .ok ∧ t.busy = false ∧ t.phase = .idle ∧ t.command = none
        else if n < s.config.modePollMax then
          t.modeOk = s.modeOk ∧ t.result = s.result ∧ t.busy = true ∧ t.phase = .smPoll (n + 1) ∧ t.command = some i
        else t.modeOk = s.modeOk ∧ t.result = .timeout ∧ t.busy = false ∧ t.phase = .idle ∧ t.command = none)

/-- R145, R147, R148: the whole of SETMODE from its first phase with INIT_OK = 1, from any MODE: one opmode write, then k
reads of ADDR_IRQFLAGS1, the k-th the first with mode-ready set, and OK; or MODE_POLL_MAX reads, all clear, and TIMEOUT with
MODE at the target and MODE_OK = 0. With INIT_OK = 0, NOT_INITIALISED and nothing else. Of I nothing is said (R25). -/
def Obligations.SetmodeWholeCommand : Prop :=
  ∀ (i : Instr) (m : Target) (s : State), setmodeTarget i = some m → s.config.wf = true →
    s.Running i .smWrite → s.host = [] →
    (s.initOk = false →
      Host.Core.run core 1 s =
        .next { s with result := .notInitialised, busy := false, phase := .idle, command := none }) ∧
    (∀ k, s.initOk = true → 1 ≤ k → k ≤ s.config.modePollMax →
      (∀ j, j < k - 1 → (s.answerAt j &&& s.config.mModeready) = 0) →
      ((s.answerAt (k - 1) &&& s.config.mModeready) ≠ 0 ∨ k = s.config.modePollMax) →
      ∃ idx, Host.Core.run core (1 + k) s = .next
        { s with
          mode := m.mode, modeOk := decide ((s.answerAt (k - 1) &&& s.config.mModeready) ≠ 0),
          result := if (s.answerAt (k - 1) &&& s.config.mModeready) ≠ 0 then .ok else .timeout,
          idxI := idx, busy := false, phase := .idle, command := none,
          answers := s.answers.drop k, draws := s.draws + k,
          trace := s.trace ++ .write s.config.addrOpmode (opmodeVal m) ::
            (List.range k).map fun j => .read s.config.addrIrqflags1 (s.answerAt j) })

/-! ### RECEIVE -/

/-- R160, R244: with INIT_OK = 1, MODE not RX or MODE_OK = 0 finishes RECEIVE with WRONG_MODE in its first step, with no
bus transaction and nothing else changed (FLEN too). R161: with RX_POLLS = 0 RECEIVE makes no transaction, clears FLEN and finishes TIMEOUT; otherwise a poll reads
ADDR_IRQFLAGS2 once and tests M_PAYLOADRDY alone: the first set flag ends the polls, the RX_POLLS-th clear one is TIMEOUT
(that I is written with the poll is the model's choice, log entry 13). -/
def Obligations.ReceiveGateAndPolls : Prop :=
  (∀ s : State, s.Running .receive (.rxPoll 1) → s.initOk = true → (s.mode ≠ .rx ∨ s.modeOk = false) →
    exec .receive s = .next { s with result := .wrongMode, busy := false, phase := .idle, command := none }) ∧
  (∀ s : State, s.Running .receive (.rxPoll 1) → s.initOk = true → s.mode = .rx → s.modeOk = true → s.rxPolls = 0 →
    exec .receive s =
      .next { s with flen := 0, result := .timeout, busy := false, phase := .idle, command := none }) ∧
  (∀ (s : State) (n : Nat), s.Running .receive (.rxPoll n) →
    (n = 1 → s.initOk = true ∧ s.mode = .rx ∧ s.modeOk = true ∧ s.rxPolls ≠ 0) →
    ∃ t, exec .receive s = .next t ∧
      { t with result := s.result, busy := s.busy, phase := s.phase, command := s.command } =
        { s with
          flen := if n = 1 then 0 else s.flen,
          idxI := some n, answers := s.answers.tail, draws := s.draws + 1,
          trace := s.trace ++ [.read s.config.addrIrqflags2 (s.answerAt 0)] } ∧
      if (s.answerAt 0 &&& s.config.mPayloadrdy) ≠ 0 then
        t.result = s.result ∧ t.busy = true ∧ t.phase = .rxLen ∧ t.command = some .receive
      else if n < s.rxPolls.toNat then
        t.result = s.result ∧ t.busy = true ∧ t.phase = .rxPoll (n + 1) ∧ t.command = some .receive
      else t.result = .timeout ∧ t.busy = false ∧ t.phase = .idle ∧ t.command = none)

/-- R162, R98: the length byte L is read from ADDR_FIFO into FBUF[0] and L; the frame is read on exactly when
13 <= L + 1 <= 15, that is L in 12, 13, 14, and drained otherwise; L = 0xFF is 256 and rejected. -/
def Obligations.ReceiveFramingBound : Prop :=
  ∀ s : State, s.Running .receive .rxLen →
    ∃ t, exec .receive s = .next t ∧
      { t with fbuf := s.fbuf } =
        { s with
          lenL := some (s.answerAt 0), answers := s.answers.tail, draws := s.draws + 1,
          trace := s.trace ++ [.read s.config.addrFifo (s.answerAt 0)],
          phase := if 13 ≤ (s.answerAt 0).toNat + 1 ∧ (s.answerAt 0).toNat + 1 ≤ 15 then .rxData 1
            else .rxDrainFlag 1 } ∧
      (∀ j, Memory.read t.fbuf j = if j = 0 then some (s.answerAt 0) else Memory.read s.fbuf j) ∧
      (t.phase = .rxData 1 ↔ s.answerAt 0 = 12 ∨ s.answerAt 0 = 13 ∨ s.answerAt 0 = 14)

/-- R163: the drain reads FIFO-not-empty; clear, it finishes BAD_FRAMING; set, it reads one FIFO byte and discards it, and
goes on, at most 65 times. FBUF and FLEN are not written. -/
def Obligations.DrainDiscardsAtMost65 : Prop :=
  (∀ (s : State) (d : Nat), s.Running .receive (.rxDrainFlag d) →
    exec .receive s = .next
      (if (s.answerAt 0 &&& s.config.mFifonotempty) ≠ 0 then
        { s.busRead s.config.addrIrqflags2 with phase := .rxDrainRead d }
      else
        { s.busRead s.config.addrIrqflags2 with
          result := .badFraming, busy := false, phase := .idle, command := none })) ∧
  (∀ (s : State) (d : Nat), s.Running .receive (.rxDrainRead d) →
    exec .receive s = .next
      (if d < 65 then { s.busRead s.config.addrFifo with phase := .rxDrainFlag (d + 1) }
      else
        { s.busRead s.config.addrFifo with
          result := .badFraming, busy := false, phase := .idle, command := none }))

/-- R164: RX_DATA(j) reads one byte from ADDR_FIFO into FBUF[j], no flag read beside it; after the L-th the overrun check
follows (that J is written with the read is the model's choice, log entry 13). -/
def Obligations.ReceiveDataIntoFrameBuffer : Prop :=
  ∀ (s : State) (j : Nat) (l : Byte), s.Running .receive (.rxData j) → 1 ≤ j → j ≤ 14 → s.lenL = some l →
    ∃ t, exec .receive s = .next t ∧
      { t with fbuf := s.fbuf } =
        { s with
          idxJ := some j, answers := s.answers.tail, draws := s.draws + 1,
          trace := s.trace ++ [.read s.config.addrFifo (s.answerAt 0)],
          phase := if j < l.toNat then .rxData (j + 1) else .rxOvr } ∧
      ∀ a, Memory.read t.fbuf a = if a = j then some (s.answerAt 0) else Memory.read s.fbuf a

/-- R165: after the data the flags are read once: overrun clear, FLEN <- L + 1 and OK; overrun set, OVERRUN with FLEN as it
is, after a write of M_FIFOOVERRUN to ADDR_IRQFLAGS2 when OVR_CLEAR = W1C, without a write when it is NONE. -/
def Obligations.ReceiveOverrunCheck : Prop :=
  (∀ (s : State) (l : Byte), s.Running .receive .rxOvr → s.lenL = some l →
    exec .receive s = .next
      (if (s.answerAt 0 &&& s.config.mFifooverrun) = 0 then
        { s.busRead s.config.addrIrqflags2 with
          flen := BitVec.ofNat 8 (l.toNat + 1), result := .ok, busy := false, phase := .idle, command := none }
      else if s.config.ovrClear = .w1c then { s.busRead s.config.addrIrqflags2 with phase := .rxClr }
      else
        { s.busRead s.config.addrIrqflags2 with
          result := .overrun, busy := false, phase := .idle, command := none })) ∧
  (∀ s : State, s.Running .receive .rxClr →
    exec .receive s = .next
      { s with
        trace := s.trace ++ [.write s.config.addrIrqflags2 s.config.mFifooverrun],
        result := .overrun, busy := false, phase := .idle, command := none })

/-- R160, R291: the whole of a good RECEIVE from its first phase, for every configuration and transceiver: p polls, the
p-th the first with payload-ready, the length byte L, L data bytes, the flags without overrun. In p + 1 + L + 1 steps FLEN is
L + 1, FBUF[0..L] holds L and the data bytes in order, every other byte of FBUF is as before, RESULT is OK, and the trace is
exactly those reads (the values of I and J are the model's choice, log entry 13). -/
def Obligations.ReceiveGoodFrame : Prop :=
  ∀ (s : State) (p l : Nat), s.config.wf = true → s.Running .receive (.rxPoll 1) → s.host = [] →
    s.initOk = true → s.mode = .rx → s.modeOk = true → 1 ≤ p → p ≤ s.rxPolls.toNat →
    (∀ j, j < p - 1 → (s.answerAt j &&& s.config.mPayloadrdy) = 0) →
    (s.answerAt (p - 1) &&& s.config.mPayloadrdy) ≠ 0 →
    (s.answerAt p).toNat = l → 12 ≤ l → l ≤ 14 →
    (s.answerAt (p + 1 + l) &&& s.config.mFifooverrun) = 0 →
    ∃ t, Host.Core.run core (p + 1 + l + 1) s = .next t ∧
      { t with fbuf := s.fbuf } =
        { s with
          flen := BitVec.ofNat 8 (l + 1), result := .ok, busy := false, phase := .idle, command := none,
          idxI := some p, idxJ := some l, lenL := some (s.answerAt p),
          answers := s.answers.drop (p + 1 + l + 1), draws := s.draws + (p + 1 + l + 1),
          trace := s.trace ++
            (List.range p).map (fun j => .read s.config.addrIrqflags2 (s.answerAt j)) ++
            (List.range (l + 1)).map (fun j => .read s.config.addrFifo (s.answerAt (p + j))) ++
            [.read s.config.addrIrqflags2 (s.answerAt (p + 1 + l))] } ∧
      ∀ a, Memory.read t.fbuf a = if a ≤ l then some (s.answerAt (p + a)) else Memory.read s.fbuf a

/-! ### TRANSMIT -/

/-- R167, R166: TRANSMIT's preconditions in their order, INIT_OK, then MODE = TX and MODE_OK = 1, then 1 <= FLEN <= 66; the
first that fails finishes the command with no bus transaction and nothing else changed. FLEN = 66 is accepted, FLEN = 67 and
FLEN = 0 are BAD_LENGTH. Past the checks the first FIFO write is made. -/
def Obligations.TransmitPreconditions : Prop :=
  ∀ s : State, s.Running .transmit (.txData 0) →
    (s.initOk = false →
      exec .transmit s =
        .next { s with result := .notInitialised, busy := false, phase := .idle, command := none }) ∧
    (s.initOk = true → (s.mode ≠ .tx ∨ s.modeOk = false) →
      exec .transmit s = .next { s with result := .wrongMode, busy := false, phase := .idle, command := none }) ∧
    (s.initOk = true → s.mode = .tx → s.modeOk = true → (s.flen = 0 ∨ 66 < s.flen.toNat) →
      exec .transmit s = .next { s with result := .badLength, busy := false, phase := .idle, command := none }) ∧
    (∀ b, s.initOk = true → s.mode = .tx → s.modeOk = true → 1 ≤ s.flen.toNat → s.flen.toNat ≤ 66 →
      Memory.read s.fbuf 0 = some b →
      ∃ t, exec .transmit s = .next t ∧ t.busy = true ∧ t.trace = s.trace ++ [.write s.config.addrFifo b])

/-- R168, R41: TX_DATA(j) writes FBUF[j] to ADDR_FIFO, whatever the bytes are, and goes to the next index or, after
FBUF[FLEN-1], to the packet-sent poll; FBUF[j] unwritten is the model fault
(that J is written with the byte is the model's choice, log entry 13). -/
def Obligations.TransmitLoadsFifo : Prop :=
  ∀ (s : State) (j : Nat), s.Running .transmit (.txData j) →
    (j = 0 → s.initOk = true ∧ s.mode = .tx ∧ s.modeOk = true ∧ s.flen ≠ 0 ∧ s.flen.toNat ≤ 66) →
    (∀ b, Memory.read s.fbuf j = some b →
      exec .transmit s = .next
        { s with
          idxJ := some j, trace := s.trace ++ [.write s.config.addrFifo b],
          phase := if j + 1 < s.flen.toNat then .txData (j + 1) else .txPoll 1 }) ∧
    (Memory.read s.fbuf j = none → exec .transmit s = .fault (.unwritten (.fbuf j)))

/-- R169: a packet-sent poll reads ADDR_IRQFLAGS2 once and tests M_PACKETSENT alone: the first set flag finishes OK, the
TX_POLL_MAX-th clear one TIMEOUT; no mode change, no FIFO access. Of I nothing is said
(R25). -/
def Obligations.TransmitPolls : Prop :=
  ∀ (s : State) (n : Nat), s.Running .transmit (.txPoll n) →
    ∃ t, exec .transmit s = .next t ∧
      { t with result := s.result, busy := s.busy, phase := s.phase, command := s.command, idxI := s.idxI } =
        { s with
          answers := s.answers.tail, draws := s.draws + 1,
          trace := s.trace ++ [.read s.config.addrIrqflags2 (s.answerAt 0)] } ∧
      if (s.answerAt 0 &&& s.config.mPacketsent) ≠ 0 then
        t.result = .ok ∧ t.busy = false ∧ t.phase = .idle ∧ t.command = none
      else if n < s.config.txPollMax then
        t.result = s.result ∧ t.busy = true ∧ t.phase = .txPoll (n + 1) ∧ t.command = some .transmit
      else t.result = .timeout ∧ t.busy = false ∧ t.phase = .idle ∧ t.command = none

/-- R166, R168, R169, R291: the whole of TRANSMIT from its first phase behind its gates, with FBUF[0..FLEN-1] = bs written: FLEN
FIFO writes in index order, then k reads of ADDR_IRQFLAGS2, the k-th the first with packet-sent set (OK) or the TX_POLL_MAX-th
(TIMEOUT); FBUF, FLEN, MODE and MODE_OK as before. Of I and J nothing is said (R25). -/
def Obligations.TransmitWholeCommand : Prop :=
  ∀ (s : State) (bs : List Byte) (k : Nat), s.config.wf = true → s.Running .transmit (.txData 0) → s.host = [] →
    s.initOk = true → s.mode = .tx → s.modeOk = true → 1 ≤ s.flen.toNat → s.flen.toNat ≤ 66 →
    bs.length = s.flen.toNat → (∀ j, j < bs.length → Memory.read s.fbuf j = bs[j]?) →
    1 ≤ k → k ≤ s.config.txPollMax →
    (∀ j, j < k - 1 → (s.answerAt j &&& s.config.mPacketsent) = 0) →
    ((s.answerAt (k - 1) &&& s.config.mPacketsent) ≠ 0 ∨ k = s.config.txPollMax) →
    ∃ idxI idxJ, Host.Core.run core (s.flen.toNat + k) s = .next
      { s with
        result := if (s.answerAt (k - 1) &&& s.config.mPacketsent) ≠ 0 then .ok else .timeout,
        idxI := idxI, idxJ := idxJ, busy := false, phase := .idle, command := none,
        answers := s.answers.drop k, draws := s.draws + k,
        trace := s.trace ++ bs.map (fun b => .write s.config.addrFifo b) ++
          (List.range k).map fun j => .read s.config.addrIrqflags2 (s.answerAt j) }

/-! ### The codec's functions -/

/-- R194: XCRYPT is its own inverse, for every keystream, byte sequence, length and seed, and it never changes offset 2, from which the
seed is formed. -/
def Obligations.XcryptIsInvolution : Prop :=
  ∀ (c : Config) (x : List Byte) (n : Nat) (s : BitVec 16),
    xcrypt c (xcrypt c x n s) n s = x ∧ (xcrypt c x n s).length = x.length ∧ (xcrypt c x n s)[2]? = x[2]?

/-- R192, R193: offset i of the transform is X[i] ^ KS(s, i - 3) for 3 <= i <= N-2 and X[i] otherwise. -/
def Obligations.XcryptCoversOffsets3ToNminus2 : Prop :=
  ∀ (c : Config) (x : List Byte) (n : Nat) (s : BitVec 16) (i : Nat) (b : Byte), x[i]? = some b →
    (xcrypt c x n s)[i]? = some (if 3 ≤ i ∧ i ≤ n - 2 ∧ 2 ≤ n then b ^^^ keystream c s (i - 3) else b)

/-- R190, R191, R9: where the configuration keeps the defaults, SEED(p) = 0xF2 || p, and KS(s, k + 1) is the low byte, XORed
with 0x5A, five STEPs on from KS(s, k)'s register; the default keystream of SEED(0x02) begins F3 C9 5B 8B (V-KS-2). -/
def Obligations.KeystreamGenerator : Prop :=
  (∀ (c : Config) (p : Byte), (∀ e ∈ c.seeds, e.product ≠ p) → seed c p = (0xF2#8 ++ p)) ∧
  (∀ r : BitVec 16,
    keystreamStep r = if r.getLsbD 0 then (r >>> 1) ^^^ 0xF5F5 else r >>> 1) ∧
  (∀ (s : BitVec 16) (k : Nat),
    (∀ c : Config, (∀ e ∈ c.ks, ¬ (e.seed = s ∧ e.index = k)) →
      keystream c s k ^^^ 0x5A = (keystreamSteps (5 * (k + 1)) s).setWidth 8) ∧
    keystreamSteps (5 * (k + 1 + 1)) s = keystreamSteps 5 (keystreamSteps (5 * (k + 1)) s)) ∧
  (List.range 4).map (defaultKeystream (defaultSeed 0x02)) = [0xF3, 0xC9, 0x5B, 0x8B]

/-! ### The record rows and PARSE -/

/-- R196, R197, R199, R200: while a parse runs, each record type byte takes WIDTH value bytes (its default, or what the
configuration puts in its place), appends the record with its
PID, type byte, width and value bytes, and moves on by 2 + WIDTH; a value that would reach the checksum is
MALFORMED_RECORD; FLOAT is UNSUPPORTED_TYPE. Nothing outside the parse changes, and once a parse has returned a type byte
changes nothing. -/
def Obligations.RecordTypeRows : Prop :=
  ∀ (s : State) (low : BitVec 4),
    let p := s.parser
    let take : BitVec 4 → Nat → State := fun tag n =>
      let w := ((widthEntry s.config (typeByte tag low)).map BitVec.toNat).getD n
      if p.stop < p.pos + 2 + w then { s with parser := { p with status := .failed .malformedRecord } }
      else
        { s with
          parser := { p with
            recs := p.recs ++ [⟨p.plain.getD p.pos 0, typeByte tag low, w, (p.plain.drop (p.pos + 2)).take w⟩]
            pos := p.pos + 2 + w } }
    (p.status = .running →
      exec (.typeOtUint low) s = .next (take 0x0 0) ∧ exec (.typeOtUint4 low) s = .next (take 0x1 1) ∧
      exec (.typeOtUint8 low) s = .next (take 0x2 1) ∧ exec (.typeOtUint12 low) s = .next (take 0x3 2) ∧
      exec (.typeOtUint16 low) s = .next (take 0x4 2) ∧ exec (.typeOtUint20 low) s = .next (take 0x5 3) ∧
      exec (.typeOtUint24 low) s = .next (take 0x6 3) ∧ exec (.typeOtChar low) s = .next (take 0x7 low.toNat) ∧
      exec (.typeOtSint low) s = .next (take 0x8 0) ∧ exec (.typeOtSint8 low) s = .next (take 0x9 1) ∧
      exec (.typeOtSint16 low) s = .next (take 0xA 2) ∧ exec (.typeOtSint24 low) s = .next (take 0xB 3) ∧
      exec (.typeUnnamedC low) s = .next (take 0xC low.toNat) ∧
      exec (.typeUnnamedD low) s = .next (take 0xD low.toNat) ∧
      exec (.typeUnnamedE low) s = .next (take 0xE low.toNat) ∧
      exec (.typeOtFloat low) s = .next { s with parser := { p with status := .failed .unsupportedType } }) ∧
    (p.status ≠ .running → ∀ i : Instr, i.format = .recordType → exec i s = .next s)

/-- R197, R99: while a parse runs, the terminator ends it when it is the last byte before the checksum, and is
MALFORMED_RECORD otherwise. -/
def Obligations.RecordTerminatorEndsParse : Prop :=
  ∀ s : State, s.parser.status = .running →
    exec .recordTerminator s = .next
      { s with
        parser := { s.parser with
          status := if s.parser.pos + 1 = s.parser.stop then .done else .failed .malformedRecord } }

/-- R197: a turn of PARSE's loop decodes what stands at its position and is that row's meaning: nothing left, it returns;
a 0x00, the terminator; another PID with no type byte after it, MALFORMED_RECORD; else the type byte's row. -/
def Obligations.ParseTurnRunsDecodedRow : Prop :=
  ∀ s : State, s.parser.status = .running →
    (s.parser.stop ≤ s.parser.pos → s.parser.next s.config = { s.parser with status := .done }) ∧
    (s.parser.pos < s.parser.stop → ∀ pid : Byte, s.parser.plain[s.parser.pos]? = some pid →
      (∀ i, decodePid pid = .ok i → exec i s = .next { s with parser := s.parser.next s.config }) ∧
      (∀ e, decodePid pid = .error e →
        (s.parser.stop = s.parser.pos + 1 →
          s.parser.next s.config = { s.parser with status := .failed .malformedRecord }) ∧
        (s.parser.pos + 1 < s.parser.stop → ∀ t : Byte, s.parser.plain[s.parser.pos + 1]? = some t →
          exec (decodeType t) s = .next { s with parser := s.parser.next s.config })))

/-- R197, R198, R99, R103: PARSE of a frame whose bytes from offset 8 to its checksum are the wire bytes of valid records,
with or without the terminator after them, returns exactly those records in order; with any further byte after the terminator
it returns MALFORMED_RECORD. -/
def Obligations.ParseReadsBackRecords : Prop :=
  ∀ (c : Config) (head tail : List Byte) (recs : List Rec) (sum : Byte), head.length = 8 →
    (∀ r ∈ recs, r.Valid c) →
    let body := recs.flatMap Rec.wire
    let parse : List Byte → Parser := fun p => (Parser.start p p.length).run c p.length
    ((parse (head ++ body ++ [sum])).status = .done ∧ (parse (head ++ body ++ [sum])).recs = recs) ∧
    ((parse (head ++ body ++ [0, sum])).status = .done ∧ (parse (head ++ body ++ [0, sum])).recs = recs) ∧
    (tail ≠ [] → (parse (head ++ body ++ [0] ++ tail ++ [sum])).status = .failed .malformedRecord)

/-! ### ENCODE -/

/-- R215, R216: ENCODE's checks in their order, the first failure deciding: MSG_NREC > 28; then, for the first record that
does not pass, its PID 0x00, its type without a width, its VLEN not that width (an unwritten one is the model fault); then
the frame longer than 66. FBUF and FLEN are unchanged. -/
def Obligations.EncodeChecksInOrder : Prop :=
  ∀ s : State, s.Running .encode .codec →
    let fin : ResultCode → State := fun c => { s with result := c, busy := false, phase := .idle, command := none }
    (28 < s.msg.nrec.toNat → exec .encode s = .next (fin .malformedRecord)) ∧
    (s.msg.nrec.toNat ≤ 28 →
      (∀ k, k < s.msg.nrec.toNat → (∀ j, j < k → s.msg.RecPasses s.config j) →
        let r := s.msg.recAt k
        (r.pid = none → exec .encode s = .fault (.unwritten (.recPid k))) ∧
        (r.pid = some 0 → exec .encode s = .next (fin .malformedRecord)) ∧
        (∀ pid, r.pid = some pid → pid ≠ 0 →
          (r.type = none → exec .encode s = .fault (.unwritten (.recType k))) ∧
          (∀ t, r.type = some t →
            (width s.config t = none → exec .encode s = .next (fin .unsupportedType)) ∧
            (∀ w, width s.config t = some w →
              (r.vlen = none → exec .encode s = .fault (.unwritten (.recVlen k))) ∧
              (∀ v, r.vlen = some v → v.toNat ≠ w → exec .encode s = .next (fin .malformedRecord)))))) ∧
      ((∀ k, k < s.msg.nrec.toNat → s.msg.RecPasses s.config k) →
        66 < 10 + ((List.range s.msg.nrec.toNat).map fun k => 2 + ((s.msg.recAt k).vlen.getD 0).toNat).sum →
        exec .encode s = .next (fin .badLength)))

/-- R215, R217, R218, R97, R195: when the checks pass and the registers are written, ENCODE finishes OK with a frame F of
N = 10 + the records' lengths bytes in FBUF[0..N-1] and FLEN = N: F[0] = N - 1, F[N-1] is the sum mod 256 of F[1..N-2], and
decrypted with the seed of MSG_PRODUCT it is the header, most significant bytes first, the records in index order, and one
terminator. Every other byte of FBUF, MSG and all else is unchanged. -/
def Obligations.EncodeBuildsFrame : Prop :=
  ∀ (s : State) (mfr product : Byte) (pip : BitVec 16) (devid : BitVec 24), s.Running .encode .codec →
    s.msg.nrec.toNat ≤ 28 → (∀ k, k < s.msg.nrec.toNat → s.msg.RecPasses s.config k ∧ s.msg.ValsWritten k) →
    10 + s.msg.recsWire.length ≤ 66 →
    s.msg.mfr = some mfr → s.msg.product = some product → s.msg.pip = some pip → s.msg.devid = some devid →
    ∃ (t : State) (f : List Byte), exec .encode s = .next t ∧
      f.length = 10 + s.msg.recsWire.length ∧
      { t with fbuf := s.fbuf } =
        { s with
          flen := BitVec.ofNat 8 f.length, result := .ok, busy := false, phase := .idle, command := none } ∧
      (∀ a, Memory.read t.fbuf a = if a < f.length then f[a]? else Memory.read s.fbuf a) ∧
      xcrypt s.config f f.length (seed s.config product) =
        BitVec.ofNat 8 (f.length - 1) :: mfr :: product ::
          pip.extractLsb' 8 8 :: pip.extractLsb' 0 8 ::
          devid.extractLsb' 16 8 :: devid.extractLsb' 8 8 :: devid.extractLsb' 0 8 ::
          (s.msg.recsWire ++ [0, f.getD (f.length - 1) 0]) ∧
      f.getD (f.length - 1) 0 = ((f.take (f.length - 1)).drop 1).foldl (· + ·) 0

/-! ### DECODE -/

/-- R206: DECODE needs 9 <= FLEN <= 66 and FBUF[0] = FLEN - 1, else MALFORMED_RECORD and nothing else changes; with the
length out of range not even FBUF[0] is read (the model's choice, log entry 14). -/
def Obligations.DecodeLengthCheck : Prop :=
  ∀ s : State, s.Running .decode .codec →
    (s.flen.toNat < 9 ∨ 66 < s.flen.toNat ∨
      ∃ l, Memory.read s.fbuf 0 = some l ∧ l.toNat ≠ s.flen.toNat - 1) →
    exec .decode s = .next { s with result := .malformedRecord, busy := false, phase := .idle, command := none }

/-- R208: a frame that passes the length check and whose checksum byte is not the sum mod 256 of bytes 1 to N-2 finishes
CHECKSUM_FAILED, whatever its records; so does every frame with a right checksum after one bit of one byte at offsets 1 to
N-1 is flipped. -/
def Obligations.DecodeChecksumFirst : Prop :=
  ∀ (s : State) (f : List Byte), s.Running .decode .codec →
    9 ≤ f.length → f.length ≤ 66 → s.flen.toNat = f.length → f[0]? = some (BitVec.ofNat 8 (f.length - 1)) →
    (∀ j, j < f.length → Memory.read s.fbuf j = f[j]?) →
    (f.getD (f.length - 1) 0 ≠ ((f.take (f.length - 1)).drop 1).foldl (· + ·) 0 →
      exec .decode s =
        .next { s with result := .checksumFailed, busy := false, phase := .idle, command := none }) ∧
    (f.getD (f.length - 1) 0 = ((f.take (f.length - 1)).drop 1).foldl (· + ·) 0 →
      ∀ i b, 1 ≤ i → i < f.length → b < 8 →
        let s' := s.setFbuf i (f.getD i 0 ^^^ BitVec.twoPow 8 b)
        exec .decode s' =
          .next { s' with result := .checksumFailed, busy := false, phase := .idle, command := none })

/-- R205, R207, R209, R210: a frame that passes the length check and the checksum is decrypted with the seed of FBUF[2] and
parsed: PARSE's error is the result and MSG is unchanged, or the result is OK and MSG holds the header of the decrypted
frame, most significant bytes first, and the records. FBUF, FLEN and all else are unchanged, value bytes
beyond VLEN and records from NREC on too (log entry 20). -/
def Obligations.DecodeParsesDecryptedFrame : Prop :=
  ∀ (s : State) (f : List Byte), s.Running .decode .codec → s.parser = Parser.empty →
    9 ≤ f.length → f.length ≤ 66 → s.flen.toNat = f.length → f[0]? = some (BitVec.ofNat 8 (f.length - 1)) →
    (∀ j, j < f.length → Memory.read s.fbuf j = f[j]?) →
    f.getD (f.length - 1) 0 = ((f.take (f.length - 1)).drop 1).foldl (· + ·) 0 →
    let p := xcrypt s.config f f.length (seed s.config (f.getD 2 0))
    let r := (Parser.start p f.length).run s.config f.length
    (∀ c, r.status = .failed c →
        exec .decode s = .next { s with result := c, busy := false, phase := .idle, command := none }) ∧
    (r.status = .done →
      ∃ t, exec .decode s = .next t ∧
        { t with msg := s.msg } = { s with result := .ok, busy := false, phase := .idle, command := none } ∧
        t.msg.mfr = some (p.getD 1 0) ∧ t.msg.product = some (p.getD 2 0) ∧
        t.msg.pip = some (p.getD 3 0 ++ p.getD 4 0) ∧
        t.msg.devid = some (p.getD 5 0 ++ p.getD 6 0 ++ p.getD 7 0) ∧
        t.msg.nrec.toNat = r.recs.length ∧
        (∀ k x, r.recs[k]? = some x →
          (t.msg.recAt k).pid = some x.pid ∧ (t.msg.recAt k).type = some x.type ∧
          (∃ v, (t.msg.recAt k).vlen = some v ∧ v.toNat = x.width) ∧
          ∀ b, (t.msg.recAt k).valAt b = if b < x.width then x.val[b]? else (s.msg.recAt k).valAt b) ∧
        ∀ k, r.recs.length ≤ k → t.msg.recAt k = s.msg.recAt k) ∧
    (r.status = .done ∨ r.status = .failed .unsupportedType ∨ r.status = .failed .malformedRecord)

/-- R41, R205, R215, R216: DECODE faults on the first unwritten byte of the frame it reads. ENCODE, for every message whose
record checks and length check pass, faults on the first unwritten header register, and, with the header written, on the
first unwritten VAL byte below VLEN, in record and byte order. -/
def Obligations.CodecFaultsOnUnwritten : Prop :=
  (∀ s : State, s.Running .decode .codec → 9 ≤ s.flen.toNat → s.flen.toNat ≤ 66 →
      ∀ i, i < s.flen.toNat → Memory.read s.fbuf i = none →
        (∀ j, j < i → ∃ b, Memory.read s.fbuf j = some b) →
        (∀ l, Memory.read s.fbuf 0 = some l → l.toNat = s.flen.toNat - 1) →
        exec .decode s = .fault (.unwritten (.fbuf i))) ∧
  (∀ s : State, s.Running .encode .codec → s.msg.nrec.toNat ≤ 28 →
      (∀ k, k < s.msg.nrec.toNat → s.msg.RecPasses s.config k) →
      10 + ((List.range s.msg.nrec.toNat).map fun k => 2 + ((s.msg.recAt k).vlen.getD 0).toNat).sum ≤ 66 →
      (s.msg.mfr = none → exec .encode s = .fault (.unwritten .msgMfr)) ∧
      (∀ mfr, s.msg.mfr = some mfr → s.msg.product = none → exec .encode s = .fault (.unwritten .msgProduct)) ∧
      (∀ mfr product, s.msg.mfr = some mfr → s.msg.product = some product → s.msg.pip = none →
        exec .encode s = .fault (.unwritten .msgPip)) ∧
      (∀ mfr product pip, s.msg.mfr = some mfr → s.msg.product = some product → s.msg.pip = some pip →
        s.msg.devid = none → exec .encode s = .fault (.unwritten .msgDevid)) ∧
      (∀ mfr product pip devid, s.msg.mfr = some mfr → s.msg.product = some product → s.msg.pip = some pip →
        s.msg.devid = some devid →
        ∀ k b, k < s.msg.nrec.toNat → (∀ j, j < k → s.msg.ValsWritten j) →
          b < ((s.msg.recAt k).vlen.getD 0).toNat → (s.msg.recAt k).valAt b = none →
          (∀ a, a < b → ∃ v, (s.msg.recAt k).valAt a = some v) →
          exec .encode s = .fault (.unwritten (.recVal k b))))

/-- R219: whenever ENCODE finishes OK, a DECODE of the FBUF and FLEN it left finishes OK and writes back the same MSG:
every header register, MSG_NREC, and each record's PID, TYPE, VLEN and value bytes; the rest of MSG stays
(log entry 20). -/
def Obligations.EncodeThenDecodeIsIdentity : Prop :=
  ∀ s t : State, s.Running .encode .codec → exec .encode s = .next t → t.result = .ok →
    ∃ u v, exec .decode t = .next u ∧ exec .decode u = .next v ∧
      v.result = .ok ∧ v.busy = false ∧ v.msg = s.msg ∧ v.fbuf = t.fbuf ∧ v.flen = t.flen

/-! ### Frames -/

/-- R141, R145, R20: what INIT and SETMODE leave unchanged in each of their steps: RX_POLLS, FLEN, FBUF, MSG, J, L, and for
INIT MODE and I too; the configuration, the host's moves and what it has read. -/
def Obligations.ModeControllerFrame : Prop :=
  ∀ s t : State,
    (exec .init s = .next t → t.mode = s.mode ∧ t.idxI = s.idxI) ∧
    ((exec .init s = .next t ∨ exec .setmodeStandby s = .next t ∨ exec .setmodeTx s = .next t ∨
        exec .setmodeRx s = .next t) →
      t.rxPolls = s.rxPolls ∧ t.flen = s.flen ∧ (∀ a, Memory.read t.fbuf a = Memory.read s.fbuf a) ∧
      t.msg = s.msg ∧ t.idxJ = s.idxJ ∧ t.lenL = s.lenL ∧ t.parser = s.parser ∧ t.config = s.config ∧
      t.host = s.host ∧ t.reads = s.reads) ∧
    ((exec .setmodeStandby s = .next t ∨ exec .setmodeTx s = .next t ∨ exec .setmodeRx s = .next t) →
      t.initOk = s.initOk)

/-- R160, R166, R170: what RECEIVE and TRANSMIT leave unchanged in each of their steps. RECEIVE stores FBUF[0] at RX_LEN and
FBUF[j] at RX_DATA(j), and no other byte; TRANSMIT stores no byte and leaves FLEN and L. Neither writes INIT_OK, MODE,
MODE_OK, RX_POLLS or MSG. -/
def Obligations.FifoSequencerFrame : Prop :=
  ∀ s t : State,
    ((exec .receive s = .next t ∨ exec .transmit s = .next t) →
      t.initOk = s.initOk ∧ t.mode = s.mode ∧ t.modeOk = s.modeOk ∧ t.rxPolls = s.rxPolls ∧ t.msg = s.msg ∧
      t.parser = s.parser ∧ t.config = s.config ∧ t.host = s.host ∧ t.reads = s.reads) ∧
    (exec .receive s = .next t →
      ∀ a, receiveStores s.phase ≠ some a → Memory.read t.fbuf a = Memory.read s.fbuf a) ∧
    (exec .transmit s = .next t →
      t.flen = s.flen ∧ t.lenL = s.lenL ∧ ∀ a, Memory.read t.fbuf a = Memory.read s.fbuf a)

/-- R220: the codec touches no other state: ENCODE writes only FBUF[0..N-1], FLEN, RESULT and the sequencer, DECODE only
MSG, RESULT and the sequencer; neither makes a bus transaction or touches INIT_OK, MODE, MODE_OK. -/
def Obligations.CodecFrame : Prop :=
  ∀ s t : State,
    ((exec .encode s = .next t ∨ exec .decode s = .next t) →
      t.initOk = s.initOk ∧ t.mode = s.mode ∧ t.modeOk = s.modeOk ∧ t.rxPolls = s.rxPolls ∧ t.idxI = s.idxI ∧
      t.idxJ = s.idxJ ∧ t.lenL = s.lenL ∧ t.config = s.config ∧ t.host = s.host ∧ t.reads = s.reads ∧
      t.answers = s.answers ∧ t.draws = s.draws ∧ t.trace = s.trace) ∧
    (exec .encode s = .next t →
      t.msg = s.msg ∧ t.parser = s.parser ∧
      (∀ f, encodedFrame s.config s.msg = .ok f → ∀ a, f.length ≤ a → Memory.read t.fbuf a = Memory.read s.fbuf a) ∧
      (∀ h, encodedFrame s.config s.msg = .error h → t.flen = s.flen ∧ ∀ a, Memory.read t.fbuf a = Memory.read s.fbuf a)) ∧
    (exec .decode s = .next t → t.flen = s.flen ∧ ∀ a, Memory.read t.fbuf a = Memory.read s.fbuf a)

/-! ### The whole machine -/

/-- R24, R30, R28, R33, R205: the invariant holds after reset. -/
def Obligations.ResetMeetsInv : Prop := State.reset.Inv ∧ State.reset.ReadyWitnessed

/-- R24, R30, R28, R141, R145, R160, R166: every step of the machine keeps the invariant, host moves and resets included:
FBUF canonical, PHASE one of the running command's and IDLE exactly when BUSY = 0, each phase behind its gate. -/
def Obligations.StepKeepsInv : Prop := ∀ s t : State, s.Inv → step s = .next t → t.Inv

/-- R28, R75: in every state the machine can step to, MODE_OK = 1 only if the bus trace shows mode-ready read set after the
last opmode write, for a configuration whose opmode register is neither the FIFO nor IRQ-flags-2. -/
def Obligations.ModeOkMeansModeReadySeen : Prop :=
  ∀ s t : State, s.Inv → opmodeApart s.config = true → s.ReadyWitnessed → step s = .next t → t.ReadyWitnessed

/-- R75, R281, U1: no step of RECEIVE or TRANSMIT makes a bus transaction unless MODE_OK = 1, INIT_OK = 1 and MODE is RX or
TX. -/
def Obligations.NoFifoAccessOutsideReadyMode : Prop :=
  ∀ s t : State, s.Inv →
    (s.command = some .receive ∨ s.command = some .transmit) → step s = .next t → t.trace ≠ s.trace →
    s.initOk = true ∧ s.modeOk = true ∧
      (s.command = some .receive → s.mode = .rx) ∧ (s.command = some .transmit → s.mode = .tx)

/-- R13, R71, R133: a step makes at most one bus transaction, and none while BUSY = 0. -/
def Obligations.AtMostOneTransactionAStep : Prop :=
  ∀ s t : State, step s = .next t →
    (t.trace = s.trace ∨ ∃ e, t.trace = s.trace ++ [e]) ∧ (s.busy = false → t.trace = s.trace)

/-- R38, R255: every command ends: from every sound state with a command running and no host move to come, within the bound
of R38 the machine is idle again or stands at the model fault. -/
def Obligations.EveryCommandEndsWithinBound : Prop :=
  (∀ s : State, s.Inv → s.config.wf = true → s.busy = true → s.host = [] →
    ∃ k, k ≤ s.stepsLeft ∧
      ((∃ t, Host.Core.run core k s = .next t ∧ t.busy = false) ∨
        ∃ f, Host.Core.run core k s = .fault f)) ∧
  (∀ (i : Instr) (s t : State), i.format = .cmd → s.config.wf = true → s.busy = false → exec i s = .next t →
    t.stepsLeft ≤ max (s.config.cfg.entries.length + 1)
      (max (1 + s.config.modePollMax)
        (max (s.rxPolls.toNat + 1 + 130) (max (s.flen.toNat + s.config.txPollMax) 1))))

/-- R35, R271, R78: no step writes the configuration. -/
def Obligations.ConfigurationNeverWritten : Prop := ∀ s t : State, step s = .next t → t.config = s.config

/-- R27, R96: MODE changes only by SETMODE's write step, to its target, or by reset, to NONE. -/
def Obligations.ModeWrittenOnlyBySetmode : Prop :=
  ∀ s t : State, s.Inv → step s = .next t → t.mode ≠ s.mode →
    (∃ rest, s.host = .reset :: rest ∧ t.mode = .none) ∨
    (s.busy = true ∧ s.phase = .smWrite ∧ s.initOk = true ∧
      ∃ i m, s.command = some i ∧ setmodeTarget i = some m ∧ t.mode = m.mode)

/-- R242, R26: the step in which BUSY goes from 1 to 0 is a finish, which writes RESULT and puts the sequencer at IDLE, or a
reset; RESULT changes in no other step. -/
def Obligations.ResultWrittenOnlyByFinish : Prop :=
  ∀ s t : State, s.Inv → step s = .next t →
    (t.result ≠ s.result →
      (s.busy = true ∧ t.busy = false ∧ t.phase = .idle ∧ t.command = none) ∨ ∃ rest, s.host = .reset :: rest) ∧
    (s.busy = true → t.busy = false →
      t.phase = .idle ∧ t.command = none ∧
        (t.result ≠ .none ∨ ∃ rest, s.host = .reset :: rest))

/-- R245, R41: from a sound state INIT, SETMODE, RECEIVE and ILLEGAL never fault, and no command of a running step is
refused. -/
def Obligations.OnlyCodecAndTransmitFault : Prop :=
  ∀ (s : State) (i : Instr), s.Inv → s.command = some i →
    (∀ r, exec i s ≠ .refused r) ∧
    (∀ f, exec i s = .fault f → i = .transmit ∨ i = .encode ∨ i = .decode)

/-- R72: an ill-formed configuration is refused. -/
def Obligations.IllFormedConfigurationRefused : Prop :=
  ∀ s : State, (∃ e ∈ s.config.cfg.entries, 0x3F < e.addr.toNat) → step s = .refused .illFormedConfig

/-! ### The parameters -/

/-- R9, R191, R190, R196: KS, SEED and WIDTH are parameters: every function is the KS (up to any index), the SEED and the
WIDTH of some configuration that agrees with a given one in all else, FLOAT alone being UNSUPPORTED (R198, R200; log
entry 12). -/
def Obligations.CodecFunctionsAreParameters : Prop :=
  ∀ c : Config,
    (∀ (f : BitVec 16 → Nat → Byte) (n : Nat), ∃ ks, ∀ s k, k < n → keystream { c with ks := ks } s k = f s k) ∧
    (∀ f : Byte → BitVec 16, ∃ seeds, ∀ p, seed { c with seeds := seeds } p = f p) ∧
    (∀ f : Byte → BitVec 4, ∃ widths, ∀ t,
      width { c with widths := widths } t = if t.extractLsb' 4 4 = 0xF then none else some (f t).toNat)
end

