-- ==== Sys2Proof/Laws/Memory.lean ====
section
/-! SUPPORT. Laws/Memory.lean: FBUF as a list of cells: what a read sees after a write, and that every write keeps the
canonical form. -/

namespace Sys2Proof.Machine

theorem Memory.read_insert (m : List Host.Cell) (i j : Nat) (v : Byte) :
    Memory.read (Memory.insert m i v) j = if j = i then some v else Memory.read m j := by
  induction m with
  | nil => simp [Memory.insert, Memory.read, eq_comm]
  | cons c m ih =>
    obtain ⟨a, b⟩ := c
    simp only [Memory.insert]
    split
    · simp [Memory.read, eq_comm]
    · split
      · subst_vars; simp only [Memory.read, eq_comm (a := j)]; split <;> simp_all
      · simp only [Memory.read, ih]
        split
        · rw [if_neg (by omega)]
        · rfl

/-- What a read of FBUF sees after a write: the byte written at its index, every other byte as before (R60). -/
theorem Memory.read_write (m : List Host.Cell) (i j : Nat) (v : Byte) :
    Memory.read (Memory.write m i v) j = if j = i ∧ i < 66 then some v else Memory.read m j := by
  unfold Memory.write Config.maxFifoBuffer
  split <;> simp_all [Memory.read_insert]

theorem Memory.read_write_other {m : List Host.Cell} {i j : Nat} {v : Byte} (h : j ≠ i) :
    Memory.read (Memory.write m i v) j = Memory.read m j := by simp [Memory.read_write, h]

/-- What a read of FBUF sees after a list of bytes was written from index i on. -/
theorem Memory.read_writeBytes (vs : List Byte) : ∀ (m : List Host.Cell) (i j : Nat),
    Memory.read (Memory.writeBytes m i vs) j =
      if i ≤ j ∧ j < i + vs.length ∧ j < 66 then vs[j - i]? else Memory.read m j := by
  induction vs with
  | nil =>
    intro m i j
    simp only [Memory.writeBytes, List.length_nil]
    split
    · omega
    · rfl
  | cons v vs ih =>
    intro m i j
    simp only [Memory.writeBytes, ih, Memory.read_write, List.length_cons]
    rcases Nat.lt_trichotomy j i with h | rfl | h
    · simp only [show ¬ i + 1 ≤ j by omega, show ¬ i ≤ j by omega, show ¬ j = i by omega, false_and, if_false]
    · simp only [show ¬ j + 1 ≤ j by omega, false_and, if_false, true_and, Nat.le_refl, Nat.sub_self]
      by_cases h66 : j < 66
      · simp [h66]
      · simp [h66]
    · by_cases hc : j < i + (vs.length + 1) ∧ j < 66
      · rw [if_pos (by omega), if_pos (by omega), show j - i = (j - (i + 1)) + 1 by omega, List.getElem?_cons_succ]
      · rw [if_neg (by omega), if_neg (by omega), if_neg (by omega)]

theorem Memory.wfFrom_mono {m : List Host.Cell} {lo lo' : Nat} (h : lo' ≤ lo) (hm : Memory.wfFrom lo m = true) :
    Memory.wfFrom lo' m = true := by
  cases m with
  | nil => rfl
  | cons c m => obtain ⟨a, b⟩ := c; simp [Memory.wfFrom] at hm ⊢; exact ⟨⟨by omega, hm.1.2⟩, hm.2⟩

theorem Memory.wfFrom_insert (i : Nat) (v : Byte) (hi : i < Config.maxFifoBuffer) :
    ∀ (m : List Host.Cell) (lo : Nat), lo ≤ i → Memory.wfFrom lo m = true →
      Memory.wfFrom lo (Memory.insert m i v) = true := by
  intro m
  induction m with
  | nil => intro lo hlo _; simp [Memory.insert, Memory.wfFrom, hlo, hi]
  | cons c m ih =>
    intro lo hlo hm
    obtain ⟨a, b⟩ := c
    simp only [Memory.wfFrom, Bool.and_eq_true, decide_eq_true_eq] at hm
    simp only [Memory.insert]
    split
    · simp [Memory.wfFrom, hlo, hi, hm]; omega
    · split
      · subst_vars; simp [Memory.wfFrom, hm]
      · simp only [Memory.wfFrom, Bool.and_eq_true, decide_eq_true_eq]
        exact ⟨hm.1, ih _ (by omega) hm.2⟩

/-- A write keeps FBUF in canonical form. -/
theorem Memory.wf_write {m : List Host.Cell} (h : Memory.wf m = true) (i : Nat) (v : Byte) :
    Memory.wf (Memory.write m i v) = true := by
  unfold Memory.write
  split
  · exact Memory.wfFrom_insert i v ‹_› m 0 (Nat.zero_le i) h
  · exact h

/-- A write of a list of bytes keeps FBUF in canonical form. -/
theorem Memory.wf_writeBytes (vs : List Byte) : ∀ {m : List Host.Cell} (_ : Memory.wf m = true) (i : Nat),
    Memory.wf (Memory.writeBytes m i vs) = true := by
  induction vs with
  | nil => intro m h i; exact h
  | cons v vs ih => intro m h i; exact ih (Memory.wf_write h i v) (i + 1)

/-- FBUF after reset is in canonical form. -/
theorem Memory.wf_reset : Memory.wf State.reset.fbuf = true := rfl

/-- A byte above FBUF[65] is never listed in canonical form. -/
theorem Memory.read_outside : ∀ (m : List Host.Cell) (lo i : Nat), Memory.wfFrom lo m = true → 66 ≤ i →
    Memory.read m i = none := by
  intro m
  induction m with
  | nil => intros; rfl
  | cons c m ih =>
    intro lo i hm hi
    obtain ⟨a, b⟩ := c
    simp only [Memory.wfFrom, Bool.and_eq_true, decide_eq_true_eq] at hm
    have ha : a < 66 := hm.1.2
    rw [Memory.read, if_neg (by omega)]
    exact ih _ _ hm.2 hi

/-- The bytes read from FBUF, when all of them are written. -/
theorem State.fbufBytes_ok (s : State) (bs : List Byte) : ∀ i,
    (∀ j, j < bs.length → Memory.read s.fbuf (i + j) = bs[j]?) → s.fbufBytes i bs.length = .ok bs := by
  induction bs with
  | nil => intros; rfl
  | cons b bs ih =>
    intro i h
    have h0 : Memory.read s.fbuf i = some b := by simpa using h 0 (by simp)
    have := ih (i + 1) fun j hj => by
      have := h (j + 1) (by simpa using hj)
      simpa [Nat.add_assoc, Nat.add_comm 1 j] using this
    simp [State.fbufBytes, State.fbufByte, need, h0, this]

/-- The first unwritten byte of a range is the fault of reading it (R41). -/
theorem State.fbufBytes_unwritten (s : State) (i : Nat) (hi : Memory.read s.fbuf i = none) : ∀ (n a : Nat),
    a ≤ i → i < a + n → (∀ j, a ≤ j → j < i → ∃ b, Memory.read s.fbuf j = some b) →
    s.fbufBytes a n = .error (.unwritten (.fbuf i)) := by
  intro n
  induction n with
  | zero => intros; omega
  | succ n ih =>
    intro a ha hn hw
    by_cases h : a = i
    · subst h; simp [State.fbufBytes, State.fbufByte, need, hi]
    · obtain ⟨b, hb⟩ := hw a (Nat.le_refl a) (by omega)
      have := ih (a + 1) (by omega) (by omega) fun j h1 h2 => hw j (by omega) h2
      simp [State.fbufBytes, State.fbufByte, need, hb, this]

/-- A successful read of a range: its length, and that each byte is the one FBUF holds. -/
theorem State.fbufBytes_spec (s : State) : ∀ (n i : Nat) (bs : List Byte), s.fbufBytes i n = .ok bs →
    bs.length = n ∧ ∀ j, j < n → Memory.read s.fbuf (i + j) = bs[j]? := by
  intro n
  induction n with
  | zero => intro i bs h; simp [State.fbufBytes] at h; subst h; simp
  | succ n ih =>
    intro i bs h
    simp only [State.fbufBytes, State.fbufByte, need] at h
    cases hb : Memory.read s.fbuf i with
    | none => simp [hb] at h
    | some b =>
      cases hr : s.fbufBytes (i + 1) n with
      | error f => simp [hb, hr] at h
      | ok rest =>
        simp [hb, hr] at h
        subst h
        obtain ⟨h1, h2⟩ := ih _ _ hr
        refine ⟨by simp [h1], fun j hj => ?_⟩
        cases j with
        | zero => simpa using hb
        | succ j => have := h2 j (by omega); simpa [Nat.add_assoc, Nat.add_comm 1 j] using this

end Sys2Proof.Machine
end

