-- ==== Sys2Proof/Laws/Message.lean ====
section
/-! SUPPORT. Laws/Message.lean: the message registers: what a read of a record register sees after a write, and what DECODE's
stores leave in MSG. -/

namespace Sys2Proof.Machine

/-- What a read of a record register sees after a write (R34: there are 28). -/
theorem Msg.recAt_setRec (m : Msg) (k j : Nat) (r : MsgRec) :
    (m.setRec k r).recAt j = if j = k ∧ k < 28 then r else m.recAt j := by
  unfold Msg.setRec Msg.recAt
  simp only [Vector.getElem?_setIfInBounds]
  by_cases h : k = j
  · subst h
    by_cases hk : k < 28 <;> simp [hk]
  · simp [h, Ne.symm h]

/-- A write of a record register leaves the other registers of MSG. -/
theorem Msg.setRec_other (m : Msg) (k : Nat) (r : MsgRec) : { m.setRec k r with recs := m.recs } = m := rfl

/-- There is no value byte above VAL[14] (R34). -/
theorem MsgRec.valAt_none {r : MsgRec} {b : Nat} (h : 15 ≤ b) : r.valAt b = none := by
  simp [MsgRec.valAt, Vector.getElem?_eq_none h]

/-- What a read of a value byte sees after a write (R34: there are 15). -/
theorem MsgRec.valAt_setVal (r : MsgRec) (b c : Nat) (v : Byte) :
    (r.setVal b v).valAt c = if c = b ∧ b < 15 then some v else r.valAt c := by
  unfold MsgRec.setVal MsgRec.valAt
  simp only [Vector.getElem?_setIfInBounds]
  by_cases h : b = c
  · subst h
    by_cases hk : b < 15 <;> simp [hk]
  · simp [h, Ne.symm h]

/-- What a read of a value byte sees after a list of bytes was written from VAL[b] on. -/
theorem MsgRec.valAt_setVals (vs : List Byte) : ∀ (r : MsgRec) (b c : Nat),
    (r.setVals b vs).valAt c = if b ≤ c ∧ c < b + vs.length ∧ c < 15 then vs[c - b]? else r.valAt c := by
  induction vs with
  | nil =>
    intro r b c
    simp only [MsgRec.setVals, List.length_nil]
    split
    · omega
    · rfl
  | cons v vs ih =>
    intro r b c
    simp only [MsgRec.setVals, ih, MsgRec.valAt_setVal, List.length_cons]
    rcases Nat.lt_trichotomy c b with h | rfl | h
    · simp only [show ¬ b + 1 ≤ c by omega, show ¬ b ≤ c by omega, show ¬ c = b by omega, false_and, if_false]
    · by_cases h15 : c < 15 <;> simp [h15]
    · by_cases hc : c < b + (vs.length + 1) ∧ c < 15
      · rw [if_pos (by omega), if_pos (by omega), show c - b = (c - (b + 1)) + 1 by omega, List.getElem?_cons_succ]
      · rw [if_neg (by omega), if_neg (by omega), if_neg (by omega)]

@[simp] theorem MsgRec.setVals_pid (vs : List Byte) : ∀ (r : MsgRec) (b : Nat), (r.setVals b vs).pid = r.pid := by
  induction vs with
  | nil => intros; rfl
  | cons v vs ih => intro r b; exact ih _ _

@[simp] theorem MsgRec.setVals_type (vs : List Byte) : ∀ (r : MsgRec) (b : Nat), (r.setVals b vs).type = r.type := by
  induction vs with
  | nil => intros; rfl
  | cons v vs ih => intro r b; exact ih _ _

@[simp] theorem MsgRec.setVals_vlen (vs : List Byte) : ∀ (r : MsgRec) (b : Nat), (r.setVals b vs).vlen = r.vlen := by
  induction vs with
  | nil => intros; rfl
  | cons v vs ih => intro r b; exact ih _ _

/-- What DECODE stores into a record register: PID, TYPE, VLEN and VAL[0 .. w-1]; the other value bytes stay (R205; log
entry 20). -/
def MsgRec.stored (old : MsgRec) (r : Rec) : MsgRec :=
  { old.setVals 0 r.val with pid := some r.pid, type := some r.type, vlen := some (BitVec.ofNat 4 r.width) }

theorem Msg.recAt_storeRec (m : Msg) (k j : Nat) (r : Rec) :
    (m.storeRec k r).recAt j = if j = k ∧ k < 28 then (m.recAt k).stored r else m.recAt j :=
  Msg.recAt_setRec m k j _

/-- What DECODE's stores leave in each record register: the k-th parsed record in MSG_REC[k], the others as before. -/
theorem Msg.recAt_storeRecs (rs : List Rec) : ∀ (m : Msg) (k j : Nat),
    (m.storeRecs k rs).recAt j =
      if k ≤ j ∧ j < 28 then
        match rs[j - k]? with
        | some r => (m.recAt j).stored r
        | none => m.recAt j
      else m.recAt j := by
  induction rs with
  | nil => intro m k j; simp [Msg.storeRecs]
  | cons r rs ih =>
    intro m k j
    simp only [Msg.storeRecs, ih, Msg.recAt_storeRec]
    rcases Nat.lt_trichotomy j k with h | rfl | h
    · simp only [show ¬ k + 1 ≤ j by omega, show ¬ k ≤ j by omega, show ¬ j = k by omega, false_and, if_false]
    · by_cases h28 : j < 28 <;> simp [h28]
    · simp only [show ¬ j = k by omega, false_and, if_false]
      by_cases h28 : j < 28
      · rw [if_pos ⟨by omega, h28⟩, if_pos ⟨by omega, h28⟩, show j - k = (j - (k + 1)) + 1 by omega,
          List.getElem?_cons_succ]
      · rw [if_neg (by omega), if_neg (by omega)]

theorem Msg.storeRecs_other (rs : List Rec) : ∀ (m : Msg) (k : Nat),
    (m.storeRecs k rs).mfr = m.mfr ∧ (m.storeRecs k rs).product = m.product ∧ (m.storeRecs k rs).pip = m.pip ∧
    (m.storeRecs k rs).devid = m.devid ∧ (m.storeRecs k rs).nrec = m.nrec := by
  induction rs with
  | nil => intros; exact ⟨rfl, rfl, rfl, rfl, rfl⟩
  | cons r rs ih => intro m k; exact ih _ _

end Sys2Proof.Machine
end

