-- ==== Sys2Proof/Laws/State.lean ====
section
/-! SUPPORT. Laws/State.lean: each update of the state, field by field. -/

namespace Sys2Proof.Machine

section
variable (s : State)

/-! ### finish: the end of a command (R242) -/

@[simp] theorem State.finish_result (code : ResultCode) : (s.finish code).result = code := rfl
@[simp] theorem State.finish_busy (code : ResultCode) : (s.finish code).busy = false := rfl
@[simp] theorem State.finish_initOk (code : ResultCode) : (s.finish code).initOk = s.initOk := rfl
@[simp] theorem State.finish_modeOk (code : ResultCode) : (s.finish code).modeOk = s.modeOk := rfl
@[simp] theorem State.finish_mode (code : ResultCode) : (s.finish code).mode = s.mode := rfl
@[simp] theorem State.finish_rxPolls (code : ResultCode) : (s.finish code).rxPolls = s.rxPolls := rfl
@[simp] theorem State.finish_flen (code : ResultCode) : (s.finish code).flen = s.flen := rfl
@[simp] theorem State.finish_fbuf (code : ResultCode) : (s.finish code).fbuf = s.fbuf := rfl
@[simp] theorem State.finish_msg (code : ResultCode) : (s.finish code).msg = s.msg := rfl
@[simp] theorem State.finish_phase (code : ResultCode) : (s.finish code).phase = .idle := rfl
@[simp] theorem State.finish_idxI (code : ResultCode) : (s.finish code).idxI = s.idxI := rfl
@[simp] theorem State.finish_idxJ (code : ResultCode) : (s.finish code).idxJ = s.idxJ := rfl
@[simp] theorem State.finish_lenL (code : ResultCode) : (s.finish code).lenL = s.lenL := rfl
@[simp] theorem State.finish_command (code : ResultCode) : (s.finish code).command = none := rfl
@[simp] theorem State.finish_parser (code : ResultCode) : (s.finish code).parser = s.parser := rfl
@[simp] theorem State.finish_config (code : ResultCode) : (s.finish code).config = s.config := rfl
@[simp] theorem State.finish_host (code : ResultCode) : (s.finish code).host = s.host := rfl
@[simp] theorem State.finish_reads (code : ResultCode) : (s.finish code).reads = s.reads := rfl
@[simp] theorem State.finish_answers (code : ResultCode) : (s.finish code).answers = s.answers := rfl
@[simp] theorem State.finish_draws (code : ResultCode) : (s.finish code).draws = s.draws := rfl
@[simp] theorem State.finish_trace (code : ResultCode) : (s.finish code).trace = s.trace := rfl

/-! ### goto: the next phase (R24) -/

@[simp] theorem State.goto_result (p : Phase) : (s.goto p).result = s.result := rfl
@[simp] theorem State.goto_busy (p : Phase) : (s.goto p).busy = s.busy := rfl
@[simp] theorem State.goto_initOk (p : Phase) : (s.goto p).initOk = s.initOk := rfl
@[simp] theorem State.goto_modeOk (p : Phase) : (s.goto p).modeOk = s.modeOk := rfl
@[simp] theorem State.goto_mode (p : Phase) : (s.goto p).mode = s.mode := rfl
@[simp] theorem State.goto_rxPolls (p : Phase) : (s.goto p).rxPolls = s.rxPolls := rfl
@[simp] theorem State.goto_flen (p : Phase) : (s.goto p).flen = s.flen := rfl
@[simp] theorem State.goto_fbuf (p : Phase) : (s.goto p).fbuf = s.fbuf := rfl
@[simp] theorem State.goto_msg (p : Phase) : (s.goto p).msg = s.msg := rfl
@[simp] theorem State.goto_phase (p : Phase) : (s.goto p).phase = p := rfl
@[simp] theorem State.goto_idxI (p : Phase) : (s.goto p).idxI = s.idxI := rfl
@[simp] theorem State.goto_idxJ (p : Phase) : (s.goto p).idxJ = s.idxJ := rfl
@[simp] theorem State.goto_lenL (p : Phase) : (s.goto p).lenL = s.lenL := rfl
@[simp] theorem State.goto_command (p : Phase) : (s.goto p).command = s.command := rfl
@[simp] theorem State.goto_parser (p : Phase) : (s.goto p).parser = s.parser := rfl
@[simp] theorem State.goto_config (p : Phase) : (s.goto p).config = s.config := rfl
@[simp] theorem State.goto_host (p : Phase) : (s.goto p).host = s.host := rfl
@[simp] theorem State.goto_reads (p : Phase) : (s.goto p).reads = s.reads := rfl
@[simp] theorem State.goto_answers (p : Phase) : (s.goto p).answers = s.answers := rfl
@[simp] theorem State.goto_draws (p : Phase) : (s.goto p).draws = s.draws := rfl
@[simp] theorem State.goto_trace (p : Phase) : (s.goto p).trace = s.trace := rfl

/-! ### accept: the acceptance of a command (R90) -/

@[simp] theorem State.accept_result (i : Instr) : (s.accept i).result = s.result := rfl
@[simp] theorem State.accept_busy (i : Instr) : (s.accept i).busy = true := rfl
@[simp] theorem State.accept_initOk (i : Instr) : (s.accept i).initOk = s.initOk := rfl
@[simp] theorem State.accept_modeOk (i : Instr) : (s.accept i).modeOk = s.modeOk := rfl
@[simp] theorem State.accept_mode (i : Instr) : (s.accept i).mode = s.mode := rfl
@[simp] theorem State.accept_rxPolls (i : Instr) : (s.accept i).rxPolls = s.rxPolls := rfl
@[simp] theorem State.accept_flen (i : Instr) : (s.accept i).flen = s.flen := rfl
@[simp] theorem State.accept_fbuf (i : Instr) : (s.accept i).fbuf = s.fbuf := rfl
@[simp] theorem State.accept_msg (i : Instr) : (s.accept i).msg = s.msg := rfl
@[simp] theorem State.accept_phase (i : Instr) : (s.accept i).phase = firstPhase i := rfl
@[simp] theorem State.accept_idxI (i : Instr) : (s.accept i).idxI = s.idxI := rfl
@[simp] theorem State.accept_idxJ (i : Instr) : (s.accept i).idxJ = s.idxJ := rfl
@[simp] theorem State.accept_lenL (i : Instr) : (s.accept i).lenL = s.lenL := rfl
@[simp] theorem State.accept_command (i : Instr) : (s.accept i).command = some i := rfl
@[simp] theorem State.accept_parser (i : Instr) : (s.accept i).parser = s.parser := rfl
@[simp] theorem State.accept_config (i : Instr) : (s.accept i).config = s.config := rfl
@[simp] theorem State.accept_host (i : Instr) : (s.accept i).host = s.host := rfl
@[simp] theorem State.accept_reads (i : Instr) : (s.accept i).reads = s.reads := rfl
@[simp] theorem State.accept_answers (i : Instr) : (s.accept i).answers = s.answers := rfl
@[simp] theorem State.accept_draws (i : Instr) : (s.accept i).draws = s.draws := rfl
@[simp] theorem State.accept_trace (i : Instr) : (s.accept i).trace = s.trace := rfl

/-! ### busRead: a bus read (R130) -/

@[simp] theorem State.busRead_result (a : BusAddr) : (s.busRead a).result = s.result := rfl
@[simp] theorem State.busRead_busy (a : BusAddr) : (s.busRead a).busy = s.busy := rfl
@[simp] theorem State.busRead_initOk (a : BusAddr) : (s.busRead a).initOk = s.initOk := rfl
@[simp] theorem State.busRead_modeOk (a : BusAddr) : (s.busRead a).modeOk = s.modeOk := rfl
@[simp] theorem State.busRead_mode (a : BusAddr) : (s.busRead a).mode = s.mode := rfl
@[simp] theorem State.busRead_rxPolls (a : BusAddr) : (s.busRead a).rxPolls = s.rxPolls := rfl
@[simp] theorem State.busRead_flen (a : BusAddr) : (s.busRead a).flen = s.flen := rfl
@[simp] theorem State.busRead_fbuf (a : BusAddr) : (s.busRead a).fbuf = s.fbuf := rfl
@[simp] theorem State.busRead_msg (a : BusAddr) : (s.busRead a).msg = s.msg := rfl
@[simp] theorem State.busRead_phase (a : BusAddr) : (s.busRead a).phase = s.phase := rfl
@[simp] theorem State.busRead_idxI (a : BusAddr) : (s.busRead a).idxI = s.idxI := rfl
@[simp] theorem State.busRead_idxJ (a : BusAddr) : (s.busRead a).idxJ = s.idxJ := rfl
@[simp] theorem State.busRead_lenL (a : BusAddr) : (s.busRead a).lenL = s.lenL := rfl
@[simp] theorem State.busRead_command (a : BusAddr) : (s.busRead a).command = s.command := rfl
@[simp] theorem State.busRead_parser (a : BusAddr) : (s.busRead a).parser = s.parser := rfl
@[simp] theorem State.busRead_config (a : BusAddr) : (s.busRead a).config = s.config := rfl
@[simp] theorem State.busRead_host (a : BusAddr) : (s.busRead a).host = s.host := rfl
@[simp] theorem State.busRead_reads (a : BusAddr) : (s.busRead a).reads = s.reads := rfl
@[simp] theorem State.busRead_answers (a : BusAddr) : (s.busRead a).answers = s.answers.tail := rfl
@[simp] theorem State.busRead_draws (a : BusAddr) : (s.busRead a).draws = s.draws + 1 := rfl
@[simp] theorem State.busRead_trace (a : BusAddr) : (s.busRead a).trace = s.trace ++ [.read a s.nextAnswer] := rfl

/-! ### busWrite: a bus write (R131) -/

@[simp] theorem State.busWrite_result (a : BusAddr) (v : Byte) : (s.busWrite a v).result = s.result := rfl
@[simp] theorem State.busWrite_busy (a : BusAddr) (v : Byte) : (s.busWrite a v).busy = s.busy := rfl
@[simp] theorem State.busWrite_initOk (a : BusAddr) (v : Byte) : (s.busWrite a v).initOk = s.initOk := rfl
@[simp] theorem State.busWrite_modeOk (a : BusAddr) (v : Byte) : (s.busWrite a v).modeOk = s.modeOk := rfl
@[simp] theorem State.busWrite_mode (a : BusAddr) (v : Byte) : (s.busWrite a v).mode = s.mode := rfl
@[simp] theorem State.busWrite_rxPolls (a : BusAddr) (v : Byte) : (s.busWrite a v).rxPolls = s.rxPolls := rfl
@[simp] theorem State.busWrite_flen (a : BusAddr) (v : Byte) : (s.busWrite a v).flen = s.flen := rfl
@[simp] theorem State.busWrite_fbuf (a : BusAddr) (v : Byte) : (s.busWrite a v).fbuf = s.fbuf := rfl
@[simp] theorem State.busWrite_msg (a : BusAddr) (v : Byte) : (s.busWrite a v).msg = s.msg := rfl
@[simp] theorem State.busWrite_phase (a : BusAddr) (v : Byte) : (s.busWrite a v).phase = s.phase := rfl
@[simp] theorem State.busWrite_idxI (a : BusAddr) (v : Byte) : (s.busWrite a v).idxI = s.idxI := rfl
@[simp] theorem State.busWrite_idxJ (a : BusAddr) (v : Byte) : (s.busWrite a v).idxJ = s.idxJ := rfl
@[simp] theorem State.busWrite_lenL (a : BusAddr) (v : Byte) : (s.busWrite a v).lenL = s.lenL := rfl
@[simp] theorem State.busWrite_command (a : BusAddr) (v : Byte) : (s.busWrite a v).command = s.command := rfl
@[simp] theorem State.busWrite_parser (a : BusAddr) (v : Byte) : (s.busWrite a v).parser = s.parser := rfl
@[simp] theorem State.busWrite_config (a : BusAddr) (v : Byte) : (s.busWrite a v).config = s.config := rfl
@[simp] theorem State.busWrite_host (a : BusAddr) (v : Byte) : (s.busWrite a v).host = s.host := rfl
@[simp] theorem State.busWrite_reads (a : BusAddr) (v : Byte) : (s.busWrite a v).reads = s.reads := rfl
@[simp] theorem State.busWrite_answers (a : BusAddr) (v : Byte) : (s.busWrite a v).answers = s.answers := rfl
@[simp] theorem State.busWrite_draws (a : BusAddr) (v : Byte) : (s.busWrite a v).draws = s.draws := rfl
@[simp] theorem State.busWrite_trace (a : BusAddr) (v : Byte) : (s.busWrite a v).trace = s.trace ++ [.write a v] := rfl

/-! ### writeOpmode: the opmode write (R145) -/

@[simp] theorem State.writeOpmode_result (m : Target) : (s.writeOpmode m).result = s.result := rfl
@[simp] theorem State.writeOpmode_busy (m : Target) : (s.writeOpmode m).busy = s.busy := rfl
@[simp] theorem State.writeOpmode_initOk (m : Target) : (s.writeOpmode m).initOk = s.initOk := rfl
@[simp] theorem State.writeOpmode_modeOk (m : Target) : (s.writeOpmode m).modeOk = false := rfl
@[simp] theorem State.writeOpmode_mode (m : Target) : (s.writeOpmode m).mode = m.mode := rfl
@[simp] theorem State.writeOpmode_rxPolls (m : Target) : (s.writeOpmode m).rxPolls = s.rxPolls := rfl
@[simp] theorem State.writeOpmode_flen (m : Target) : (s.writeOpmode m).flen = s.flen := rfl
@[simp] theorem State.writeOpmode_fbuf (m : Target) : (s.writeOpmode m).fbuf = s.fbuf := rfl
@[simp] theorem State.writeOpmode_msg (m : Target) : (s.writeOpmode m).msg = s.msg := rfl
@[simp] theorem State.writeOpmode_phase (m : Target) : (s.writeOpmode m).phase = s.phase := rfl
@[simp] theorem State.writeOpmode_idxI (m : Target) : (s.writeOpmode m).idxI = s.idxI := rfl
@[simp] theorem State.writeOpmode_idxJ (m : Target) : (s.writeOpmode m).idxJ = s.idxJ := rfl
@[simp] theorem State.writeOpmode_lenL (m : Target) : (s.writeOpmode m).lenL = s.lenL := rfl
@[simp] theorem State.writeOpmode_command (m : Target) : (s.writeOpmode m).command = s.command := rfl
@[simp] theorem State.writeOpmode_parser (m : Target) : (s.writeOpmode m).parser = s.parser := rfl
@[simp] theorem State.writeOpmode_config (m : Target) : (s.writeOpmode m).config = s.config := rfl
@[simp] theorem State.writeOpmode_host (m : Target) : (s.writeOpmode m).host = s.host := rfl
@[simp] theorem State.writeOpmode_reads (m : Target) : (s.writeOpmode m).reads = s.reads := rfl
@[simp] theorem State.writeOpmode_answers (m : Target) : (s.writeOpmode m).answers = s.answers := rfl
@[simp] theorem State.writeOpmode_draws (m : Target) : (s.writeOpmode m).draws = s.draws := rfl
@[simp] theorem State.writeOpmode_trace (m : Target) : (s.writeOpmode m).trace = s.trace ++ [.write s.config.addrOpmode (opmodeVal m)] := rfl

/-! ### setFbuf: a write of FBUF (R60) -/

@[simp] theorem State.setFbuf_result (i : Nat) (v : Byte) : (s.setFbuf i v).result = s.result := rfl
@[simp] theorem State.setFbuf_busy (i : Nat) (v : Byte) : (s.setFbuf i v).busy = s.busy := rfl
@[simp] theorem State.setFbuf_initOk (i : Nat) (v : Byte) : (s.setFbuf i v).initOk = s.initOk := rfl
@[simp] theorem State.setFbuf_modeOk (i : Nat) (v : Byte) : (s.setFbuf i v).modeOk = s.modeOk := rfl
@[simp] theorem State.setFbuf_mode (i : Nat) (v : Byte) : (s.setFbuf i v).mode = s.mode := rfl
@[simp] theorem State.setFbuf_rxPolls (i : Nat) (v : Byte) : (s.setFbuf i v).rxPolls = s.rxPolls := rfl
@[simp] theorem State.setFbuf_flen (i : Nat) (v : Byte) : (s.setFbuf i v).flen = s.flen := rfl
@[simp] theorem State.setFbuf_fbuf (i : Nat) (v : Byte) : (s.setFbuf i v).fbuf = Memory.write s.fbuf i v := rfl
@[simp] theorem State.setFbuf_msg (i : Nat) (v : Byte) : (s.setFbuf i v).msg = s.msg := rfl
@[simp] theorem State.setFbuf_phase (i : Nat) (v : Byte) : (s.setFbuf i v).phase = s.phase := rfl
@[simp] theorem State.setFbuf_idxI (i : Nat) (v : Byte) : (s.setFbuf i v).idxI = s.idxI := rfl
@[simp] theorem State.setFbuf_idxJ (i : Nat) (v : Byte) : (s.setFbuf i v).idxJ = s.idxJ := rfl
@[simp] theorem State.setFbuf_lenL (i : Nat) (v : Byte) : (s.setFbuf i v).lenL = s.lenL := rfl
@[simp] theorem State.setFbuf_command (i : Nat) (v : Byte) : (s.setFbuf i v).command = s.command := rfl
@[simp] theorem State.setFbuf_parser (i : Nat) (v : Byte) : (s.setFbuf i v).parser = s.parser := rfl
@[simp] theorem State.setFbuf_config (i : Nat) (v : Byte) : (s.setFbuf i v).config = s.config := rfl
@[simp] theorem State.setFbuf_host (i : Nat) (v : Byte) : (s.setFbuf i v).host = s.host := rfl
@[simp] theorem State.setFbuf_reads (i : Nat) (v : Byte) : (s.setFbuf i v).reads = s.reads := rfl
@[simp] theorem State.setFbuf_answers (i : Nat) (v : Byte) : (s.setFbuf i v).answers = s.answers := rfl
@[simp] theorem State.setFbuf_draws (i : Nat) (v : Byte) : (s.setFbuf i v).draws = s.draws := rfl
@[simp] theorem State.setFbuf_trace (i : Nat) (v : Byte) : (s.setFbuf i v).trace = s.trace := rfl

/-! ### takeRecord: a record type byte (R197) -/

@[simp] theorem State.takeRecord_result (t : Byte) : (s.takeRecord t).result = s.result := rfl
@[simp] theorem State.takeRecord_busy (t : Byte) : (s.takeRecord t).busy = s.busy := rfl
@[simp] theorem State.takeRecord_initOk (t : Byte) : (s.takeRecord t).initOk = s.initOk := rfl
@[simp] theorem State.takeRecord_modeOk (t : Byte) : (s.takeRecord t).modeOk = s.modeOk := rfl
@[simp] theorem State.takeRecord_mode (t : Byte) : (s.takeRecord t).mode = s.mode := rfl
@[simp] theorem State.takeRecord_rxPolls (t : Byte) : (s.takeRecord t).rxPolls = s.rxPolls := rfl
@[simp] theorem State.takeRecord_flen (t : Byte) : (s.takeRecord t).flen = s.flen := rfl
@[simp] theorem State.takeRecord_fbuf (t : Byte) : (s.takeRecord t).fbuf = s.fbuf := rfl
@[simp] theorem State.takeRecord_msg (t : Byte) : (s.takeRecord t).msg = s.msg := rfl
@[simp] theorem State.takeRecord_phase (t : Byte) : (s.takeRecord t).phase = s.phase := rfl
@[simp] theorem State.takeRecord_idxI (t : Byte) : (s.takeRecord t).idxI = s.idxI := rfl
@[simp] theorem State.takeRecord_idxJ (t : Byte) : (s.takeRecord t).idxJ = s.idxJ := rfl
@[simp] theorem State.takeRecord_lenL (t : Byte) : (s.takeRecord t).lenL = s.lenL := rfl
@[simp] theorem State.takeRecord_command (t : Byte) : (s.takeRecord t).command = s.command := rfl
@[simp] theorem State.takeRecord_parser (t : Byte) : (s.takeRecord t).parser = s.parser.takeRecord s.config t := rfl
@[simp] theorem State.takeRecord_config (t : Byte) : (s.takeRecord t).config = s.config := rfl
@[simp] theorem State.takeRecord_host (t : Byte) : (s.takeRecord t).host = s.host := rfl
@[simp] theorem State.takeRecord_reads (t : Byte) : (s.takeRecord t).reads = s.reads := rfl
@[simp] theorem State.takeRecord_answers (t : Byte) : (s.takeRecord t).answers = s.answers := rfl
@[simp] theorem State.takeRecord_draws (t : Byte) : (s.takeRecord t).draws = s.draws := rfl
@[simp] theorem State.takeRecord_trace (t : Byte) : (s.takeRecord t).trace = s.trace := rfl

/-! ### withCommand: a command at the host port (R22) -/

@[simp] theorem State.withCommand_result (c : Byte) : (s.withCommand c).result = s.result := rfl
@[simp] theorem State.withCommand_busy (c : Byte) : (s.withCommand c).busy = false := rfl
@[simp] theorem State.withCommand_initOk (c : Byte) : (s.withCommand c).initOk = s.initOk := rfl
@[simp] theorem State.withCommand_modeOk (c : Byte) : (s.withCommand c).modeOk = s.modeOk := rfl
@[simp] theorem State.withCommand_mode (c : Byte) : (s.withCommand c).mode = s.mode := rfl
@[simp] theorem State.withCommand_rxPolls (c : Byte) : (s.withCommand c).rxPolls = s.rxPolls := rfl
@[simp] theorem State.withCommand_flen (c : Byte) : (s.withCommand c).flen = s.flen := rfl
@[simp] theorem State.withCommand_fbuf (c : Byte) : (s.withCommand c).fbuf = s.fbuf := rfl
@[simp] theorem State.withCommand_msg (c : Byte) : (s.withCommand c).msg = s.msg := rfl
@[simp] theorem State.withCommand_phase (c : Byte) : (s.withCommand c).phase = .idle := rfl
@[simp] theorem State.withCommand_idxI (c : Byte) : (s.withCommand c).idxI = s.idxI := rfl
@[simp] theorem State.withCommand_idxJ (c : Byte) : (s.withCommand c).idxJ = s.idxJ := rfl
@[simp] theorem State.withCommand_lenL (c : Byte) : (s.withCommand c).lenL = s.lenL := rfl
@[simp] theorem State.withCommand_command (c : Byte) : (s.withCommand c).command = none := rfl
@[simp] theorem State.withCommand_parser (c : Byte) : (s.withCommand c).parser = s.parser := rfl
@[simp] theorem State.withCommand_config (c : Byte) : (s.withCommand c).config = s.config := rfl
@[simp] theorem State.withCommand_host (c : Byte) : (s.withCommand c).host = .cmd c :: s.host := rfl
@[simp] theorem State.withCommand_reads (c : Byte) : (s.withCommand c).reads = s.reads := rfl
@[simp] theorem State.withCommand_answers (c : Byte) : (s.withCommand c).answers = s.answers := rfl
@[simp] theorem State.withCommand_draws (c : Byte) : (s.withCommand c).draws = s.draws := rfl
@[simp] theorem State.withCommand_trace (c : Byte) : (s.withCommand c).trace = s.trace := rfl

/-! ### hostReset: the one reset (R270, R271) -/

@[simp] theorem State.hostReset_result : s.hostReset.result = State.reset.result := rfl
@[simp] theorem State.hostReset_busy : s.hostReset.busy = State.reset.busy := rfl
@[simp] theorem State.hostReset_initOk : s.hostReset.initOk = State.reset.initOk := rfl
@[simp] theorem State.hostReset_modeOk : s.hostReset.modeOk = State.reset.modeOk := rfl
@[simp] theorem State.hostReset_mode : s.hostReset.mode = State.reset.mode := rfl
@[simp] theorem State.hostReset_rxPolls : s.hostReset.rxPolls = State.reset.rxPolls := rfl
@[simp] theorem State.hostReset_flen : s.hostReset.flen = State.reset.flen := rfl
@[simp] theorem State.hostReset_fbuf : s.hostReset.fbuf = State.reset.fbuf := rfl
@[simp] theorem State.hostReset_msg : s.hostReset.msg = State.reset.msg := rfl
@[simp] theorem State.hostReset_phase : s.hostReset.phase = State.reset.phase := rfl
@[simp] theorem State.hostReset_idxI : s.hostReset.idxI = State.reset.idxI := rfl
@[simp] theorem State.hostReset_idxJ : s.hostReset.idxJ = State.reset.idxJ := rfl
@[simp] theorem State.hostReset_lenL : s.hostReset.lenL = State.reset.lenL := rfl
@[simp] theorem State.hostReset_command : s.hostReset.command = State.reset.command := rfl
@[simp] theorem State.hostReset_parser : s.hostReset.parser = State.reset.parser := rfl
@[simp] theorem State.hostReset_config : s.hostReset.config = s.config := rfl
@[simp] theorem State.hostReset_host : s.hostReset.host = s.host := rfl
@[simp] theorem State.hostReset_reads : s.hostReset.reads = s.reads := rfl
@[simp] theorem State.hostReset_answers : s.hostReset.answers = s.answers := rfl
@[simp] theorem State.hostReset_draws : s.hostReset.draws = s.draws := rfl
@[simp] theorem State.hostReset_trace : s.hostReset.trace = s.trace := rfl

end

end Sys2Proof.Machine
end

