-- ==== Sys2Proof/Laws/Codec.lean ====
section
/-! SUPPORT. Laws/Codec.lean: the codec: XCRYPT byte by byte, what ENCODE's checks and reads can answer, and one turn of
PARSE. -/

namespace Sys2Proof.Machine

/-! ### XCRYPT and the checksum -/

@[simp] theorem xcryptFrom_length (c : Config) (n : Nat) (s : BitVec 16) (x : List Byte) : ∀ i, (xcryptFrom c n s i x).length = x.length := by
  induction x with
  | nil => intros; rfl
  | cons b bs ih => intro i; simp [xcryptFrom, ih]

@[simp] theorem xcrypt_length (c : Config) (x : List Byte) (n : Nat) (s : BitVec 16) : (xcrypt c x n s).length = x.length :=
  xcryptFrom_length c n s x 0

theorem xcryptFrom_getElem? (c : Config) (n : Nat) (s : BitVec 16) (x : List Byte) : ∀ i j,
    (xcryptFrom c n s i x)[j]? =
      x[j]?.map fun b => if 3 ≤ i + j ∧ i + j + 2 ≤ n then b ^^^ keystream c s (i + j - 3) else b := by
  induction x with
  | nil => intros; rfl
  | cons b bs ih =>
    intro i j
    cases j with
    | zero => simp [xcryptFrom]
    | succ j => simp [xcryptFrom, ih, Nat.add_assoc, Nat.add_comm 1 j]

/-- Each byte of the transform (R193). -/
theorem xcrypt_getElem? (c : Config) (x : List Byte) (n : Nat) (s : BitVec 16) (j : Nat) :
    (xcrypt c x n s)[j]? = x[j]?.map fun b => if 3 ≤ j ∧ j + 2 ≤ n then b ^^^ keystream c s (j - 3) else b := by
  simpa [xcrypt] using xcryptFrom_getElem? c n s x 0 j

/-- The sum of R195, as a fold from the left. -/
theorem sumBytes_eq_foldl (bs : List Byte) : sumBytes bs = bs.foldl (· + ·) 0 := by
  have key : ∀ (bs : List Byte) (a : Byte), bs.foldl (· + ·) a = a + sumBytes bs := by
    intro bs
    induction bs with
    | nil => intro a; simp [sumBytes]
    | cons b bs ih => intro a; simp [sumBytes, ih, BitVec.add_assoc]
  simp [key]

theorem sumBytes_append (xs ys : List Byte) : sumBytes (xs ++ ys) = sumBytes xs + sumBytes ys := by
  induction xs with
  | nil => simp [sumBytes]
  | cons x xs ih => simp [sumBytes, ih, BitVec.add_assoc]

/-- The default of SEED(p) is the byte 0xF2 above the product id (R190). -/
theorem defaultSeed_eq (p : Byte) : defaultSeed p = 0xF2#8 ++ p := by
  revert p; decide

/-- Where the configuration has no entry, each parameter has its default (R9). -/
theorem width_default {c : Config} {t : Byte} (h : widthEntry c t = none) : width c t = defaultWidth t := by
  simp [width, h]

theorem seed_default {c : Config} {p : Byte} (h : seedEntry c p = none) : seed c p = defaultSeed p := by
  simp [seed, h]

theorem keystream_default {c : Config} {s : BitVec 16} {k : Nat} (h : keystreamEntry c s k = none) :
    keystream c s k = defaultKeystream s k := by
  simp [keystream, h]

/-- A type byte is UNSUPPORTED exactly when its default is, whatever the configuration (R198, R200). -/
theorem width_eq_none {c : Config} {t : Byte} : width c t = none ↔ defaultWidth t = none := by
  simp [width]

/-- A default width fits in 4 bits (R9). -/
theorem defaultWidth_lt {t : Byte} {w : Nat} (h : defaultWidth t = some w) : w < 16 := by
  unfold defaultWidth at h
  have := (t.extractLsb' 0 4).isLt
  split at h <;> cases h <;> omega

/-- A width fits in 4 bits, whatever the configuration (R9). -/
theorem width_lt {c : Config} {t : Byte} {w : Nat} (h : width c t = some w) : w < 16 := by
  unfold width at h
  cases hd : defaultWidth t with
  | none => simp [hd] at h
  | some d =>
    cases he : widthEntry c t with
    | none => simp [hd, he] at h; exact h ▸ defaultWidth_lt hd
    | some e => simp [hd, he] at h; exact h ▸ e.isLt

/-! ### ENCODE -/

theorem needHalt_ok {α β : Type} {r : Reg} {v : Option α} {go : α → Except Halt β} {b : β}
    (h : needHalt r v go = .ok b) : ∃ x, v = some x ∧ go x = .ok b := by
  cases v with
  | none => cases h
  | some x => exact ⟨x, rfl, h⟩

theorem needHalt_finish {α β : Type} {r : Reg} {v : Option α} {go : α → Except Halt β} {c : ResultCode}
    (h : needHalt r v go = .error (.finish c)) : ∃ x, v = some x ∧ go x = .error (.finish c) := by
  cases v with
  | none => cases h
  | some x => exact ⟨x, rfl, h⟩

@[simp] theorem needHalt_some {α β : Type} (r : Reg) (x : α) (go : α → Except Halt β) :
    needHalt r (some x) go = go x := rfl

@[simp] theorem needHalt_none {α β : Type} (r : Reg) (go : α → Except Halt β) :
    needHalt r none go = .error (.fault (.unwritten r)) := rfl

/-- A record check ends early with one of two codes (R216). -/
theorem checkRecs_finish (cfg : Config) (m : Msg) (n : Nat) : ∀ (k : Nat) {c : ResultCode},
    checkRecs cfg m k n = .error (.finish c) → c = .malformedRecord ∨ c = .unsupportedType := by
  induction n with
  | zero => intro k c h; cases h
  | succ n ih =>
    intro k c h
    obtain ⟨pid, -, h⟩ := needHalt_finish h
    split at h
    · cases h; exact .inl rfl
    · obtain ⟨t, -, h⟩ := needHalt_finish h
      split at h
      · cases h; exact .inr rfl
      · obtain ⟨v, -, h⟩ := needHalt_finish h
        split at h
        · cases h; exact .inl rfl
        · split at h
          · cases h; exact ih _ ‹_›
          · cases h

theorem recVals_finish (m : Msg) (k n : Nat) : ∀ (b : Nat) (c : ResultCode), recVals m k b n ≠ .error (.finish c) := by
  induction n with
  | zero => intro b c h; cases h
  | succ n ih =>
    intro b c h
    obtain ⟨v, -, h⟩ := needHalt_finish h
    split at h
    · cases h; exact ih _ _ ‹_›
    · cases h

theorem recsBytes_finish (m : Msg) (n : Nat) : ∀ (k : Nat) (c : ResultCode), recsBytes m k n ≠ .error (.finish c) := by
  induction n with
  | zero => intro k c h; cases h
  | succ n ih =>
    intro k c h
    simp only [recsBytes] at h
    split at h
    · cases h
      rename_i h
      obtain ⟨_, -, h⟩ := needHalt_finish h
      obtain ⟨_, -, h⟩ := needHalt_finish h
      obtain ⟨_, -, h⟩ := needHalt_finish h
      split at h
      · cases h; exact recVals_finish m k _ _ _ ‹_›
      · cases h
    · split at h
      · cases h; exact ih _ _ ‹_›
      · cases h

/-- ENCODE ends early with one of three codes (R215, R216). -/
theorem encodedFrame_finish {cfg : Config} {m : Msg} {c : ResultCode} (h : encodedFrame cfg m = .error (.finish c)) :
    c = .malformedRecord ∨ c = .unsupportedType ∨ c = .badLength := by
  unfold encodedFrame at h
  split at h
  · cases h; exact .inl rfl
  · split at h
    · cases h
      rcases checkRecs_finish cfg m _ _ ‹_› with h | h
      · exact .inl h
      · exact .inr (.inl h)
    · split at h
      · cases h; exact .inr (.inr rfl)
      · split at h
        · cases h
          rename_i h
          obtain ⟨_, -, h⟩ := needHalt_finish h
          obtain ⟨_, -, h⟩ := needHalt_finish h
          obtain ⟨_, -, h⟩ := needHalt_finish h
          obtain ⟨_, -, h⟩ := needHalt_finish h
          cases h
        · split at h
          · cases h; exact absurd ‹_› (recsBytes_finish m _ _ _)
          · cases h

/-! ### What ENCODE's checks and reads answer on a message whose records pass, or fail first at one of them -/

/-- One record's check on a record that passes goes on to the next (R216). -/
theorem checkRecs_succ {c : Config} {m : Msg} {k : Nat} (h : m.RecPasses c k) (n : Nat) :
    checkRecs c m k (n + 1) =
      (match checkRecs c m (k + 1) n with
        | .error h => .error h
        | .ok total => .ok (2 + ((m.recAt k).vlen.getD 0).toNat + total)) := by
  obtain ⟨pid, t, vlen, hp, hp0, ht, hv, hw⟩ := h
  rw [checkRecs, hp, needHalt_some, if_neg hp0, ht, needHalt_some, hw]
  simp only [hv, needHalt_some, Option.getD_some]
  cases checkRecs c m (k + 1) n <;> simp

/-- When all records pass, the checks give the sum of their lengths (R215, R216). -/
theorem checkRecs_passes {c : Config} {m : Msg} (n : Nat) : ∀ k, (∀ j, k ≤ j → j < k + n → m.RecPasses c j) →
    checkRecs c m k n = .ok ((List.range n).map fun j => 2 + ((m.recAt (k + j)).vlen.getD 0).toNat).sum := by
  induction n with
  | zero => intros; rfl
  | succ n ih =>
    intro k h
    rw [checkRecs_succ (h k (Nat.le_refl k) (by omega)), ih (k + 1) fun j h1 h2 => h j (by omega) (by omega)]
    simp [List.range_succ_eq_map, Function.comp_def, Nat.add_comm, Nat.add_left_comm]

/-- The first record whose own check fails decides (R216). -/
theorem checkRecs_first {c : Config} {m : Msg} {h : Halt} {j : Nat} (hj : ∀ n, checkRecs c m j (n + 1) = .error h) (d : Nat) :
    ∀ k n, j = k + d → d < n → (∀ i, k ≤ i → i < j → m.RecPasses c i) → checkRecs c m k n = .error h := by
  induction d with
  | zero =>
    intro k n e hn _
    obtain ⟨n, rfl⟩ : ∃ n', n = n' + 1 := ⟨n - 1, by omega⟩
    subst e; exact hj n
  | succ d ih =>
    intro k n e hn hp
    obtain ⟨n, rfl⟩ : ∃ n', n = n' + 1 := ⟨n - 1, by omega⟩
    rw [checkRecs_succ (hp k (Nat.le_refl k) (by omega)),
      ih (k + 1) n (by omega) (by omega) fun i h1 h2 => hp i (by omega) h2]

/-- The first unwritten value byte is the fault (R216, R41). -/
theorem recVals_fault {m : Msg} {k b : Nat} (hn : (m.recAt k).valAt b = none) (d : Nat) :
    ∀ a n, b = a + d → d < n → (∀ i, a ≤ i → i < b → ∃ v, (m.recAt k).valAt i = some v) →
    recVals m k a n = .error (.fault (.unwritten (.recVal k b))) := by
  induction d with
  | zero =>
    intro a n e hlt _
    obtain ⟨n, rfl⟩ : ∃ n', n = n' + 1 := ⟨n - 1, by omega⟩
    obtain rfl : b = a := e
    rw [recVals, hn, needHalt_none]
  | succ d ih =>
    intro a n e hlt hw
    obtain ⟨n, rfl⟩ : ∃ n', n = n' + 1 := ⟨n - 1, by omega⟩
    obtain ⟨v, hv⟩ := hw a (Nat.le_refl a) (by omega)
    rw [recVals, hv, needHalt_some, ih (a + 1) n (by omega) (by omega) fun i h1 h2 => hw i (by omega) h2]

/-- Written value bytes are read in order (R215). -/
theorem recVals_written {m : Msg} {k : Nat} (n : Nat) :
    ∀ a, (∀ i, a ≤ i → i < a + n → ∃ v, (m.recAt k).valAt i = some v) →
    recVals m k a n = .ok ((List.range n).map fun i => ((m.recAt k).valAt (a + i)).getD 0) := by
  induction n with
  | zero => intros; rfl
  | succ n ih =>
    intro a hw
    obtain ⟨v, hv⟩ := hw a (Nat.le_refl a) (by omega)
    rw [recVals, hv, needHalt_some, ih (a + 1) fun i h1 h2 => hw i (by omega) (by omega)]
    simp [List.range_succ_eq_map, hv, Function.comp_def, Nat.add_comm, Nat.add_left_comm]

/-- The bytes of a record that passes and whose value bytes are written (R215). -/
theorem recBytes_written {c : Config} {m : Msg} {k : Nat} (h : m.RecPasses c k) (hv : m.ValsWritten k) :
    recBytes m k = .ok (m.recWire k) := by
  obtain ⟨pid, t, vlen, hp, -, ht, hl, -⟩ := h
  have := recVals_written (m := m) (k := k) vlen.toNat 0 fun i _ h2 => hv i (by simpa [hl] using h2)
  simp [recBytes, hp, ht, hl, this, Msg.recWire]

/-- The bytes of records that pass and whose value bytes are written (R215, R217). -/
theorem recsBytes_written {c : Config} {m : Msg} (n : Nat) :
    ∀ k, (∀ j, k ≤ j → j < k + n → m.RecPasses c j ∧ m.ValsWritten j) →
    recsBytes m k n = .ok ((List.range n).flatMap fun j => m.recWire (k + j)) := by
  induction n with
  | zero => intros; rfl
  | succ n ih =>
    intro k h
    obtain ⟨h1, h2⟩ := h k (Nat.le_refl k) (by omega)
    rw [recsBytes, recBytes_written h1 h2, ih (k + 1) fun j a b => h j (by omega) (by omega)]
    simp [List.range_succ_eq_map, List.flatMap_map, Nat.add_comm, Nat.add_left_comm]

/-- The first record with an unwritten value byte is the fault (R216, R41). -/
theorem recsBytes_fault {c : Config} {m : Msg} {j b : Nat} (hp : m.RecPasses c j)
    (hb : b < ((m.recAt j).vlen.getD 0).toNat) (hn : (m.recAt j).valAt b = none)
    (hw : ∀ a, a < b → ∃ v, (m.recAt j).valAt a = some v) (d : Nat) :
    ∀ k n, j = k + d → d < n → (∀ i, k ≤ i → i < j → m.RecPasses c i ∧ m.ValsWritten i) →
    recsBytes m k n = .error (.fault (.unwritten (.recVal j b))) := by
  induction d with
  | zero =>
    intro k n e hlt _
    obtain ⟨n, rfl⟩ : ∃ n', n = n' + 1 := ⟨n - 1, by omega⟩
    obtain rfl : j = k := e
    obtain ⟨pid, t, vlen, hpid, -, ht, hl, -⟩ := hp
    have := recVals_fault (m := m) (k := j) hn b 0 vlen.toNat (by omega) (by simpa [hl] using hb) fun i _ h => hw i h
    simp [recsBytes, recBytes, hpid, ht, hl, this]
  | succ d ih =>
    intro k n e hlt hall
    obtain ⟨n, rfl⟩ : ∃ n', n = n' + 1 := ⟨n - 1, by omega⟩
    obtain ⟨h1, h2⟩ := hall k (Nat.le_refl k) (by omega)
    rw [recsBytes, recBytes_written h1 h2, ih (k + 1) n (by omega) (by omega) fun i a b => hall i (by omega) b]

/-! ### DECODE -/

/-- The first unwritten byte of a read of FBUF is the fault (R41). -/
theorem State.fbufBytes_fault {s : State} {i : Nat} (hn : Memory.read s.fbuf i = none) (d : Nat) :
    ∀ a n, i = a + d → d < n → (∀ j, a ≤ j → j < i → ∃ b, Memory.read s.fbuf j = some b) →
    s.fbufBytes a n = .error (.unwritten (.fbuf i)) := by
  induction d with
  | zero =>
    intro a n e hlt _
    obtain ⟨n, rfl⟩ : ∃ n', n = n' + 1 := ⟨n - 1, by omega⟩
    obtain rfl : i = a := e
    simp [State.fbufBytes, State.fbufByte, hn, need]
  | succ d ih =>
    intro a n e hlt h
    obtain ⟨n, rfl⟩ : ∃ n', n = n' + 1 := ⟨n - 1, by omega⟩
    obtain ⟨b, hb⟩ := h a (Nat.le_refl a) (by omega)
    simp [State.fbufBytes, State.fbufByte, hb, need,
      ih (a + 1) n (by omega) (by omega) fun j h1 h2 => h j (by omega) h2]

/-- The frame check ends early with one of two codes (R205, R206). -/
theorem receivedFrame_finish {s : State} {c : ResultCode} (h : receivedFrame s = .error (.finish c)) :
    c = .malformedRecord ∨ c = .checksumFailed := by
  unfold receivedFrame at h
  dsimp only at h
  split at h
  · cases h; exact .inl rfl
  · split at h
    · cases h
    · split at h
      · cases h; exact .inl rfl
      · split at h
        · cases h
        · split at h
          · cases h; exact .inr rfl
          · cases h

/-- Each way a turn of PARSE's loop can go (R197). -/
theorem Parser.next_cases (c : Config) (p : Parser) (hr : p.status = .running) :
    (p.stop ≤ p.pos ∧ (p.next c) = { p with status := .done }) ∨
    (p.pos < p.stop ∧ p.plain.getD p.pos 0 = 0 ∧ p.pos + 1 = p.stop ∧ (p.next c) = { p with status := .done }) ∨
    (p.pos < p.stop ∧ p.plain.getD p.pos 0 = 0 ∧ p.pos + 1 ≠ p.stop ∧ (p.next c) = p.fail .malformedRecord) ∨
    (p.pos < p.stop ∧ p.plain.getD p.pos 0 ≠ 0 ∧ p.pos + 1 = p.stop ∧ (p.next c) = p.fail .malformedRecord) ∨
    (p.pos + 1 < p.stop ∧ p.plain.getD p.pos 0 ≠ 0 ∧ (p.next c) = p.takeRecord c (p.plain.getD (p.pos + 1) 0)) := by
  unfold Parser.next
  rw [hr]
  dsimp only
  by_cases h1 : p.stop ≤ p.pos
  · exact .inl ⟨h1, by rw [if_pos h1]⟩
  · rw [if_neg h1]
    by_cases h0 : p.plain.getD p.pos 0 = 0
    · rw [if_pos h0]
      unfold Parser.terminate
      rw [hr]
      dsimp only
      by_cases hs : p.pos + 1 = p.stop
      · exact .inr (.inl ⟨by omega, h0, hs, by rw [if_pos hs]⟩)
      · exact .inr (.inr (.inl ⟨by omega, h0, hs, by rw [if_neg hs]⟩))
    · rw [if_neg h0]
      by_cases hs : p.stop ≤ p.pos + 1
      · exact .inr (.inr (.inr (.inl ⟨by omega, h0, by omega, by rw [if_pos hs]⟩)))
      · exact .inr (.inr (.inr (.inr ⟨by omega, h0, by rw [if_neg hs]⟩)))

/-- Each way a record's type byte can go (R197, R200). -/
theorem Parser.takeRecord_cases (c : Config) (p : Parser) (t : Byte) (hr : p.status = .running) :
    (width c t = none ∧ p.takeRecord c t = p.fail .unsupportedType) ∨
    (∃ w, width c t = some w ∧ p.stop < p.pos + 2 + w ∧ p.takeRecord c t = p.fail .malformedRecord) ∨
    (∃ w, width c t = some w ∧ p.pos + 2 + w ≤ p.stop ∧
      p.takeRecord c t =
        { p with
          recs := p.recs ++ [⟨p.plain.getD p.pos 0, t, w, (p.plain.drop (p.pos + 2)).take w⟩]
          pos := p.pos + 2 + w }) := by
  unfold Parser.takeRecord
  rw [hr]
  dsimp only
  cases hw : width c t with
  | none => exact .inl ⟨rfl, rfl⟩
  | some w =>
    by_cases h : p.stop < p.pos + 2 + w
    · exact .inr (.inl ⟨w, rfl, h, by simp [h]⟩)
    · exact .inr (.inr ⟨w, rfl, by omega, by simp [h]⟩)

/-- A parse that has returned does not move. -/
theorem Parser.run_of_returned (c : Config) (n : Nat) {p : Parser} (h : p.status ≠ .running) : p.run c n = p := by
  have hn : (p.next c) = p := by unfold Parser.next; split <;> simp_all
  induction n with
  | zero => rfl
  | succ n ih => rw [Parser.run, hn, ih]

/-- PARSE's loop keeps its frame, and each turn returns or moves on by 2 or more, never past the checksum. -/
theorem Parser.next_progress (c : Config) (p : Parser) (hr : p.status = .running) (hle : p.pos ≤ p.stop) :
    (p.next c).plain = p.plain ∧ (p.next c).stop = p.stop ∧ (p.next c).pos ≤ (p.next c).stop ∧
    ((p.next c).status = .done ∨ (p.next c).status = .failed .malformedRecord ∨ (p.next c).status = .failed .unsupportedType ∨
      ((p.next c).status = .running ∧ p.pos + 2 ≤ (p.next c).pos)) := by
  rcases p.next_cases c hr with ⟨h, e⟩ | ⟨h, h0, h1, e⟩ | ⟨h, h0, h1, e⟩ | ⟨h, h0, h1, e⟩ | ⟨h, h0, e⟩
  · rw [e]; exact ⟨rfl, rfl, hle, .inl rfl⟩
  · rw [e]; exact ⟨rfl, rfl, hle, .inl rfl⟩
  · rw [e]; exact ⟨rfl, rfl, hle, .inr (.inl rfl)⟩
  · rw [e]; exact ⟨rfl, rfl, hle, .inr (.inl rfl)⟩
  · rw [e]
    rcases p.takeRecord_cases c (p.plain.getD (p.pos + 1) 0) hr with ⟨-, e⟩ | ⟨w, -, -, e⟩ | ⟨w, -, hw, e⟩
    · rw [e]; exact ⟨rfl, rfl, hle, .inr (.inr (.inl rfl))⟩
    · rw [e]; exact ⟨rfl, rfl, hle, .inr (.inl rfl)⟩
    · rw [e]; exact ⟨rfl, rfl, hw, .inr (.inr (.inr ⟨hr, Nat.le_add_right _ _⟩))⟩

/-- PARSE's loop returns when it is given a turn for each byte left and one more; its errors are the two of R197 and R200. -/
theorem Parser.run_returns (c : Config) (n : Nat) : ∀ p : Parser, p.status = .running → p.pos ≤ p.stop → p.stop - p.pos < n →
    (p.run c n).status = .done ∨ (p.run c n).status = .failed .malformedRecord ∨
      (p.run c n).status = .failed .unsupportedType := by
  induction n with
  | zero => intros; omega
  | succ n ih =>
    intro p hr hle hn
    rw [Parser.run]
    obtain ⟨-, hs, hle', h | h | h | ⟨hr', hp⟩⟩ := p.next_progress c hr hle
    · rw [Parser.run_of_returned c n (by simp [h]), h]; exact .inl rfl
    · rw [Parser.run_of_returned c n (by simp [h]), h]; exact .inr (.inl rfl)
    · rw [Parser.run_of_returned c n (by simp [h]), h]; exact .inr (.inr rfl)
    · exact ih _ hr' hle' (by omega)

/-- PARSE of a received frame returns, with no error or one of two (R197, R200, R205). -/
theorem parseFrame_returns (c : Config) {f : List Byte} (h : 9 ≤ f.length) :
    (parseFrame c f).status = .done ∨ (parseFrame c f).status = .failed .malformedRecord ∨
      (parseFrame c f).status = .failed .unsupportedType :=
  Parser.run_returns c _ _ rfl (by simp [Parser.start]; omega) (by simp [Parser.start]; omega)

/-- A frame that passes DECODE's checks is FBUF[0 .. N-1], with 9 <= N <= 66 (R205, R206). -/
theorem receivedFrame_ok {s : State} {f : List Byte} (h : receivedFrame s = .ok f) :
    9 ≤ f.length ∧ f.length ≤ 66 ∧ s.flen.toNat = f.length ∧
      (∀ j, j < f.length → Memory.read s.fbuf j = f[j]?) ∧
      (f.getD 0 0).toNat = f.length - 1 ∧ checksum f f.length = f.getD (f.length - 1) 0 := by
  unfold receivedFrame at h
  dsimp only at h
  split at h
  · cases h
  · rename_i hn
    have h66 : Config.maxFifoBuffer = 66 := rfl
    split at h
    · cases h
    · rename_i l hl
      split at h
      · cases h
      · rename_i hlen
        split at h
        · cases h
        · rename_i g hg
          split at h
          · cases h
          · cases h
            obtain ⟨hgl, hgj⟩ := State.fbufBytes_spec s _ _ _ hg
            simp only [Nat.zero_add] at hgj
            have hl' : Memory.read s.fbuf 0 = some l := by
              unfold State.fbufByte need at hl
              split at hl <;> cases hl
              assumption
            have h0 : f[0]? = some l := by rw [← hgj 0 (by omega), hl']
            refine ⟨by omega, by omega, hgl.symm, fun j hj => hgj j (by omega), ?_, ?_⟩
            · simp only [List.getD_eq_getElem?_getD, h0, Option.getD_some]; omega
            · rw [hgl]; simpa using ‹¬ checksum f s.flen.toNat ≠ f.getD (s.flen.toNat - 1) 0›

end Sys2Proof.Machine
end

