-- ==== Sys2Proof/Laws/Commands.lean ====
section
/-! SUPPORT. Laws/Commands.lean: what one step of each command can do, said once: the shared frame of a command
(`runCommand`), then each command's phases, then the host's moves and the machine's step. -/

namespace Sys2Proof.Machine

/-! ### Shared operations -/

theorem runCommand_idle {s : State} {i : Instr} {f : State → Host.Outcome State Fault Refusal}
    (h : s.busy = false) : s.runCommand i f = .next (s.accept i) := by simp [State.runCommand, h]

theorem runCommand_running {s : State} {i : Instr} {f : State → Host.Outcome State Fault Refusal}
    (hb : s.busy = true) (hc : s.command = some i) : s.runCommand i f = f s := by
  simp [State.runCommand, hb, hc]

/-- A command's next state is its acceptance or the next state of its phase. -/
theorem runCommand_next {s t : State} {i : Instr} {f : State → Host.Outcome State Fault Refusal}
    (h : s.runCommand i f = .next t) :
    (s.busy = false ∧ t = s.accept i) ∨ (s.busy = true ∧ s.command = some i ∧ f s = .next t) := by
  unfold State.runCommand at h
  split at h
  · split at h
    · exact .inr ⟨‹_›, ‹_›, h⟩
    · cases h
  · exact .inl ⟨by simpa using ‹¬ s.busy = true›, by cases h; rfl⟩

theorem orFault_next {α : Type} {r : Except Fault α} {go : α → Host.Outcome State Fault Refusal} {t : State}
    (h : orFault r go = .next t) : ∃ v, r = .ok v ∧ go v = .next t := by
  cases r with
  | ok v => exact ⟨v, rfl, h⟩
  | error f => cases h

theorem need_ok {α : Type} {r : Reg} {o : Option α} {v : α} (h : need r o = .ok v) : o = some v := by
  cases o <;> simp_all [need]

@[simp] theorem need_some {α : Type} (r : Reg) (v : α) : need r (some v) = .ok v := rfl
@[simp] theorem need_none {α : Type} (r : Reg) : need r (none : Option α) = .error (.unwritten r) := rfl

/-- The answer a bus read gets is the first answer to come (R5). -/
theorem nextAnswer_eq_answerAt (s : State) : s.nextAnswer = s.answerAt 0 := by
  unfold State.nextAnswer State.answerAt
  cases s.answers <;> simp

/-- A bus read, written out (R130). -/
theorem busRead_eq (s : State) (a : BusAddr) :
    s.busRead a =
      { s with answers := s.answers.tail, draws := s.draws + 1, trace := s.trace ++ [.read a (s.answerAt 0)] } := by
  rw [← nextAnswer_eq_answerAt]; rfl

theorem answerAt_busRead (s : State) (a : BusAddr) (j : Nat) : (s.busRead a).answerAt j = s.answerAt (j + 1) := by
  unfold State.answerAt
  cases h : s.answers <;> simp [h, Nat.add_assoc, Nat.add_comm 1 j]

theorem flagSet_eq (b mask : Byte) : flagSet b mask = true ↔ (b &&& mask) ≠ 0 := by simp [flagSet]

theorem flagSet_eq_false (b mask : Byte) : flagSet b mask = false ↔ (b &&& mask) = 0 := by simp [flagSet]

theorem framingOk_iff (l : Byte) : framingOk l = true ↔ 12 ≤ l.toNat ∧ l.toNat ≤ 14 := by
  have hmin : Config.minR1Msglen = 13 := rfl
  have hmax : Config.maxR1Msglen = 15 := rfl
  have hl : frameLength l = l.toNat + 1 := rfl
  simp only [framingOk, Bool.and_eq_true, decide_eq_true_eq]
  omega

/-! ### INIT and SETMODE -/

theorem initStep_next {s t : State} (h : initStep s = .next t) :
    (∃ k e, s.phase = .initCfg k ∧ s.config.cfg.entries[k]? = some e ∧
      t = ((if k = 0 then { s with initOk := false, modeOk := false } else s).busWrite
        (e.addr.setWidth 6) e.value).goto
        (if k + 1 < s.config.cfg.entries.length then .initCfg (k + 1) else .initVer)) ∨
    (s.phase = .initVer ∧ s.nextAnswer = Config.versionExpected ∧
      t = { s.busRead s.config.addrVersion with initOk := true }.finish .ok) ∨
    (s.phase = .initVer ∧ s.nextAnswer ≠ Config.versionExpected ∧
      t = (s.busRead s.config.addrVersion).finish .versionMismatch) := by
  unfold initStep at h
  split at h
  · rename_i k hp
    split at h
    · cases h
    · rename_i e he
      refine .inl ⟨k, e, hp, he, ?_⟩
      cases h
      split <;> rfl
  · dsimp only at h
    split at h <;> cases h
    · exact .inr (.inl ⟨‹_›, ‹_›, rfl⟩)
    · exact .inr (.inr ⟨‹_›, ‹_›, rfl⟩)
  · cases h

theorem setmodeStep_next {m : Target} {s t : State} (h : setmodeStep m s = .next t) :
    (s.phase = .smWrite ∧ s.initOk = true ∧ t = (s.writeOpmode m).goto (.smPoll 1)) ∨
    (s.phase = .smWrite ∧ s.initOk = false ∧ t = s.finish .notInitialised) ∨
    (∃ n, s.phase = .smPoll n ∧
      ((flagSet s.nextAnswer s.config.mModeready = true ∧
        t = { { s with idxI := some n }.busRead s.config.addrIrqflags1 with modeOk := true }.finish .ok) ∨
      (flagSet s.nextAnswer s.config.mModeready = false ∧ n < s.config.modePollMax ∧
        t = ({ s with idxI := some n }.busRead s.config.addrIrqflags1).goto (.smPoll (n + 1))) ∨
      (flagSet s.nextAnswer s.config.mModeready = false ∧ s.config.modePollMax ≤ n ∧
        t = ({ s with idxI := some n }.busRead s.config.addrIrqflags1).finish .timeout))) := by
  unfold setmodeStep at h
  split at h
  · split at h <;> cases h
    · exact .inl ⟨‹_›, ‹_›, rfl⟩
    · exact .inr (.inl ⟨‹_›, by simpa using ‹¬ s.initOk = true›, rfl⟩)
  · rename_i n hp
    refine .inr (.inr ⟨n, hp, ?_⟩)
    dsimp only at h
    split at h
    · cases h; exact .inl ⟨‹_›, rfl⟩
    · rename_i hf
      have hf : flagSet s.nextAnswer s.config.mModeready = false := by simpa using hf
      split at h <;> cases h
      · rename_i hn; exact .inr (.inl ⟨hf, hn, rfl⟩)
      · rename_i hn; exact .inr (.inr ⟨hf, Nat.le_of_not_lt hn, rfl⟩)
  · cases h

theorem illegalStep_next {s t : State} (h : illegalStep s = .next t) :
    s.phase = .codec ∧ t = s.finish .illegalCommand := by
  unfold illegalStep at h
  split at h <;> cases h
  exact ⟨‹_›, rfl⟩

/-! ### RECEIVE -/

theorem receivePoll_cases (n : Nat) (s : State) :
    (flagSet s.nextAnswer s.config.mPayloadrdy = true ∧
      receivePoll n s = ({ s with idxI := some n }.busRead s.config.addrIrqflags2).goto .rxLen) ∨
    (flagSet s.nextAnswer s.config.mPayloadrdy = false ∧ n < s.rxPolls.toNat ∧
      receivePoll n s = ({ s with idxI := some n }.busRead s.config.addrIrqflags2).goto (.rxPoll (n + 1))) ∨
    (flagSet s.nextAnswer s.config.mPayloadrdy = false ∧ s.rxPolls.toNat ≤ n ∧
      receivePoll n s = ({ s with idxI := some n }.busRead s.config.addrIrqflags2).finish .timeout) := by
  cases hf : flagSet s.nextAnswer s.config.mPayloadrdy
  · by_cases hn : n < s.rxPolls.toNat
    · exact .inr (.inl ⟨rfl, hn, by simp [receivePoll, hf, hn]⟩)
    · exact .inr (.inr ⟨rfl, Nat.le_of_not_lt hn, by simp [receivePoll, hf, hn]⟩)
  · exact .inl ⟨rfl, by simp [receivePoll, hf]⟩

theorem receiveStart_cases (s : State) :
    (s.initOk = false ∧ receiveStart s = s.finish .notInitialised) ∨
    (s.initOk = true ∧ (s.mode ≠ .rx ∨ s.modeOk = false) ∧ receiveStart s = s.finish .wrongMode) ∨
    (s.initOk = true ∧ s.mode = .rx ∧ s.modeOk = true ∧
      ((s.rxPolls.toNat = 0 ∧ receiveStart s = { s with flen := 0 }.finish .timeout) ∨
        (s.rxPolls.toNat ≠ 0 ∧ receiveStart s = receivePoll 1 { s with flen := 0 }))) := by
  unfold receiveStart
  cases hi : s.initOk
  · exact .inl ⟨rfl, by simp⟩
  · by_cases hm : s.mode ≠ .rx ∨ s.modeOk = false
    · exact .inr (.inl ⟨rfl, hm, by simp [hm]⟩)
    · refine .inr (.inr ⟨rfl, ?_⟩)
      have hm2 := not_or.mp hm
      refine ⟨by simpa using hm2.1, by simpa using hm2.2, ?_⟩
      by_cases hr : s.rxPolls.toNat = 0
      · exact .inl ⟨hr, by simp [hm, hr]⟩
      · exact .inr ⟨hr, by simp [hm, hr]⟩

theorem receiveLength_eq (s : State) :
    receiveLength s =
      { (s.busRead s.config.addrFifo).setFbuf 0 s.nextAnswer with lenL := some s.nextAnswer }.goto
        (if framingOk s.nextAnswer then .rxData 1 else .rxDrainFlag 1) := by
  unfold receiveLength; dsimp only; split <;> rfl

theorem receiveData_eq (j : Nat) (l : Byte) (s : State) :
    receiveData j l s =
      { (s.busRead s.config.addrFifo).setFbuf j s.nextAnswer with idxJ := some j }.goto
        (if j < l.toNat then .rxData (j + 1) else .rxOvr) := by
  unfold receiveData; dsimp only; split <;> rfl

theorem receiveOverrun_cases (l : Byte) (s : State) :
    (flagSet s.nextAnswer s.config.mFifooverrun = true ∧ s.config.ovrClear = .w1c ∧
      receiveOverrun l s = (s.busRead s.config.addrIrqflags2).goto .rxClr) ∨
    (flagSet s.nextAnswer s.config.mFifooverrun = true ∧ s.config.ovrClear = .none ∧
      receiveOverrun l s = (s.busRead s.config.addrIrqflags2).finish .overrun) ∨
    (flagSet s.nextAnswer s.config.mFifooverrun = false ∧
      receiveOverrun l s =
        { s.busRead s.config.addrIrqflags2 with flen := BitVec.ofNat 8 (frameLength l) }.finish .ok) := by
  cases hf : flagSet s.nextAnswer s.config.mFifooverrun
  · exact .inr (.inr ⟨rfl, by simp [receiveOverrun, hf]⟩)
  · cases hc : s.config.ovrClear
    · exact .inr (.inl ⟨rfl, rfl, by simp [receiveOverrun, hf, hc]⟩)
    · exact .inl ⟨rfl, rfl, by simp [receiveOverrun, hf, hc]⟩

theorem receiveDrainFlag_cases (d : Nat) (s : State) :
    (flagSet s.nextAnswer s.config.mFifonotempty = true ∧
      receiveDrainFlag d s = (s.busRead s.config.addrIrqflags2).goto (.rxDrainRead d)) ∨
    (flagSet s.nextAnswer s.config.mFifonotempty = false ∧
      receiveDrainFlag d s = (s.busRead s.config.addrIrqflags2).finish .badFraming) := by
  cases hf : flagSet s.nextAnswer s.config.mFifonotempty
  · exact .inr ⟨rfl, by simp [receiveDrainFlag, hf]⟩
  · exact .inl ⟨rfl, by simp [receiveDrainFlag, hf]⟩

theorem receiveDrainRead_cases (d : Nat) (s : State) :
    (d < 65 ∧ receiveDrainRead d s = (s.busRead s.config.addrFifo).goto (.rxDrainFlag (d + 1))) ∨
    (65 ≤ d ∧ receiveDrainRead d s = (s.busRead s.config.addrFifo).finish .badFraming) := by
  by_cases hd : d < 65
  · exact .inl ⟨hd, by simp [receiveDrainRead, Config.maxFifoBuffer, hd]⟩
  · exact .inr ⟨Nat.le_of_not_lt hd, by simp [receiveDrainRead, Config.maxFifoBuffer, hd]⟩

/-- Each next state of RECEIVE, by phase. -/
theorem receiveStep_next {s t : State} (h : receiveStep s = .next t) :
    (s.phase = .rxPoll 1 ∧ t = receiveStart s) ∨
    (∃ n, n ≠ 1 ∧ s.phase = .rxPoll n ∧ t = receivePoll n s) ∨
    (s.phase = .rxLen ∧ t = receiveLength s) ∨
    (∃ j l, s.phase = .rxData j ∧ 1 ≤ j ∧ j ≤ 14 ∧ s.lenL = some l ∧ t = receiveData j l s) ∨
    (∃ l, s.phase = .rxOvr ∧ s.lenL = some l ∧ t = receiveOverrun l s) ∨
    (s.phase = .rxClr ∧ t = (s.busWrite s.config.addrIrqflags2 s.config.mFifooverrun).finish .overrun) ∨
    (∃ d, s.phase = .rxDrainFlag d ∧ t = receiveDrainFlag d s) ∨
    (∃ d, s.phase = .rxDrainRead d ∧ t = receiveDrainRead d s) := by
  unfold receiveStep at h
  split at h
  · rename_i n hp
    cases h
    by_cases hn : n = 1
    · subst hn; exact .inl ⟨hp, by simp⟩
    · exact .inr (.inl ⟨n, hn, hp, by simp [hn]⟩)
  · cases h; exact .inr (.inr (.inl ⟨‹_›, rfl⟩))
  · rename_i j hp
    split at h
    · rename_i hj
      obtain ⟨l, hl, h⟩ := orFault_next h
      cases h
      exact .inr (.inr (.inr (.inl ⟨j, l, hp, hj.1, Nat.le_of_lt_succ hj.2, need_ok hl, rfl⟩)))
    · cases h
  · obtain ⟨l, hl, h⟩ := orFault_next h
    cases h
    exact .inr (.inr (.inr (.inr (.inl ⟨l, ‹_›, need_ok hl, rfl⟩))))
  · cases h; exact .inr (.inr (.inr (.inr (.inr (.inl ⟨‹_›, rfl⟩)))))
  · rename_i d hp; cases h; exact .inr (.inr (.inr (.inr (.inr (.inr (.inl ⟨d, hp, rfl⟩))))))
  · rename_i d hp; cases h; exact .inr (.inr (.inr (.inr (.inr (.inr (.inr ⟨d, hp, rfl⟩))))))
  · cases h

/-! ### TRANSMIT -/

theorem transmitData_next {j : Nat} {s t : State} (h : transmitData j s = .next t) :
    ∃ b, Memory.read s.fbuf j = some b ∧
      t = ({ s with idxJ := some j }.busWrite s.config.addrFifo b).goto
        (if j + 1 < s.flen.toNat then .txData (j + 1) else .txPoll 1) := by
  obtain ⟨b, hb, h⟩ := orFault_next h
  cases h
  exact ⟨b, need_ok hb, rfl⟩

theorem transmitPoll_cases (n : Nat) (s : State) :
    (flagSet s.nextAnswer s.config.mPacketsent = true ∧
      transmitPoll n s = ({ s with idxI := some n }.busRead s.config.addrIrqflags2).finish .ok) ∨
    (flagSet s.nextAnswer s.config.mPacketsent = false ∧ n < s.config.txPollMax ∧
      transmitPoll n s = ({ s with idxI := some n }.busRead s.config.addrIrqflags2).goto (.txPoll (n + 1))) ∨
    (flagSet s.nextAnswer s.config.mPacketsent = false ∧ s.config.txPollMax ≤ n ∧
      transmitPoll n s = ({ s with idxI := some n }.busRead s.config.addrIrqflags2).finish .timeout) := by
  cases hf : flagSet s.nextAnswer s.config.mPacketsent
  · by_cases hn : n < s.config.txPollMax
    · exact .inr (.inl ⟨rfl, hn, by simp [transmitPoll, hf, hn]⟩)
    · exact .inr (.inr ⟨rfl, Nat.le_of_not_lt hn, by simp [transmitPoll, hf, hn]⟩)
  · exact .inl ⟨rfl, by simp [transmitPoll, hf]⟩

/-- Each next state of TRANSMIT, by phase. -/
theorem transmitStep_next {s t : State} (h : transmitStep s = .next t) :
    (s.phase = .txData 0 ∧ s.initOk = false ∧ t = s.finish .notInitialised) ∨
    (s.phase = .txData 0 ∧ s.initOk = true ∧ (s.mode ≠ .tx ∨ s.modeOk = false) ∧ t = s.finish .wrongMode) ∨
    (s.phase = .txData 0 ∧ s.initOk = true ∧ s.mode = .tx ∧ s.modeOk = true ∧
      (s.flen.toNat = 0 ∨ 66 < s.flen.toNat) ∧ t = s.finish .badLength) ∨
    (∃ j b, s.phase = .txData j ∧
      (j = 0 → s.initOk = true ∧ s.mode = .tx ∧ s.modeOk = true ∧ s.flen.toNat ≠ 0 ∧ s.flen.toNat ≤ 66) ∧
      Memory.read s.fbuf j = some b ∧
      t = ({ s with idxJ := some j }.busWrite s.config.addrFifo b).goto
        (if j + 1 < s.flen.toNat then .txData (j + 1) else .txPoll 1)) ∨
    (∃ n, s.phase = .txPoll n ∧ t = transmitPoll n s) := by
  unfold transmitStep at h
  split at h
  · rename_i j hp
    split at h
    · rename_i hj
      subst hj
      unfold transmitStart at h
      split at h
      · cases h; exact .inl ⟨hp, ‹_›, rfl⟩
      · rename_i hi
        have hi : s.initOk = true := by simpa using hi
        split at h
        · cases h; exact .inr (.inl ⟨hp, hi, ‹_›, rfl⟩)
        · rename_i hm
          have hm := not_or.mp hm
          have hm1 : s.mode = .tx := by simpa using hm.1
          have hm2 : s.modeOk = true := by simpa using hm.2
          split at h
          · cases h; exact .inr (.inr (.inl ⟨hp, hi, hm1, hm2, ‹_›, rfl⟩))
          · rename_i hl
            have hl := not_or.mp hl
            obtain ⟨b, hb, ht⟩ := transmitData_next h
            exact .inr (.inr (.inr (.inl ⟨0, b, hp,
              fun _ => ⟨hi, hm1, hm2, hl.1, Nat.le_of_not_lt hl.2⟩, hb, ht⟩)))
    · rename_i hj
      obtain ⟨b, hb, ht⟩ := transmitData_next h
      exact .inr (.inr (.inr (.inl ⟨j, b, hp, fun h0 => absurd h0 hj, hb, ht⟩)))
  · rename_i n hp; cases h; exact .inr (.inr (.inr (.inr ⟨n, hp, rfl⟩)))
  · cases h

/-! ### The codec -/

/-- Each next state of ENCODE. -/
theorem encodeStep_next {s t : State} (h : encodeStep s = .next t) :
    s.phase = .codec ∧
    ((∃ c, encodedFrame s.config s.msg = .error (.finish c) ∧ t = s.finish c) ∨
      (∃ f, encodedFrame s.config s.msg = .ok f ∧
        t = { s with fbuf := Memory.writeBytes s.fbuf 0 f, flen := BitVec.ofNat 8 f.length }.finish .ok)) := by
  unfold encodeStep at h
  split at h
  · refine ⟨‹_›, ?_⟩
    split at h <;> cases h
    · exact .inl ⟨_, ‹_›, rfl⟩
    · exact .inr ⟨_, ‹_›, rfl⟩
  · cases h

/-- Each next state of DECODE. -/
theorem decodeStep_next {s t : State} (h : decodeStep s = .next t) :
    s.phase = .codec ∧
    ((∃ c, receivedFrame s = .error (.finish c) ∧ t = s.finish c) ∨
      (∃ f c, receivedFrame s = .ok f ∧ (parseFrame s.config f).status = .failed c ∧
        t = { s with parser := Parser.empty }.finish c) ∨
      (∃ f, receivedFrame s = .ok f ∧ (∀ c, (parseFrame s.config f).status ≠ .failed c) ∧
        t = { s with
          msg := s.msg.store (parseFrame s.config f).plain (parseFrame s.config f).recs, parser := Parser.empty }.finish .ok)) := by
  unfold decodeStep at h
  split at h
  · refine ⟨‹_›, ?_⟩
    split at h
    · cases h
    · cases h; exact .inl ⟨_, ‹_›, rfl⟩
    · rename_i f hf
      dsimp only at h
      split at h
      · cases h; exact .inr (.inl ⟨f, _, hf, ‹_›, rfl⟩)
      · rename_i hne
        cases h
        exact .inr (.inr ⟨f, hf, fun c hc => hne c hc, rfl⟩)
  · cases h

/-! ### One step of each command, by phase -/

theorem initStep_cfg {s : State} {k : Nat} {e : CfgEntry} (hp : s.phase = .initCfg k)
    (he : s.config.cfg.entries[k]? = some e) :
    initStep s = .next (((if k = 0 then { s with initOk := false, modeOk := false } else s).busWrite
      (e.addr.setWidth 6) e.value).goto
      (if k + 1 < s.config.cfg.entries.length then .initCfg (k + 1) else .initVer)) := by
  unfold initStep
  rw [hp]
  simp only [he]
  split <;> rfl

theorem initStep_ver {s : State} (hp : s.phase = .initVer) :
    initStep s = .next (if s.answerAt 0 = Config.versionExpected
      then { s.busRead s.config.addrVersion with initOk := true }.finish .ok
      else (s.busRead s.config.addrVersion).finish .versionMismatch) := by
  unfold initStep
  rw [hp, ← nextAnswer_eq_answerAt]
  dsimp only
  split <;> rfl

theorem setmodeStep_write {m : Target} {s : State} (hp : s.phase = .smWrite) :
    setmodeStep m s = .next (if s.initOk then (s.writeOpmode m).goto (.smPoll 1) else s.finish .notInitialised) := by
  unfold setmodeStep
  rw [hp]
  dsimp only
  split <;> rfl

theorem setmodeStep_poll {m : Target} {s : State} {n : Nat} (hp : s.phase = .smPoll n) :
    setmodeStep m s = .next (if flagSet (s.answerAt 0) s.config.mModeready
      then { { s with idxI := some n }.busRead s.config.addrIrqflags1 with modeOk := true }.finish .ok
      else if n < s.config.modePollMax
        then ({ s with idxI := some n }.busRead s.config.addrIrqflags1).goto (.smPoll (n + 1))
        else ({ s with idxI := some n }.busRead s.config.addrIrqflags1).finish .timeout) := by
  rw [← nextAnswer_eq_answerAt]
  unfold setmodeStep
  split
  · rename_i h; rw [hp] at h; cases h
  · rename_i h
    rw [hp] at h
    cases h
    rw [apply_ite Host.Outcome.next, apply_ite Host.Outcome.next]
    rfl
  · rename_i h; exact absurd hp (h n)

theorem receivePoll_eq (n : Nat) (s : State) :
    receivePoll n s = if flagSet (s.answerAt 0) s.config.mPayloadrdy
      then ({ s with idxI := some n }.busRead s.config.addrIrqflags2).goto .rxLen
      else if n < s.rxPolls.toNat
        then ({ s with idxI := some n }.busRead s.config.addrIrqflags2).goto (.rxPoll (n + 1))
        else ({ s with idxI := some n }.busRead s.config.addrIrqflags2).finish .timeout := by
  rw [← nextAnswer_eq_answerAt]; rfl

theorem receiveStep_poll {s : State} {n : Nat} (hp : s.phase = .rxPoll n) :
    receiveStep s = .next (if n = 1 then receiveStart s else receivePoll n s) := by
  unfold receiveStep; rw [hp]

theorem receiveStart_poll {s : State} (hi : s.initOk = true) (hm : s.mode = .rx) (hk : s.modeOk = true)
    (hr : s.rxPolls.toNat ≠ 0) : receiveStart s = receivePoll 1 { s with flen := 0 } := by
  simp [receiveStart, hi, hm, hk, hr]

theorem receiveStep_len {s : State} (hp : s.phase = .rxLen) :
    receiveStep s = .next (receiveLength s) := by unfold receiveStep; rw [hp]

theorem receiveStep_data {s : State} {j : Nat} {l : Byte} (hp : s.phase = .rxData j) (h1 : 1 ≤ j) (h14 : j ≤ 14)
    (hl : s.lenL = some l) : receiveStep s = .next (receiveData j l s) := by
  unfold receiveStep
  rw [hp, hl]
  exact if_pos ⟨h1, Nat.lt_succ_of_le h14⟩

theorem receiveStep_overrun {s : State} {l : Byte} (hp : s.phase = .rxOvr) (hl : s.lenL = some l) :
    receiveStep s = .next (receiveOverrun l s) := by
  unfold receiveStep; rw [hp, hl]; rfl

theorem receiveStep_clear {s : State} (hp : s.phase = .rxClr) :
    receiveStep s = .next ((s.busWrite s.config.addrIrqflags2 s.config.mFifooverrun).finish .overrun) := by
  unfold receiveStep; rw [hp]

theorem receiveStep_drainFlag {s : State} {d : Nat} (hp : s.phase = .rxDrainFlag d) :
    receiveStep s = .next (receiveDrainFlag d s) := by unfold receiveStep; rw [hp]

theorem receiveStep_drainRead {s : State} {d : Nat} (hp : s.phase = .rxDrainRead d) :
    receiveStep s = .next (receiveDrainRead d s) := by unfold receiveStep; rw [hp]

theorem transmitData_written {s : State} {j : Nat} {b : Byte} (hb : Memory.read s.fbuf j = some b) :
    transmitData j s = .next (({ s with idxJ := some j }.busWrite s.config.addrFifo b).goto
      (if j + 1 < s.flen.toNat then .txData (j + 1) else .txPoll 1)) := by
  simp [transmitData, State.fbufByte, hb, orFault]

theorem transmitStep_data {s : State} {j : Nat} (hp : s.phase = .txData j) :
    transmitStep s = if j = 0 then transmitStart s else transmitData j s := by unfold transmitStep; rw [hp]

theorem transmitStart_data {s : State} (hi : s.initOk = true) (hm : s.mode = .tx) (hk : s.modeOk = true)
    (h0 : s.flen.toNat ≠ 0) (h66 : s.flen.toNat ≤ 66) : transmitStart s = transmitData 0 s := by
  have h : ¬ (s.flen.toNat = 0 ∨ Config.maxFifoBuffer < s.flen.toNat) := by
    rintro (h | h)
    · exact h0 h
    · exact absurd h (Nat.not_lt.mpr h66)
  simp only [transmitStart, hi, hm, hk, if_neg h]
  simp

theorem transmitStep_poll {s : State} {n : Nat} (hp : s.phase = .txPoll n) :
    transmitStep s = .next (if flagSet (s.answerAt 0) s.config.mPacketsent
      then ({ s with idxI := some n }.busRead s.config.addrIrqflags2).finish .ok
      else if n < s.config.txPollMax
        then ({ s with idxI := some n }.busRead s.config.addrIrqflags2).goto (.txPoll (n + 1))
        else ({ s with idxI := some n }.busRead s.config.addrIrqflags2).finish .timeout) := by
  unfold transmitStep
  rw [hp, ← nextAnswer_eq_answerAt]
  rfl

/-! ### The host and the step -/

/-- Everything a step of the machine can do. -/
theorem step_next {s t : State} (h : step s = .next t) :
    s.config.wf = true ∧
    ((∃ rest, t = { s with host := rest }) ∨
      (∃ rest, s.host = .reset :: rest ∧ t = { s with host := rest }.hostReset) ∨
      (∃ c rest, s.busy = false ∧ s.host = .cmd c :: rest ∧ exec (decodeCommand c) { s with host := rest } = .next t) ∨
      (∃ r v rest, s.busy = false ∧ s.host = .write r v :: rest ∧ { s with host := rest }.hostWrite r v = some t) ∨
      (∃ r v rest, s.host = .read r :: rest ∧ t = { s with host := rest, reads := s.reads ++ [⟨r, v⟩] }) ∨
      (∃ i rest, s.busy = true ∧ s.command = some i ∧ (∀ l, s.host ≠ .reset :: l) ∧
        exec i { s with host := rest } = .next t)) := by
  unfold step machineStep at h
  split at h
  · refine ⟨‹_›, ?_⟩
    split at h
    · rename_i hh
      split at h
      · unfold controllerStep at h
        split at h
        · rename_i i hc
          refine .inr (.inr (.inr (.inr (.inr ⟨i, s.host, ‹_›, hc, by simp [hh], ?_⟩))))
          exact h
        · cases h
      · cases h; exact .inl ⟨s.host, rfl⟩
    · rename_i m rest hh
      unfold hostStep at h
      split at h
      · cases h; exact .inr (.inl ⟨rest, hh, rfl⟩)
      · split at h
        · cases h
        · rename_i hb; exact .inr (.inr (.inl ⟨_, rest, by simpa using hb, hh, h⟩))
      · split at h
        · cases h
        · rename_i hb
          split at h
          · cases h
          · cases h
            exact .inr (.inr (.inr (.inl ⟨_, _, rest, by simpa using hb, hh, ‹_›⟩)))
      · unfold State.hostRead at h
        split at h
        · cases h
        · split at h <;> cases h
          exact .inr (.inr (.inr (.inr (.inl ⟨_, _, rest, hh, rfl⟩))))
      · cases h
        split
        · exact .inl ⟨rest, rfl⟩
        · exact .inl ⟨[], rfl⟩
      · split at h
        · unfold controllerStep at h
          split at h
          · rename_i i hc
            exact .inr (.inr (.inr (.inr (.inr ⟨i, _, ‹_›, hc, by simp [hh], h⟩))))
          · cases h
        · cases h; exact .inl ⟨rest, rfl⟩
      · split at h
        · unfold controllerStep at h
          split at h
          · rename_i i hc
            exact .inr (.inr (.inr (.inr (.inr ⟨i, _, ‹_›, hc, by simp [hh], h⟩))))
          · cases h
        · cases h; exact .inl ⟨rest, rfl⟩
  · cases h

/-- A host read while BUSY = 0: the value of a written register is recorded (R39, R292). -/
theorem State.hostRead_written {s : State} {r : Reg} {v : BitVec 24} (hb : s.busy = false)
    (hv : s.hostValue r = some (some v)) : s.hostRead r = .next { s with reads := s.reads ++ [⟨r, v⟩] } := by
  unfold State.hostRead
  rw [if_neg (by simp [hb]), hv]

/-- A host read of an unwritten register is the model fault (R41). -/
theorem State.hostRead_unwritten {s : State} {r : Reg} (hb : s.busy = false) (hv : s.hostValue r = some none) :
    s.hostRead r = .fault (.unwritten r) := by
  unfold State.hostRead
  rw [if_neg (by simp [hb]), hv]

/-- The list of host moves is no register the host reads. -/
theorem State.hostValue_host (s : State) (rest : List HostMove) (r : Reg) :
    ({ s with host := rest } : State).hostValue r = s.hostValue r := by cases r <;> rfl

/-- A step with a host move to come is that move's. -/
theorem step_host {s : State} {m : HostMove} {rest : List HostMove} (hw : s.config.wf = true)
    (hh : s.host = m :: rest) : step s = hostStep m { s with host := rest } := by simp [step, machineStep, hw, hh]

/-- With a command running and no host move to come, the step is the command's. -/
theorem step_running {s : State} {i : Instr} (hw : s.config.wf = true) (hh : s.host = []) (hb : s.busy = true)
    (hc : s.command = some i) : step s = exec i s := by
  simp [step, machineStep, hw, hh, hb, controllerStep, hc]

end Sys2Proof.Machine
end

