-- ==== Sys2Proof/Laws/PerInstr.lean ====
section
/-! SUPPORT. Laws/PerInstr.lean: what holds of every instruction as syntax, one lemma per constructor. -/

namespace Sys2Proof.Laws.Roundtrip

/-- Decoding what the encoder writes gives the instruction back, with the bytes after it left alone (R90 to R100). -/
def Statement (i : Instr) : Prop :=
  i.wf = true → ∀ rest : List Byte, decodeAs i.format (encode i ++ rest) = .ok (i, rest)

theorem init : Statement .init := fun _ _ => rfl
theorem setmodeStandby : Statement .setmodeStandby := fun _ _ => rfl
theorem setmodeTx : Statement .setmodeTx := fun _ _ => rfl
theorem setmodeRx : Statement .setmodeRx := fun _ _ => rfl
theorem receive : Statement .receive := fun _ _ => rfl
theorem transmit : Statement .transmit := fun _ _ => rfl
theorem encode : Statement .encode := fun _ _ => rfl
theorem decode : Statement .decode := fun _ _ => rfl

theorem decodeCommand_illegal : ∀ (rsv m : BitVec 2) (op : BitVec 4), (Instr.illegal rsv m op).wf = true →
    decodeCommand (rsv ++ m ++ op) = .illegal rsv m op := by decide

theorem illegal (rsv m : BitVec 2) (op : BitVec 4) : Statement (.illegal rsv m op) := fun h rest => by
  simp [Instr.format, Sys2Proof.encode, decodeAs, decodeCommand_illegal rsv m op h]

theorem busAddressBits : ∀ a : BusAddr,
    (readAddressByte a)[6] = false ∧ (readAddressByte a)[7] = false ∧
    (readAddressByte a).extractLsb' 0 6 = a ∧ (writeAddressByte a)[6] = false ∧
    (writeAddressByte a)[7] = true ∧ (writeAddressByte a).extractLsb' 0 6 = a := by decide

theorem busRead (a : BusAddr) : Statement (.busRead a) := fun _ rest => by
  obtain ⟨h6, h7, ha, -, -, -⟩ := busAddressBits a
  simp [Instr.format, Sys2Proof.encode, decodeAs, decodeBus, h6, h7, ha]

theorem busWrite (a : BusAddr) (v : Byte) : Statement (.busWrite a v) := fun _ rest => by
  obtain ⟨-, -, -, h6, h7, ha⟩ := busAddressBits a
  simp [Instr.format, Sys2Proof.encode, decodeAs, decodeBus, h6, h7, ha]

theorem opmodeStandby : Statement .opmodeStandby := fun _ _ => rfl
theorem opmodeTx : Statement .opmodeTx := fun _ _ => rfl
theorem opmodeRx : Statement .opmodeRx := fun _ _ => rfl

/-- A type byte has its tag in bits 7:4 and its low nibble in bits 3:0 (R100). -/
theorem typeByteFields : ∀ tag low : BitVec 4,
    (typeByte tag low).extractLsb' 4 4 = tag ∧ (typeByte tag low).extractLsb' 0 4 = low := by decide

theorem typeRow {tag low : BitVec 4} {i : Instr} (hf : i.format = .recordType)
    (he : Sys2Proof.encode i = [typeByte tag low]) (hd : decodeType (typeByte tag low) = i) : Statement i :=
  fun _ rest => by simp [hf, he, decodeAs, hd]

theorem typeOtUint (low : BitVec 4) : Statement (.typeOtUint low) :=
  typeRow (tag := 0x0) rfl rfl (by simp [decodeType, typeByteFields])
theorem typeOtUint4 (low : BitVec 4) : Statement (.typeOtUint4 low) :=
  typeRow (tag := 0x1) rfl rfl (by simp [decodeType, typeByteFields])
theorem typeOtUint8 (low : BitVec 4) : Statement (.typeOtUint8 low) :=
  typeRow (tag := 0x2) rfl rfl (by simp [decodeType, typeByteFields])
theorem typeOtUint12 (low : BitVec 4) : Statement (.typeOtUint12 low) :=
  typeRow (tag := 0x3) rfl rfl (by simp [decodeType, typeByteFields])
theorem typeOtUint16 (low : BitVec 4) : Statement (.typeOtUint16 low) :=
  typeRow (tag := 0x4) rfl rfl (by simp [decodeType, typeByteFields])
theorem typeOtUint20 (low : BitVec 4) : Statement (.typeOtUint20 low) :=
  typeRow (tag := 0x5) rfl rfl (by simp [decodeType, typeByteFields])
theorem typeOtUint24 (low : BitVec 4) : Statement (.typeOtUint24 low) :=
  typeRow (tag := 0x6) rfl rfl (by simp [decodeType, typeByteFields])
theorem typeOtChar (low : BitVec 4) : Statement (.typeOtChar low) :=
  typeRow (tag := 0x7) rfl rfl (by simp [decodeType, typeByteFields])
theorem typeOtSint (low : BitVec 4) : Statement (.typeOtSint low) :=
  typeRow (tag := 0x8) rfl rfl (by simp [decodeType, typeByteFields])
theorem typeOtSint8 (low : BitVec 4) : Statement (.typeOtSint8 low) :=
  typeRow (tag := 0x9) rfl rfl (by simp [decodeType, typeByteFields])
theorem typeOtSint16 (low : BitVec 4) : Statement (.typeOtSint16 low) :=
  typeRow (tag := 0xA) rfl rfl (by simp [decodeType, typeByteFields])
theorem typeOtSint24 (low : BitVec 4) : Statement (.typeOtSint24 low) :=
  typeRow (tag := 0xB) rfl rfl (by simp [decodeType, typeByteFields])
theorem typeUnnamedC (low : BitVec 4) : Statement (.typeUnnamedC low) :=
  typeRow (tag := 0xC) rfl rfl (by simp [decodeType, typeByteFields])
theorem typeUnnamedD (low : BitVec 4) : Statement (.typeUnnamedD low) :=
  typeRow (tag := 0xD) rfl rfl (by simp [decodeType, typeByteFields])
theorem typeUnnamedE (low : BitVec 4) : Statement (.typeUnnamedE low) :=
  typeRow (tag := 0xE) rfl rfl (by simp [decodeType, typeByteFields])
theorem typeOtFloat (low : BitVec 4) : Statement (.typeOtFloat low) :=
  typeRow (tag := 0xF) rfl rfl (by simp [decodeType, typeByteFields])

theorem recordTerminator : Statement .recordTerminator := fun _ _ => rfl

end Sys2Proof.Laws.Roundtrip
end

