-- ==== Sys2Proof/Laws/Run.lean ====
section
/-! SUPPORT. Laws/Run.lean: runs of several steps, one step at a time. -/

namespace Sys2Proof.Machine

theorem run_zero (s : State) : Host.Core.run core 0 s = .next s := rfl

/-- A run that begins with a next state goes on from it. -/
theorem run_next {s t : State} (k : Nat) (h : step s = .next t) :
    Host.Core.run core (k + 1) s = Host.Core.run core k t := by
  have h' : core.step s = .next t := h
  simp [Host.Core.run, h']

/-- A run that begins with a fault ends there. -/
theorem run_fault {s : State} {f : Fault} (k : Nat) (h : step s = .fault f) :
    Host.Core.run core (k + 1) s = .fault f := by
  have h' : core.step s = .fault f := h
  simp [Host.Core.run, h']

/-- A run of a + b steps is a run of a steps and, from the state it reaches, one of b. -/
theorem run_add {t : State} (b a : Nat) : ∀ {s : State}, Host.Core.run core a s = .next t →
    Host.Core.run core (a + b) s = Host.Core.run core b t := by
  induction a with
  | zero => intro s h; cases h; rw [Nat.zero_add]
  | succ a ih =>
    intro s h
    cases hs : core.step s with
    | next u =>
      have h1 : Host.Core.run core (a + 1) s = Host.Core.run core a u := run_next a hs
      have h2 : Host.Core.run core (a + b + 1) s = Host.Core.run core (a + b) u := run_next _ hs
      rw [show a + 1 + b = a + b + 1 by omega, h2]
      exact ih (h1.symm.trans h)
    | fault f => simp [Host.Core.run, hs] at h
    | refused r => simp [Host.Core.run, hs] at h

end Sys2Proof.Machine
end

