-- ==== Sys2Proof/Tests/Slice0.lean ====
section
/-! SUPPORT. Tests/Slice0.lean: small tests. Expected values are those of spec/95_test_vectors.md, cited by their names (V-...),
or written out from the encodings of spec/30_encoding.md. Then, for each statement with hypotheses, a witness that meets
them together. -/

namespace Sys2Proof.Tests

open Sys2Proof Sys2Proof.Machine

set_option maxRecDepth 20000

/-! ### Helpers -/

/-- An outcome that is a next state with property p. -/
def nextIs (o : Host.Outcome State Fault Refusal) (p : State → Bool) : Bool :=
  match o with
  | .next t => p t
  | .fault _ => false
  | .refused _ => false

/-- A machine whose last command was a successful SETMODE to mode m. -/
def ready (m : Mode) : State := { State.reset with initOk := true, modeOk := true, mode := m }

/-- Command i at phase p, started from `ready m`. -/
def running (m : Mode) (i : Instr) (p : Phase) : State :=
  { ready m with busy := true, command := some i, phase := p }

/-- The command has finished with result c. -/
def finished (c : ResultCode) (t : State) : Bool :=
  t.result == c && !t.busy && t.phase == .idle && t.command == none

/-- F13, the frame of V-ENC-1. -/
def f13 : List Byte := [0x0C, 0x04, 0x02, 0xE1, 0xFD, 0x51, 0x90, 0x3C, 0x4D, 0x83, 0x9B, 0xC4, 0x30]

/-- The header of every ENCODE vector. -/
def header : Msg :=
  { Msg.reset with mfr := some 0x04, product := some 0x02, pip := some 0x1234, devid := some 0x0A1B2C }

/-- A record register (PID, TYPE, [v]) with one value byte. -/
def oneByte (pid type v : Byte) : MsgRec :=
  { MsgRec.unwritten.setVal 0 v with pid := some pid, type := some type, vlen := some 1 }

/-- The message of V-ENC-1: one record (0x73, 0x10, [0x01]). -/
def switchMsg : Msg := { header with nrec := 1 }.setRec 0 (oneByte 0x73 0x10 0x01)

/-- FBUF = F13 and FLEN = 13, at phase p of command i. -/
def withFrame (m : Mode) (i : Instr) (p : Phase) : State :=
  { running m i p with fbuf := Memory.writeBytes [] 0 f13, flen := 13 }

/-- DECODE about to run on FLEN = the length of f and FBUF = f. -/
def decoding (f : List Byte) : State :=
  { running .rx .decode .codec with fbuf := Memory.writeBytes [] 0 f, flen := BitVec.ofNat 8 f.length }

/-- ENCODE about to run on a message. -/
def encoding (m : Msg) : State := { running .rx .encode .codec with msg := m }

/-! ### WellFormed: one ill-formed term for each check (R9, R72, R92, R140) -/

theorem test_wf_reference : Config.reference.wf = true := by decide
theorem test_wf_illegal_refuses_a_legal_byte : (Instr.illegal 0 1 2).wf = false := by decide
theorem test_wf_illegal_accepts_an_illegal_byte : (Instr.illegal 0 1 3).wf = true := by decide
theorem test_wf_cfg_address :
    { Config.reference with cfg := { Config.reference.cfg with fdevMsb := ⟨0x40, 0⟩ } }.wf = false := by decide
theorem test_wf_nine_sync_bytes :
    { Config.reference with cfg := { Config.reference.cfg with sync := List.replicate 9 ⟨0x2F, 0⟩ } }.wf = false := by
  decide
theorem test_wf_mask_modeready : { Config.reference with mModeready := 0x81 }.wf = false := by decide
theorem test_wf_mask_fifonotempty : { Config.reference with mFifonotempty := 0 }.wf = false := by decide
theorem test_wf_mask_fifooverrun : { Config.reference with mFifooverrun := 0x30 }.wf = false := by decide
theorem test_wf_mask_packetsent : { Config.reference with mPacketsent := 0xFF }.wf = false := by decide
theorem test_wf_mask_payloadrdy : { Config.reference with mPayloadrdy := 0x06 }.wf = false := by decide
theorem test_wf_mode_poll_max : { Config.reference with modePollMax := 0 }.wf = false := by decide
theorem test_wf_tx_poll_max : { Config.reference with txPollMax := 0 }.wf = false := by decide

/-! ### Decoding: words written out bit by bit -/

/-- R91: RSV M OP = 00 00 0001 and so on. -/
theorem test_decode_commands :
    [0b00000001, 0b00000010, 0b00010010, 0b00100010, 0b00000011, 0b00000100, 0b00000101, 0b00000110].map
        (decodeTableWord 8) =
      [Instr.init, .setmodeStandby, .setmodeTx, .setmodeRx, .receive, .transmit, .encode, .decode].map some := by decide

/-- R92 and section 2.12 of 95_test_vectors.md: 0x00, 0x07, 0x0F, 0x13, 0x32, 0x42, 0x85, 0xFF. -/
theorem test_decode_illegal :
    [0b00000000, 0b00000111, 0b00001111, 0b00010011, 0b00110010, 0b01000010, 0b10000101, 0b11111111].map
        (decodeTableWord 8) =
      [Instr.illegal 0 0 0, .illegal 0 0 7, .illegal 0 0 15, .illegal 0 1 3, .illegal 0 3 2, .illegal 1 0 2,
        .illegal 2 0 5, .illegal 3 3 15].map some := by decide

/-- R94: W 0 a[5:0], then the data byte in bits 15:8. V-BUS-1, V-BUS-2, V-BUS-5. -/
theorem test_decode_bus :
    decodeTableWord 16 0b00000000_00010000 = some (.busRead 0x10) ∧
    decodeTableWord 16 0b00010000_10000001 = some (.busWrite 0x01 0x10) ∧
    decodeTableWord 16 0b10101010_10111111 = some (.busWrite 0x3F 0xAA) ∧
    decodeTableWord 16 0b00000000_01000000 = none := by decide

/-- R96: 0x04, 0x0C, 0x10. -/
theorem test_decode_opmodes :
    [0b00000100, 0b00001100, 0b00010000].map decodeOpmode =
      [.ok .opmodeStandby, .ok .opmodeTx, .ok .opmodeRx] ∧
    decodeOpmode 0b00001000 = .error .notAnOpmode := by decide

/-- R100: T[7:4] is the tag, T[3:0] the low nibble. -/
theorem test_decode_types :
    [0b00000101, 0b00010101, 0b00100101, 0b00110101, 0b01000101, 0b01010101, 0b01100101, 0b01110101, 0b10000101,
        0b10010101, 0b10100101, 0b10110101, 0b11000101, 0b11010101, 0b11100101, 0b11110101].map decodeType =
      [Instr.typeOtUint 5, .typeOtUint4 5, .typeOtUint8 5, .typeOtUint12 5, .typeOtUint16 5, .typeOtUint20 5,
        .typeOtUint24 5, .typeOtChar 5, .typeOtSint 5, .typeOtSint8 5, .typeOtSint16 5, .typeOtSint24 5,
        .typeUnnamedC 5, .typeUnnamedD 5, .typeUnnamedE 5, .typeOtFloat 5] := by decide

/-- R99: 0x00 alone is the terminator. -/
theorem test_decode_terminator :
    decodePid 0b00000000 = .ok .recordTerminator ∧ decodePid 0b00000001 = .error .notTheTerminator := by decide

/-- Section 2.8 of 95_test_vectors.md. -/
theorem test_width :
    [0x00, 0x10, 0x1F, 0x20, 0x30, 0x40, 0x50, 0x60, 0x70, 0x75, 0x7F, 0x80, 0x90, 0xA0, 0xB0, 0xC3, 0xD0, 0xE2, 0xF0,
        0xF3].map (width Config.reference) =
      [some 0, some 1, some 1, some 1, some 2, some 2, some 3, some 3, some 0, some 5, some 15, some 0, some 1, some 2,
        some 3, some 3, some 0, some 2, none, none] := by decide

/-- A fetched command byte is accepted as the first instruction after reset (R22, R90). -/
theorem test_fetch_init :
    nextIs (step (State.reset.withFetchWord 8 0x01)) (fun t => t.busy && t.command == some .init &&
      t.phase == .initCfg 0 && t.trace == []) = true := by decide

/-! ### One step of each instruction -/

/-- V-INIT-1: the first CFG write is W 02 00, and MODE_OK is cleared with it. -/
theorem test_init_first_write :
    nextIs (exec .init (running .rx .init (.initCfg 0))) (fun t => t.trace == [.write 0x02 0x00] && !t.modeOk &&
      !t.initOk && t.mode == .rx && t.phase == .initCfg 1) = true := by decide

/-- V-INIT-4: a version byte 0x23 is VERSION_MISMATCH; V-INIT-1: 0x24 is OK. -/
theorem test_init_version :
    nextIs (exec .init { State.reset with busy := true, command := some .init, phase := .initVer, answers := [0x23] })
      (fun t => finished .versionMismatch t && !t.initOk && t.trace == [.read 0x10 0x23]) = true ∧
    nextIs (exec .init { State.reset with busy := true, command := some .init, phase := .initVer, answers := [0x24] })
      (fun t => finished .ok t && t.initOk && t.trace == [.read 0x10 0x24]) = true := by decide

/-- V-SM-2: W 01 04. -/
theorem test_setmode_standby_write :
    nextIs (exec .setmodeStandby (running .rx .setmodeStandby .smWrite)) (fun t => t.trace == [.write 0x01 0x04] &&
      t.mode == .standby && !t.modeOk && t.phase == .smPoll 1) = true := by decide

/-- V-SM-4: NOT_INITIALISED with no bus transaction. -/
theorem test_setmode_standby_not_initialised :
    nextIs (exec .setmodeStandby { State.reset with busy := true, command := some .setmodeStandby, phase := .smWrite })
      (fun t => finished .notInitialised t && t.mode == .none && t.trace == []) = true := by decide

/-- V-SM-3: W 01 0C; after the fourth poll, with every bit but mode-ready set, TIMEOUT. -/
theorem test_setmode_tx_write :
    nextIs (exec .setmodeTx (running .rx .setmodeTx .smWrite)) (fun t => t.trace == [.write 0x01 0x0C] &&
      t.mode == .tx && !t.modeOk) = true := by decide
theorem test_setmode_tx_timeout :
    nextIs (exec .setmodeTx { running .tx .setmodeTx (.smPoll 4) with modeOk := false, answers := [0x7F] })
      (fun t => finished .timeout t && t.mode == .tx && !t.modeOk && t.trace == [.read 0x27 0x7F]) = true := by decide

/-- V-SM-1: W 01 10, then R 27 00 goes on and R 27 80 is OK. -/
theorem test_setmode_rx_poll_again :
    nextIs (exec .setmodeRx { running .rx .setmodeRx (.smPoll 1) with modeOk := false, answers := [0x00] })
      (fun t => t.busy && t.phase == .smPoll 2 && !t.modeOk && t.trace == [.read 0x27 0x00]) = true := by decide
theorem test_setmode_rx_ready :
    nextIs (exec .setmodeRx { running .rx .setmodeRx (.smPoll 2) with modeOk := false, answers := [0x80] })
      (fun t => finished .ok t && t.modeOk && t.trace == [.read 0x27 0x80]) = true := by decide

/-- V-RX-6, V-RX-7: L + 1 = 16 is drained, L + 1 = 15 is read. -/
theorem test_receive_framing_bound :
    nextIs (exec .receive { running .rx .receive .rxLen with answers := [0x0F] })
      (fun t => t.phase == .rxDrainFlag 1 && Memory.read t.fbuf 0 == some 0x0F && t.trace == [.read 0x00 0x0F]) = true ∧
    nextIs (exec .receive { running .rx .receive .rxLen with answers := [0x0E] })
      (fun t => t.phase == .rxData 1 && t.lenL == some 0x0E) = true := by decide

/-- V-RX-8: OVERRUN, and the clear write W 28 10. -/
theorem test_receive_overrun :
    nextIs (exec .receive { running .rx .receive .rxOvr with lenL := some 0x0C, answers := [0x10] })
      (fun t => t.phase == .rxClr && t.flen == 0 && t.trace == [.read 0x28 0x10]) = true ∧
    nextIs (exec .receive (running .rx .receive .rxClr))
      (fun t => finished .overrun t && t.trace == [.write 0x28 0x10]) = true := by decide

/-- V-TX-3: WRONG_MODE and no write; V-TX-1: the first FIFO write is W 00 0C. -/
theorem test_transmit_wrong_mode :
    nextIs (exec .transmit (withFrame .rx .transmit (.txData 0))) (fun t => finished .wrongMode t && t.trace == []) =
      true := by decide
theorem test_transmit_first_byte :
    nextIs (exec .transmit (withFrame .tx .transmit (.txData 0))) (fun t => t.trace == [.write 0x00 0x0C] &&
      t.phase == .txData 1) = true := by decide

/-- V-ENC-1. -/
theorem test_encode_switch :
    nextIs (exec .encode (encoding switchMsg)) (fun t => finished .ok t && t.flen == 13 &&
      (List.range 14).map (Memory.read t.fbuf) == f13.map some ++ [none]) = true := by decide

/-- V-ENC-10: a record with PID 0x00 is MALFORMED_RECORD and FLEN is unchanged. -/
theorem test_encode_terminator_record :
    nextIs (exec .encode { encoding ({ header with nrec := 1 }.setRec 0 (oneByte 0x00 0x10 0x01)) with flen := 7 })
      (fun t => finished .malformedRecord t && t.flen == 7 && t.fbuf == []) = true := by decide

/-- V-DEC-1. -/
theorem test_decode_switch :
    nextIs (exec .decode (decoding f13)) (fun t => finished .ok t && t.msg == switchMsg && t.parser == Parser.empty) =
      true := by decide

/-- V-DEC-12: bit 0 of byte 9 flipped is CHECKSUM_FAILED. -/
theorem test_decode_flipped_bit :
    nextIs (exec .decode (decoding [0x0C, 0x04, 0x02, 0xE1, 0xFD, 0x51, 0x90, 0x3C, 0x4D, 0x82, 0x9B, 0xC4, 0x30]))
      (fun t => finished .checksumFailed t && t.msg == Msg.reset) = true := by decide

/-- Section 2.12 of 95_test_vectors.md: byte 0x13. -/
theorem test_illegal :
    nextIs (exec (.illegal 0 1 3) (running .tx (.illegal 0 1 3) .codec)) (fun t => finished .illegalCommand t &&
      t.trace == [] && t.mode == .tx && t.modeOk) = true := by decide

/-- V-BUS-1 and V-BUS-5: the trace and the wire bytes. -/
theorem test_bus :
    nextIs (exec (.busRead 0x10) { State.reset with answers := [0x24, 0x11] }) (fun t => t.trace == [.read 0x10 0x24] &&
      t.answers == [0x11]) = true ∧
    nextIs (exec (.busWrite 0x3F 0xAA) State.reset) (fun t => t.trace == [.write 0x3F 0xAA]) = true ∧
    (BusEvent.read 0x10 0x24).wire = [0x10, 0x24] ∧ (BusEvent.write 0x3F 0xAA).wire = [0xBF, 0xAA] := by decide

/-- S2: 0x04, 0x0C, 0x10. -/
theorem test_opmodes :
    nextIs (exec .opmodeStandby (ready .rx)) (fun t => t.trace == [.write 0x01 0x04] && t.mode == .standby) = true ∧
    nextIs (exec .opmodeTx (ready .rx)) (fun t => t.trace == [.write 0x01 0x0C] && t.mode == .tx && !t.modeOk) = true ∧
    nextIs (exec .opmodeRx (ready .tx)) (fun t => t.trace == [.write 0x01 0x10] && t.mode == .rx && !t.modeOk) = true := by
  decide

/-- A parse of `bytes` standing at offset 8, with the checksum after them. -/
def parsing (bytes : List Byte) : State :=
  { State.reset with
    parser := { Parser.start (List.replicate 8 0xEE ++ bytes ++ [0x99]) (bytes.length + 9) with status := .running } }

/-- The widths of section 2.8 of 95_test_vectors.md, taken from six bytes: the position after each row. -/
theorem test_type_rows :
    [Instr.typeOtUint 0, .typeOtUint4 0xF, .typeOtUint8 0, .typeOtUint12 0, .typeOtUint16 0, .typeOtUint20 0,
        .typeOtUint24 0, .typeOtChar 4, .typeOtSint 0, .typeOtSint8 0, .typeOtSint16 0, .typeOtSint24 0, .typeUnnamedC 3,
        .typeUnnamedD 0, .typeUnnamedE 2].map
        (fun i => match exec i (parsing [0x73, 0x10, 1, 2, 3, 4]) with | .next t => t.parser.pos | _ => 0) =
      [10, 11, 11, 12, 12, 13, 13, 14, 10, 11, 12, 13, 13, 10, 12] := by decide

/-- V-DEC-20: FLOAT is UNSUPPORTED_TYPE whatever its low nibble; V-DEC-17: a value that reaches the checksum. -/
theorem test_type_errors :
    nextIs (exec (.typeOtFloat 3) (parsing [0x73, 0xF3])) (fun t => t.parser.status == .failed .unsupportedType) = true ∧
    nextIs (exec (.typeOtUint16 0) (parsing [0x73, 0x40, 0x00]))
      (fun t => t.parser.status == .failed .malformedRecord) = true ∧
    nextIs (exec (.typeOtChar 15) (parsing [0x73, 0x7F])) (fun t => t.parser.status == .failed .malformedRecord) =
      true := by decide

/-- V-DEC-4 and V-DEC-18: the terminator last, and with a byte after it. -/
theorem test_terminator :
    nextIs (exec .recordTerminator (parsing [0x00])) (fun t => t.parser.status == .done) = true ∧
    nextIs (exec .recordTerminator (parsing [0x00, 0x55])) (fun t => t.parser.status == .failed .malformedRecord) =
      true := by decide

/-- V-KS-1, V-KS-2. -/
theorem test_keystream :
    seed Config.reference 0x02 = 0xF202 ∧ keystreamStep 0xF202 = 0x7901 ∧ keystreamStep 0x7901 = 0xC975 ∧
    (List.range 9).map (keystream Config.reference 0xF202) = [0xF3, 0xC9, 0x5B, 0x8B, 0x10, 0x3E, 0x93, 0x9A, 0xC4] := by decide

/-- R9: KS, SEED and WIDTH are parameters; here each departs from its default at one argument, and the FLOAT byte 0xF3 stays
UNSUPPORTED (R200). -/
def departing : Config :=
  { Config.reference with
    ks := [⟨0xF202, 0, 0x11⟩], seeds := [⟨0x05, 0x1234⟩], widths := [⟨0x10, 4⟩, ⟨0xF3, 2⟩] }

theorem test_parameters :
    keystream departing 0xF202 0 = 0x11 ∧ keystream departing 0xF202 1 = 0xC9 ∧ seed departing 0x05 = 0x1234 ∧
    seed departing 0x02 = 0xF202 ∧ width departing 0x10 = some 4 ∧ width departing 0x11 = some 1 ∧
    width departing 0xF3 = none ∧ departing.wf = true := by decide

/-- P1's end state: STATUS = 0x0260. -/
theorem test_status_bits : { ready .rx with result := .ok }.status = 0x0260 := by decide

/-! ### Witnesses: for each statement with hypotheses, values that meet them together, each clause at a boundary -/

theorem test_witness_CommandBytesExactlyEight :
    (0x07 : Byte) ∉ [0x01, 0x02, 0x12, 0x22, 0x03, 0x04, 0x05, 0x06] := by decide

/-- One byte for each way of R92: RSV, OP = 0, OP = 7, M with another OP, M = 11 with OP = 2. -/
theorem test_witness_IllegalCommandFinishes :
    (∀ c ∈ ([0x42, 0x00, 0x07, 0x13, 0x32] : List Byte),
      c.extractLsb' 6 2 ≠ 0 ∨ c.extractLsb' 0 4 = 0 ∨ 7 ≤ (c.extractLsb' 0 4).toNat ∨
        (c.extractLsb' 4 2 ≠ 0 ∧ c.extractLsb' 0 4 ≠ 2) ∨ (c.extractLsb' 0 4 = 2 ∧ c.extractLsb' 4 2 = 3)) ∧
    State.reset.busy = false ∧
    (running .rx (.illegal 0 1 3) .codec).Running (.illegal 0 1 3) (firstPhase (.illegal 0 1 3)) :=
  ⟨by decide, rfl, rfl, rfl, rfl⟩

theorem test_witness_DecodeEncodeAgree :
    (Instr.illegal 3 3 15).wf = true ∧ decodeAs .busAddr [0xBF, 0xAA, 0x01] = .ok (.busWrite 0x3F 0xAA, [0x01]) := by
  decide

theorem test_witness_HostResetAtAnyTime :
    let s : State := { running .rx .receive (.rxPoll 2) with host := [.reset, .tick] }
    s.config.wf = true ∧ s.host = .reset :: [.tick] ∧
    State.reset.config.wf = true ∧ State.reset.busy = false ∧ State.reset.host = [] := by decide

theorem test_witness_StatusWord :
    let s : State := { running .rx .receive (.rxPoll 2) with host := [.read .status] }
    let t : State := { State.reset with host := [.write .status 1] }
    s.config.wf = true ∧ s.host = .read .status :: [] ∧ t.config.wf = true ∧ t.host = .write .status 1 :: [] := by decide

/-- Clause by clause: a busy block with each access; an idle one writing, and reading, at the greatest indices; and what the
reads of written and of unwritten registers find. -/
theorem test_witness_HostAccessOnlyWhileIdle :
    (∀ m ∈ [HostMove.cmd 0x03, .write .flen 1, .read .flen],
      let s : State := { running .rx .receive (.rxPoll 2) with host := [m] }
      s.config.wf = true ∧ s.busy = true ∧ s.host = m :: []) ∧
    (∀ m ∈ [HostMove.write .rxPolls 8, .write .flen 255, .write (.fbuf 65) 1, .write .msgMfr 1, .write .msgProduct 1,
        .write .msgPip 1, .write .msgDevid 1, .write .msgNrec 31, .write (.recPid 27) 1, .write (.recType 27) 1,
        .write (.recVlen 27) 15, .write (.recVal 27 14) 1, .read .flen, .read (.fbuf 0), .read (.fbuf 65), .read .msgMfr,
        .read .msgProduct, .read .msgPip, .read .msgDevid, .read .msgNrec, .read (.recPid 27), .read (.recType 27),
        .read (.recVlen 27), .read (.recVal 27 14)],
      let s : State := { withFrame .rx .receive .idle with busy := false, command := none, host := [m] }
      s.config.wf = true ∧ s.busy = false ∧ s.host = m :: []) ∧
    (let s : State := withFrame .rx .receive .idle;
      (Memory.read s.fbuf 12).isSome = true ∧ Memory.read s.fbuf 65 = none ∧ s.msg.mfr = none ∧
      (s.msg.recAt 27).valAt 14 = none ∧ (switchMsg.recAt 0).valAt 0 = some 0x01) := by decide

/-- A write of TYPE in record 27 and one of VAL[14], and nothing else in that record. -/
theorem test_host_record_write :
    nextIs (step { State.reset with msg := switchMsg, host := [.write (.recType 0) 0x40] })
      (fun t => t.msg.recAt 0 == { switchMsg.recAt 0 with type := some 0x40 }) = true ∧
    nextIs (step { State.reset with host := [.write (.recVal 27 14) 0xAB] })
      (fun t => (t.msg.recAt 27).valAt 14 == some 0xAB && (t.msg.recAt 27).valAt 13 == none &&
        (t.msg.recAt 27).vlen == none) = true := by decide

/-- The written value is cut to the register: 0x1FF in the 8 bits of FBUF[65], 0x3F in the 5 bits of MSG_NREC. -/
theorem test_witness_HostReadsBackWrites :
    (State.reset.hostWrite (.fbuf 65) 0x1FF).bind (·.hostValue (.fbuf 65)) = some (some 0xFF) ∧
    (State.reset.hostWrite .msgNrec 0x3F).bind (·.hostValue .msgNrec) = some (some 0x1F) ∧
    (State.reset.hostWrite (.recVal 27 14) 0x1AB).bind (·.hostValue (.recVal 27 14)) = some (some 0xAB) := by decide

theorem test_witness_StepRunsDecodedInstruction :
    let s : State := { ready .rx with host := [.cmd 0x03] }
    let t : HostMove → State := fun m => { running .rx .receive (.rxPoll 1) with host := [m] }
    s.config.wf = true ∧ s.busy = false ∧ s.host = .cmd 0x03 :: [] ∧
    (running .rx .receive (.rxPoll 1)).host = [] ∧
    (∀ m ∈ [HostMove.wait, .tick], (t m).config.wf = true ∧ (t m).busy = true ∧ (t m).command = some .receive ∧
      (t m).host = m :: []) := by decide

theorem test_witness_CommandAcceptedAtFirstPhase :
    Instr.init.format = .cmd ∧ (Instr.illegal 0 1 3).format = .cmd ∧ State.reset.busy = false := by decide

/-- Both clauses: SETMODE with INIT_OK = 0, and a DECODE that finishes. -/
theorem test_witness_InitialisationGate :
    let s : State := { State.reset with busy := true, command := some .setmodeRx, phase := .smWrite }
    s.Running .setmodeRx (firstPhase .setmodeRx) ∧ s.initOk = false ∧
    nextIs (exec .decode (decoding [])) (fun t => !t.busy && t.result == .malformedRecord) = true :=
  ⟨⟨rfl, rfl, rfl⟩, rfl, by decide⟩

theorem test_witness_InitVersionDecides : (running .rx .init .initVer).Running .init .initVer := ⟨rfl, rfl, rfl⟩

theorem test_witness_InitWritesProgramThenReadsVersion :
    let s := running .rx .init (.initCfg 0)
    s.config.wf = true ∧ s.Running .init (.initCfg 0) ∧ s.host = [] := ⟨by decide, ⟨rfl, rfl, rfl⟩, rfl⟩

theorem test_witness_RegisterProgramLength :
    Config.reference.wf = true ∧ 1 < Config.reference.cfg.sync.length ∧
    Config.reference.cfg.entries.map (·.addr) =
      [0x02, 0x05, 0x06, 0x07, 0x08, 0x09, 0x0B, 0x18, 0x19, 0x1E, 0x29, 0x2D, 0x2E, 0x2F, 0x30, 0x37, 0x38, 0x39, 0x3C] := by
  decide

/-- The write; and the polls 1 and 4 = MODE_POLL_MAX with the flag set and clear. -/
theorem test_witness_SetmodeSteps :
    setmodeTarget .setmodeTx = some .tx ∧ (running .rx .setmodeTx .smWrite).Running .setmodeTx .smWrite ∧
    (running .rx .setmodeTx .smWrite).initOk = true ∧
    (∀ n, (running .tx .setmodeTx (.smPoll n)).Running .setmodeTx (.smPoll n)) ∧
    (let s : State := { running .tx .setmodeTx (.smPoll 1) with answers := [0x80] };
      (s.answerAt 0 &&& s.config.mModeready) ≠ 0) ∧
    (let s : State := { running .tx .setmodeTx (.smPoll 4) with answers := [0x7F] };
      (s.answerAt 0 &&& s.config.mModeready) = 0 ∧ 3 < s.config.modePollMax ∧ ¬ 4 < s.config.modePollMax) :=
  ⟨rfl, ⟨rfl, rfl, rfl⟩, rfl, fun _ => ⟨rfl, rfl, rfl⟩, by decide, by decide⟩

/-- V-SM-1 (k = 2), V-SM-3 (k = MODE_POLL_MAX = 4) and V-SM-4. -/
theorem test_witness_SetmodeWholeCommand :
    let s : State := { running .rx .setmodeRx .smWrite with answers := [0x00, 0x80] }
    let t : State := { running .rx .setmodeTx .smWrite with answers := [0x7F, 0x7F, 0x7F, 0x7F] }
    let u : State := { State.reset with busy := true, command := some .setmodeStandby, phase := .smWrite }
    (setmodeTarget .setmodeRx = some .rx ∧ s.config.wf = true ∧ s.Running .setmodeRx .smWrite ∧ s.host = [] ∧
      s.initOk = true ∧ (1 ≤ 2 ∧ 2 ≤ s.config.modePollMax) ∧
      (∀ j, j < 2 - 1 → (s.answerAt j &&& s.config.mModeready) = 0) ∧
      (s.answerAt (2 - 1) &&& s.config.mModeready) ≠ 0) ∧
    (t.initOk = true ∧ (∀ j, j < 4 - 1 → (t.answerAt j &&& t.config.mModeready) = 0) ∧ 4 = t.config.modePollMax) ∧
    u.Running .setmodeStandby .smWrite ∧ u.initOk = false :=
  ⟨⟨rfl, by decide, ⟨rfl, rfl, rfl⟩, rfl, rfl, by decide, by decide, by decide⟩, by decide, ⟨rfl, rfl, rfl⟩, rfl⟩

/-- The gate with MODE = TX; RX_POLLS = 0; and polls 1 and 8 = RX_POLLS, set and clear. -/
theorem test_witness_ReceiveGateAndPolls :
    let p : Nat → Byte → State := fun n v => { running .rx .receive (.rxPoll n) with rxPolls := 8, answers := [v] }
    ((running .tx .receive (.rxPoll 1)).Running .receive (.rxPoll 1) ∧ (running .tx .receive (.rxPoll 1)).initOk = true ∧
      (running .tx .receive (.rxPoll 1)).mode ≠ .rx) ∧
    ((running .rx .receive (.rxPoll 1)).mode = .rx ∧ (running .rx .receive (.rxPoll 1)).modeOk = true ∧
      (running .rx .receive (.rxPoll 1)).rxPolls = 0) ∧
    (∀ n v, (p n v).Running .receive (.rxPoll n) ∧ (p n v).initOk = true ∧ (p n v).mode = .rx ∧ (p n v).modeOk = true ∧
      (p n v).rxPolls ≠ 0) ∧
    ((p 1 0x44).answerAt 0 &&& (p 1 0x44).config.mPayloadrdy) ≠ 0 ∧
    ((p 8 0xFB).answerAt 0 &&& (p 8 0xFB).config.mPayloadrdy) = 0 ∧ 7 < (p 8 0).rxPolls.toNat ∧
    ¬ 8 < (p 8 0).rxPolls.toNat :=
  ⟨⟨⟨rfl, rfl, rfl⟩, rfl, by decide⟩, ⟨rfl, rfl, rfl⟩,
    fun _ _ => ⟨⟨rfl, rfl, rfl⟩, rfl, rfl, rfl, show (8 : BitVec 16) ≠ 0 by decide⟩, by decide, by decide, by decide,
    by decide⟩

/-- V-RX-4 to V-RX-7 and F13: L = 0x0B, 0x0F and 0xFF are drained, L = 0x0C and 0x0E are read. -/
theorem test_witness_ReceiveFramingBound :
    (running .rx .receive .rxLen).Running .receive .rxLen ∧
    ([0x0B, 0x0C, 0x0E, 0x0F, 0xFF] : List Byte).map (fun l =>
        match exec .receive { running .rx .receive .rxLen with answers := [l] } with | .next t => t.phase | _ => .idle) =
      [.rxDrainFlag 1, .rxData 1, .rxData 1, .rxDrainFlag 1, .rxDrainFlag 1] := ⟨⟨rfl, rfl, rfl⟩, by decide⟩

/-- V-RX-4 and V-RX-10: the flag clear; the 64th and the 65th byte. -/
theorem test_witness_DrainDiscardsAtMost65 :
    (∀ d, (running .rx .receive (.rxDrainFlag d)).Running .receive (.rxDrainFlag d)) ∧
    (∀ d, (running .rx .receive (.rxDrainRead d)).Running .receive (.rxDrainRead d)) ∧
    nextIs (exec .receive { running .rx .receive (.rxDrainFlag 65) with answers := [0x40] })
      (fun t => t.phase == .rxDrainRead 65) = true ∧
    nextIs (exec .receive { running .rx .receive (.rxDrainFlag 4) with answers := [0x00] }) (finished .badFraming) =
      true ∧
    nextIs (exec .receive { running .rx .receive (.rxDrainRead 64) with answers := [0x40] })
      (fun t => t.phase == .rxDrainFlag 65) = true ∧
    nextIs (exec .receive { running .rx .receive (.rxDrainRead 65) with answers := [0x40] }) (finished .badFraming) =
      true :=
  ⟨fun _ => ⟨rfl, rfl, rfl⟩, fun _ => ⟨rfl, rfl, rfl⟩, by decide, by decide, by decide, by decide⟩

/-- V-RX-7: bytes 1 and 14 of a frame with L = 0x0E. -/
theorem test_witness_ReceiveDataIntoFrameBuffer :
    let s : Nat → State := fun j => { running .rx .receive (.rxData j) with lenL := some 0x0E, answers := [0x11] }
    (∀ j, (s j).Running .receive (.rxData j) ∧ (s j).lenL = some 0x0E) ∧
    nextIs (exec .receive (s 1)) (fun t => t.phase == .rxData 2 && Memory.read t.fbuf 1 == some 0x11) = true ∧
    nextIs (exec .receive (s 14)) (fun t => t.phase == .rxOvr && Memory.read t.fbuf 14 == some 0x11) = true :=
  ⟨fun _ => ⟨⟨rfl, rfl, rfl⟩, rfl⟩, by decide, by decide⟩

/-- V-RX-1, V-RX-8, V-RX-9: no overrun; overrun with W1C; overrun with NONE (flags 0x14). -/
theorem test_witness_ReceiveOverrunCheck :
    let s : OvrClear → Byte → State := fun o v =>
      { running .rx .receive .rxOvr with
        lenL := some 0x0C, answers := [v], config := { Config.reference with ovrClear := o } }
    (∀ o v, (s o v).Running .receive .rxOvr ∧ (s o v).lenL = some 0x0C) ∧
    (running .rx .receive .rxClr).Running .receive .rxClr ∧
    nextIs (exec .receive (s .w1c 0x00)) (fun t => finished .ok t && t.flen == 13) = true ∧
    nextIs (exec .receive (s .w1c 0x10)) (fun t => t.phase == .rxClr) = true ∧
    nextIs (exec .receive (s .none 0x14)) (fun t => finished .overrun t && t.trace == [.read 0x28 0x14]) = true :=
  ⟨fun _ _ => ⟨⟨rfl, rfl, rfl⟩, rfl⟩, ⟨rfl, rfl, rfl⟩, by decide, by decide, by decide⟩

/-- V-RX-1: p = 2, l = 12. -/
theorem test_witness_ReceiveGoodFrame :
    let s : State := { running .rx .receive (.rxPoll 1) with rxPolls := 8, answers := [0x00, 0x44] ++ f13 ++ [0x00] }
    s.config.wf = true ∧ s.Running .receive (.rxPoll 1) ∧ s.host = [] ∧ s.initOk = true ∧ s.mode = .rx ∧
    s.modeOk = true ∧ 1 ≤ 2 ∧ 2 ≤ s.rxPolls.toNat ∧
    (∀ j, j < 2 - 1 → (s.answerAt j &&& s.config.mPayloadrdy) = 0) ∧
    (s.answerAt (2 - 1) &&& s.config.mPayloadrdy) ≠ 0 ∧ (s.answerAt 2).toNat = 12 ∧
    (s.answerAt (2 + 1 + 12) &&& s.config.mFifooverrun) = 0 :=
  ⟨by decide, ⟨rfl, rfl, rfl⟩, rfl, rfl, rfl, rfl, by decide, by decide, by decide, by decide, by decide, by decide⟩

/-- V-TX-8, V-TX-3, V-TX-4, V-TX-5; FLEN = 66 (V-TX-6) is not refused: its first byte, unwritten here, is asked for. -/
theorem test_witness_TransmitPreconditions :
    let s := running .tx .transmit (.txData 0)
    s.Running .transmit (.txData 0) ∧ s.initOk = true ∧ s.mode = .tx ∧ s.modeOk = true ∧
    { s with initOk := false }.initOk = false ∧ (running .rx .transmit (.txData 0)).mode ≠ .tx ∧
    nextIs (exec .transmit { s with flen := 0 }) (finished .badLength) = true ∧
    nextIs (exec .transmit { s with flen := 67 }) (finished .badLength) = true ∧
    (match exec .transmit { s with flen := 66 } with | .fault f => some f | _ => none) = some (.unwritten (.fbuf 0)) ∧
    (∀ n ∈ [(1 : BitVec 8), 66],
      let t : State := { withFrame .tx .transmit (.txData 0) with flen := n }
      1 ≤ t.flen.toNat ∧ t.flen.toNat ≤ 66 ∧ Memory.read t.fbuf 0 = some 0x0C) :=
  ⟨⟨rfl, rfl, rfl⟩, rfl, rfl, rfl, rfl, by decide, by decide, by decide, by decide, by decide⟩

/-- V-TX-1: the first and the last byte of F13; and a byte that is unwritten. -/
theorem test_witness_TransmitLoadsFifo :
    let s := withFrame .tx .transmit (.txData 0)
    let t := withFrame .tx .transmit (.txData 12)
    let u : State := { withFrame .tx .transmit (.txData 13) with flen := 14 }
    (s.Running .transmit (.txData 0) ∧ s.initOk = true ∧ s.mode = .tx ∧ s.modeOk = true ∧ s.flen ≠ 0 ∧
      s.flen.toNat ≤ 66 ∧ Memory.read s.fbuf 0 = some 0x0C) ∧
    t.Running .transmit (.txData 12) ∧ Memory.read t.fbuf 12 = some 0x30 ∧
    nextIs (exec .transmit t) (fun v => v.phase == .txPoll 1) = true ∧
    u.Running .transmit (.txData 13) ∧ Memory.read u.fbuf 13 = none :=
  ⟨⟨⟨rfl, rfl, rfl⟩, rfl, rfl, rfl, by decide, by decide, by decide⟩, ⟨rfl, rfl, rfl⟩, by decide, by decide,
    ⟨rfl, rfl, rfl⟩, by decide⟩

/-- V-TX-1, V-TX-2: poll 3 of 4 goes on, poll 4 ends. -/
theorem test_witness_TransmitPolls :
    let s : Nat → Byte → State := fun n v => { running .tx .transmit (.txPoll n) with answers := [v] }
    (∀ n v, (s n v).Running .transmit (.txPoll n)) ∧
    nextIs (exec .transmit (s 1 0x08)) (finished .ok) = true ∧
    nextIs (exec .transmit (s 3 0xF7)) (fun t => t.phase == .txPoll 4) = true ∧
    nextIs (exec .transmit (s 4 0xF7)) (finished .timeout) = true :=
  ⟨fun _ _ => ⟨rfl, rfl, rfl⟩, by decide, by decide, by decide⟩

/-- V-TX-1 (k = 2) and V-TX-2 (k = TX_POLL_MAX = 4). -/
theorem test_witness_TransmitWholeCommand :
    let s : State := { withFrame .tx .transmit (.txData 0) with answers := [0x00, 0x08] }
    let t : State := { withFrame .tx .transmit (.txData 0) with answers := [0x00, 0x00, 0x00, 0x00] }
    (s.config.wf = true ∧ s.Running .transmit (.txData 0) ∧ s.host = [] ∧ s.initOk = true ∧ s.mode = .tx ∧
      s.modeOk = true) ∧
    (1 ≤ s.flen.toNat ∧ s.flen.toNat ≤ 66 ∧ f13.length = s.flen.toNat ∧
      (∀ j, j < f13.length → Memory.read s.fbuf j = f13[j]?) ∧ 1 ≤ 2 ∧ 2 ≤ s.config.txPollMax ∧
      (∀ j, j < 2 - 1 → (s.answerAt j &&& s.config.mPacketsent) = 0) ∧
      (s.answerAt (2 - 1) &&& s.config.mPacketsent) ≠ 0) ∧
    (∀ j, j < 4 - 1 → (t.answerAt j &&& t.config.mPacketsent) = 0) ∧ 4 = t.config.txPollMax :=
  ⟨⟨by decide, ⟨rfl, rfl, rfl⟩, rfl, rfl, rfl, rfl⟩, by decide, by decide, by decide⟩

theorem test_witness_WidthByTag : ∀ e ∈ departing.widths, e.type ≠ 0x20 := by decide

/-- In a configuration that departs elsewhere: product 0x02, and keystream index 1. -/
theorem test_witness_KeystreamGenerator :
    (∀ e ∈ departing.seeds, e.product ≠ 0x02) ∧ (∀ e ∈ departing.ks, ¬ (e.seed = 0xF202 ∧ e.index = 1)) := by decide

/-- Indices 0 and 9 below 10, a FLOAT byte and another. -/
theorem test_witness_CodecFunctionsAreParameters :
    0 < 10 ∧ 9 < 10 ∧ (0xF3 : Byte).extractLsb' 4 4 = 0xF ∧ ¬ (0xEF : Byte).extractLsb' 4 4 = 0xF := by decide

/-- Offsets 2, 3, 11 = N-2 and 12 = N-1 of F13. -/
theorem test_witness_XcryptCoversOffsets3ToNminus2 :
    f13[2]? = some 0x02 ∧ (xcrypt Config.reference f13 13 0xF202)[2]? = some 0x02 ∧
    f13[3]? = some 0xE1 ∧ (xcrypt Config.reference f13 13 0xF202)[3]? = some 0x12 ∧
    f13[11]? = some 0xC4 ∧ (xcrypt Config.reference f13 13 0xF202)[11]? = some 0x00 ∧
    f13[12]? = some 0x30 ∧ (xcrypt Config.reference f13 13 0xF202)[12]? = some 0x30 := by decide

/-- A parse that runs, at the last width that fits and the first that does not; and one that has returned. -/
theorem test_witness_RecordTypeRows :
    let p := parsing [0x73, 0x7F, 1, 2, 3]
    p.parser.status = .running ∧ ¬ p.parser.stop < p.parser.pos + 2 + 3 ∧ p.parser.stop < p.parser.pos + 2 + 4 ∧
    State.reset.parser.status ≠ .running ∧ (Instr.typeOtChar 3).format = .recordType := by decide

theorem test_witness_RecordTerminatorEndsParse :
    (parsing [0x00]).parser.status = .running ∧ (parsing [0x00]).parser.pos + 1 = (parsing [0x00]).parser.stop := by
  decide

/-- Each clause: nothing left; a terminator; a PID with no type byte; a record. -/
theorem test_witness_ParseTurnRunsDecodedRow :
    (let p := (parsing []).parser; p.status = .running ∧ p.stop ≤ p.pos) ∧
    (let p := (parsing [0x00]).parser; p.status = .running ∧ p.pos < p.stop ∧ p.plain[p.pos]? = some 0x00 ∧
      decodePid 0x00 = .ok .recordTerminator) ∧
    (let p := (parsing [0x74]).parser; p.pos < p.stop ∧ p.plain[p.pos]? = some 0x74 ∧
      decodePid 0x74 = .error .notTheTerminator ∧ p.stop = p.pos + 1) ∧
    (let p := (parsing [0x73, 0x00]).parser; p.plain[p.pos]? = some 0x73 ∧ p.pos + 1 < p.stop ∧
      p.plain[p.pos + 1]? = some 0x00) := by decide

/-- V-DEC-1, V-DEC-6 and V-DEC-18, decrypted: one record (0x73, 0x10, [0x01]). -/
theorem test_witness_ParseReadsBackRecords :
    (List.replicate 8 0xEE : List Byte).length = 8 ∧ (∀ r ∈ [(⟨0x73, 0x10, 1, [0x01]⟩ : Rec)], r.Valid Config.reference) ∧
    ([0x55] : List Byte) ≠ [] := by
  refine ⟨by decide, ?_, by decide⟩
  intro r hr
  simp only [List.mem_singleton] at hr
  subst hr
  exact ⟨by decide, by decide, rfl⟩

/-- V-ENC-15 (29 records), V-ENC-10, V-ENC-11, V-ENC-12, and a record whose registers are unwritten. -/
theorem test_witness_EncodeChecksInOrder :
    let two : MsgRec → Msg := fun r => ({ header with nrec := 2 }.setRec 0 (oneByte 0x73 0x10 0x01)).setRec 1 r
    (encoding switchMsg).Running .encode .codec ∧
    28 < ({ header with nrec := 29 } : Msg).nrec.toNat ∧ ({ header with nrec := 28 } : Msg).nrec.toNat ≤ 28 ∧
    (∀ r, 1 < (two r).nrec.toNat ∧ ∀ j, j < 1 → (two r).RecPasses Config.reference j) ∧
    nextIs (exec .encode (encoding { header with nrec := 29 })) (finished .malformedRecord) = true ∧
    nextIs (exec .encode (encoding (two (oneByte 0x00 0x10 0x01)))) (finished .malformedRecord) = true ∧
    nextIs (exec .encode (encoding (two (oneByte 0x73 0xF0 0x01)))) (finished .unsupportedType) = true ∧
    nextIs (exec .encode (encoding (two (oneByte 0x73 0x40 0x01)))) (finished .malformedRecord) = true ∧
    (match exec .encode (encoding (two MsgRec.unwritten)) with | .fault f => some f | _ => none) =
      some (.unwritten (.recPid 1)) := by
  refine ⟨⟨rfl, rfl, rfl⟩, by decide, by decide, fun r => ⟨show 1 < (2 : BitVec 5).toNat by decide, fun j hj => ?_⟩, by decide, by decide, by decide,
    by decide, by decide⟩
  obtain rfl : j = 0 := by omega
  exact ⟨0x73, 0x10, 1, rfl, by decide, rfl, rfl, rfl⟩

/-- V-ENC-1. -/
theorem test_witness_EncodeBuildsFrame :
    let s := encoding switchMsg
    s.Running .encode .codec ∧ s.msg.nrec.toNat ≤ 28 ∧
    (∀ k, k < s.msg.nrec.toNat → s.msg.RecPasses s.config k ∧ s.msg.ValsWritten k) ∧ 10 + s.msg.recsWire.length ≤ 66 ∧
    s.msg.mfr = some 0x04 ∧ s.msg.product = some 0x02 ∧ s.msg.pip = some 0x1234 ∧ s.msg.devid = some 0x0A1B2C := by
  refine ⟨⟨rfl, rfl, rfl⟩, by decide, fun k hk => ?_, by decide, rfl, rfl, rfl, rfl⟩
  obtain rfl : k = 0 := by have h : k < 1 := hk; omega
  refine ⟨⟨0x73, 0x10, 1, rfl, by decide, rfl, rfl, rfl⟩, fun b hb => ?_⟩
  obtain rfl : b = 0 := by have h : b < 1 := hb; omega
  exact ⟨0x01, rfl⟩

/-- V-DEC-9 (FLEN = 8), V-DEC-21 (67), V-DEC-10 (FBUF[0] = 0x0D with FLEN = 13). -/
theorem test_witness_DecodeLengthCheck :
    (decoding f13).Running .decode .codec ∧ (decoding (f13.take 8)).flen.toNat < 9 ∧
    66 < ({ decoding f13 with flen := 67 } : State).flen.toNat ∧
    Memory.read (decoding (0x0D :: f13.tail)).fbuf 0 = some 0x0D ∧
    (0x0D : Byte).toNat ≠ (decoding (0x0D :: f13.tail)).flen.toNat - 1 :=
  ⟨⟨rfl, rfl, rfl⟩, by decide, by decide, by decide, by decide⟩

/-- V-DEC-13 (a wrong checksum) and V-PROP-1 (a right one, with bits of bytes 1 and 12 to flip). -/
theorem test_witness_DecodeChecksumFirst :
    let g : List Byte := f13.take 12 ++ [0xB0]
    ((decoding g).Running .decode .codec ∧ 9 ≤ g.length ∧ g.length ≤ 66 ∧ (decoding g).flen.toNat = g.length ∧
      g[0]? = some (BitVec.ofNat 8 (g.length - 1)) ∧ (∀ j, j < g.length → Memory.read (decoding g).fbuf j = g[j]?) ∧
      g.getD (g.length - 1) 0 ≠ ((g.take (g.length - 1)).drop 1).foldl (· + ·) 0) ∧
    ((decoding f13).flen.toNat = f13.length ∧ f13[0]? = some (BitVec.ofNat 8 (f13.length - 1)) ∧
      (∀ j, j < f13.length → Memory.read (decoding f13).fbuf j = f13[j]?) ∧
      f13.getD (f13.length - 1) 0 = ((f13.take (f13.length - 1)).drop 1).foldl (· + ·) 0) ∧
    1 ≤ 12 ∧ 12 < f13.length ∧ 7 < 8 :=
  ⟨⟨⟨rfl, rfl, rfl⟩, by decide, by decide, by decide, by decide, by decide, by decide⟩, by decide, by decide, by decide,
    by decide⟩

/-- V-DEC-1 (the parse returns records), V-DEC-20 (UNSUPPORTED_TYPE), V-DEC-17 (MALFORMED_RECORD). -/
theorem test_witness_DecodeParsesDecryptedFrame :
    let r : List Byte → ParseStatus := fun f =>
      ((Parser.start (xcrypt Config.reference f f.length (seed Config.reference (f.getD 2 0))) f.length).run
        Config.reference f.length).status
    ((decoding f13).Running .decode .codec ∧ (decoding f13).parser = Parser.empty ∧ 9 ≤ f13.length ∧ f13.length ≤ 66 ∧
      (decoding f13).flen.toNat = f13.length ∧ f13[0]? = some (BitVec.ofNat 8 (f13.length - 1)) ∧
      (∀ j, j < f13.length → Memory.read (decoding f13).fbuf j = f13[j]?) ∧
      f13.getD (f13.length - 1) 0 = ((f13.take (f13.length - 1)).drop 1).foldl (· + ·) 0) ∧
    r f13 = .done ∧
    r [0x0A, 0x04, 0x02, 0xE1, 0xFD, 0x51, 0x90, 0x3C, 0x4D, 0x60, 0xAE] = .failed .unsupportedType ∧
    r [0x0B, 0x04, 0x02, 0xE1, 0xFD, 0x51, 0x90, 0x3C, 0x4D, 0xD3, 0x9B, 0xBC] = .failed .malformedRecord :=
  ⟨⟨⟨rfl, rfl, rfl⟩, rfl, by decide, by decide, by decide, by decide, by decide, by decide⟩, by decide, by decide,
    by decide⟩

/-- Twelve of thirteen bytes written. -/
theorem test_witness_CodecFaultsOnUnwritten_decode :
    let s : State := { running .rx .decode .codec with fbuf := Memory.writeBytes [] 0 (f13.take 12), flen := 13 }
    s.Running .decode .codec ∧ 9 ≤ s.flen.toNat ∧ s.flen.toNat ≤ 66 ∧ 12 < s.flen.toNat ∧
      Memory.read s.fbuf 12 = none ∧ (∀ j, j < 12 → ∃ b, Memory.read s.fbuf j = some b) ∧
      (∀ l, Memory.read s.fbuf 0 = some l → l.toNat = s.flen.toNat - 1) := by
  refine ⟨⟨rfl, rfl, rfl⟩, by decide, by decide, by decide, by decide, fun j hj => ?_, fun l hl => ?_⟩
  · have h : ∀ j, j < 12 → (Memory.read (Memory.writeBytes [] 0 (f13.take 12)) j).isSome = true := by decide
    exact Option.isSome_iff_exists.mp (h j hj)
  · have h : some (0x0C : Byte) = some l := hl
    cases h
    rfl

/-- The one-record message of V-ENC-1, its registers changed by f, in the ENCODE about to read it. -/
def encodingBut (f : Msg → Msg) : State := encoding (f switchMsg)

/-- A message of one record that passes its checks, with each header register unwritten in turn, and with VAL[0] of the
record unwritten. -/
theorem test_witness_CodecFaultsOnUnwritten_encode :
    (∀ f ∈ [fun m : Msg => { m with mfr := none }, fun m => { m with product := none }, fun m => { m with pip := none },
        fun m => { m with devid := none },
        fun m => m.setRec 0 { m.recAt 0 with val := Vector.replicate 15 none }],
      let s := encodingBut f
      s.Running .encode .codec ∧ s.msg.nrec.toNat ≤ 28 ∧ (∀ k, k < s.msg.nrec.toNat → s.msg.RecPasses s.config k) ∧
      10 + ((List.range s.msg.nrec.toNat).map fun k => 2 + ((s.msg.recAt k).vlen.getD 0).toNat).sum ≤ 66) ∧
    (let s : State := encodingBut fun m => m.setRec 0 { m.recAt 0 with val := Vector.replicate 15 none };
      s.msg.mfr = some 0x04 ∧ s.msg.product = some 0x02 ∧ s.msg.pip = some 0x1234 ∧ s.msg.devid = some 0x0A1B2C ∧
      0 < s.msg.nrec.toNat ∧ 0 < ((s.msg.recAt 0).vlen.getD 0).toNat ∧ (s.msg.recAt 0).valAt 0 = none ∧
      (match exec .encode s with | .fault f => some f | _ => none) = some (.unwritten (.recVal 0 0))) := by
  refine ⟨fun f hf => ?_, by decide⟩
  simp only [List.mem_cons, List.not_mem_nil, or_false] at hf
  rcases hf with rfl | rfl | rfl | rfl | rfl <;>
    refine ⟨⟨rfl, rfl, rfl⟩, by decide, fun k hk => ?_, by decide⟩ <;>
    (obtain rfl : k = 0 := by have h : k < 1 := hk; omega) <;>
    exact ⟨0x73, 0x10, 1, rfl, by decide, rfl, rfl, rfl⟩

/-- V-ENC-1. -/
theorem test_witness_EncodeThenDecodeIsIdentity :
    (encoding switchMsg).Running .encode .codec ∧
    nextIs (exec .encode (encoding switchMsg)) (fun t => t.result == .ok) = true := ⟨⟨rfl, rfl, rfl⟩, by decide⟩

/-- A next state for each command the frames speak of. -/
theorem test_witness_frames :
    ([(Instr.init, Phase.initCfg 3), (.setmodeStandby, .smWrite), (.setmodeTx, .smPoll 1), (.setmodeRx, .smPoll 4),
        (.receive, .rxLen), (.receive, .rxPoll 1), (.encode, .codec), (.decode, .codec)].all fun (i, p) =>
      nextIs (exec i { withFrame .rx i p with msg := switchMsg, answers := [0x0C] }) fun _ => true) = true ∧
    nextIs (exec .transmit (withFrame .tx .transmit (.txData 12))) (fun _ => true) = true ∧
    receiveStores (.rxData 3) ≠ some 4 := by decide

/-- A sound state in the middle of a RECEIVE, which the machine can step. -/
theorem test_witness_StepKeepsInv :
    let s : State := { running .rx .receive .rxLen with answers := [0x0C] }
    s.Inv ∧ nextIs (step s) (fun t => t.phase == .rxData 1) = true := ⟨⟨rfl, rfl, rfl, rfl⟩, by decide⟩

/-- A mode-ready poll that answers, and a FIFO read after it. -/
theorem test_witness_ModeOkMeansModeReadySeen :
    let s : State := { running .rx .setmodeRx (.smPoll 1) with modeOk := false, answers := [0x80] }
    let t : State :=
      { running .rx .receive .rxLen with trace := [.write 0x01 0x10, .read 0x27 0x80], answers := [0x0C] }
    (s.Inv ∧ opmodeApart s.config = true ∧ s.ReadyWitnessed ∧ nextIs (step s) (fun u => u.modeOk) = true) ∧
    (t.Inv ∧ t.modeOk = true ∧ t.ReadyWitnessed ∧ nextIs (step t) (fun u => u.modeOk) = true) :=
  ⟨⟨⟨rfl, rfl, rfl, rfl⟩, by decide, (fun h => nomatch h), by decide⟩,
    ⟨⟨rfl, rfl, rfl, rfl⟩, rfl, fun _ => by decide, by decide⟩⟩

theorem test_witness_NoFifoAccessOutsideReadyMode :
    let s : State := { running .rx .receive .rxLen with answers := [0x0C] }
    let t := withFrame .tx .transmit (.txData 0)
    (s.Inv ∧ s.command = some .receive ∧ nextIs (step s) (fun u => u.trace != s.trace) = true) ∧
    (t.Inv ∧ t.command = some .transmit ∧ nextIs (step t) (fun u => u.trace != t.trace) = true) :=
  ⟨⟨⟨rfl, rfl, rfl, rfl⟩, rfl, by decide⟩, ⟨⟨by decide, rfl, rfl, rfl⟩, rfl, by decide⟩⟩

/-- A step with a transaction, a step without, and an idle step. -/
theorem test_witness_AtMostOneTransactionAStep :
    nextIs (step { running .rx .receive .rxLen with answers := [0x0C] }) (fun t => t.trace == [.read 0x00 0x0C]) = true ∧
    nextIs (step (running .tx .receive (.rxPoll 1))) (fun t => t.trace == []) = true ∧
    State.reset.busy = false ∧ nextIs (step State.reset) (fun t => t.trace == []) = true := by decide

/-- V-RX-10's drain, at its first flag read; and an acceptance. -/
theorem test_witness_EveryCommandEndsWithinBound :
    let s := running .rx .receive (.rxDrainFlag 1)
    (s.Inv ∧ s.config.wf = true ∧ s.busy = true ∧ s.host = [] ∧ s.stepsLeft = 130) ∧
    Instr.receive.format = .cmd ∧ (ready .rx).config.wf = true ∧ (ready .rx).busy = false ∧
    nextIs (exec .receive (ready .rx)) (fun t => t.phase == .rxPoll 1) = true :=
  ⟨⟨⟨rfl, rfl, rfl, rfl⟩, by decide, rfl, rfl, rfl⟩, rfl, by decide, rfl, by decide⟩

theorem test_witness_ConfigurationNeverWritten :
    nextIs (step (running .rx .init (.initCfg 0))) (fun t => t.config == Config.reference) = true := by decide

/-- SETMODE's write, and a reset. -/
theorem test_witness_ModeWrittenOnlyBySetmode :
    let s := running .rx .setmodeTx .smWrite
    let t : State := { running .rx .receive .rxLen with host := [.reset] }
    (s.Inv ∧ nextIs (step s) (fun u => u.mode != s.mode) = true) ∧
    (t.Inv ∧ nextIs (step t) (fun u => u.mode != t.mode) = true) :=
  ⟨⟨⟨rfl, rfl, rfl, rfl⟩, by decide⟩, ⟨⟨rfl, rfl, rfl, rfl⟩, by decide⟩⟩

/-- A finish that changes RESULT, and a reset of a running command. -/
theorem test_witness_ResultWrittenOnlyByFinish :
    let s := running .rx (.illegal 0 1 3) .codec
    let t : State := { running .rx .receive .rxLen with host := [.reset] }
    (s.Inv ∧ s.busy = true ∧ nextIs (step s) (fun u => u.result != s.result && !u.busy) = true) ∧
    (t.Inv ∧ t.busy = true ∧ nextIs (step t) (fun u => !u.busy) = true) :=
  ⟨⟨⟨rfl, rfl, rfl, rfl⟩, rfl, by decide⟩, ⟨⟨rfl, rfl, rfl, rfl⟩, rfl, by decide⟩⟩

/-- TRANSMIT on an unwritten FBUF, the spec's own example of the fault (R245). -/
theorem test_witness_OnlyCodecAndTransmitFault :
    let s : State := { running .tx .transmit (.txData 0) with flen := 13 }
    s.Inv ∧ s.command = some .transmit ∧
    (match exec .transmit s with | .fault f => some f | _ => none) = some (.unwritten (.fbuf 0)) :=
  ⟨⟨rfl, rfl, rfl, rfl⟩, rfl, by decide⟩

/-- The first address outside 0x00-0x3F. -/
theorem test_witness_IllFormedConfigurationRefused :
    let s : State :=
      { State.reset with
        config := { Config.reference with cfg := { Config.reference.cfg with fdevMsb := ⟨0x40, 0⟩ } } }
    ∃ e ∈ s.config.cfg.entries, 0x3F < e.addr.toNat := ⟨⟨0x40, 0⟩, by decide, by decide⟩

end Sys2Proof.Tests
end

/-! SUPPORT. Proofs of the scope family (00_scope.md): the bus and the trace, the dispatch of a step, and the parameters
KS, SEED and WIDTH. -/

namespace Sys2Proof.Machine

/-! ### The rows by format -/

/-- The command port decodes host commands only (R90). -/
@[simp] theorem decodeCommand_format (c : Byte) : (decodeCommand c).format = .cmd := by
  unfold decodeCommand
  dsimp only
  split <;> rfl

/-- An idle block accepts every host command (R90, R22). -/
theorem exec_idle {i : Instr} {s : State} (hf : i.format = .cmd) (hb : s.busy = false) :
    exec i s = .next (s.accept i) := by
  cases i <;> cases hf <;> exact runCommand_idle hb

/-- A record type row is PARSE's step for its type byte (R197). -/
theorem exec_recordType {i : Instr} (hf : i.format = .recordType) (s : State) :
    ∃ t, encode i = [t] ∧ exec i s = .next (s.takeRecord t) := by
  cases i <;> cases hf <;> exact ⟨_, rfl, rfl⟩

/-! ### The trace of one step -/

/-- From s to t the bus trace grows by one transaction or not at all (R13). -/
def State.AtMostOneTransaction (s t : State) : Prop := t.trace = s.trace ∨ ∃ e, t.trace = s.trace ++ [e]

section
variable {s t : State}

theorem State.AtMostOneTransaction.of_eq (h : t.trace = s.trace) : s.AtMostOneTransaction t := .inl h

theorem State.AtMostOneTransaction.of_append {e : BusEvent} (h : t.trace = s.trace ++ [e]) :
    s.AtMostOneTransaction t := .inr ⟨e, h⟩

theorem receivePoll_trace (n : Nat) (s : State) :
    (receivePoll n s).trace = s.trace ++ [.read s.config.addrIrqflags2 s.nextAnswer] := by
  obtain ⟨-, h⟩ | ⟨-, -, h⟩ | ⟨-, -, h⟩ := receivePoll_cases n s <;> rw [h] <;> rfl

theorem receiveLength_trace (s : State) :
    (receiveLength s).trace = s.trace ++ [.read s.config.addrFifo s.nextAnswer] := by
  rw [receiveLength_eq]; rfl

theorem receiveData_trace (j : Nat) (l : Byte) (s : State) :
    (receiveData j l s).trace = s.trace ++ [.read s.config.addrFifo s.nextAnswer] := by
  rw [receiveData_eq]; rfl

theorem receiveOverrun_trace (l : Byte) (s : State) :
    (receiveOverrun l s).trace = s.trace ++ [.read s.config.addrIrqflags2 s.nextAnswer] := by
  obtain ⟨-, -, h⟩ | ⟨-, -, h⟩ | ⟨-, h⟩ := receiveOverrun_cases l s <;> rw [h] <;> rfl

theorem receiveDrainFlag_trace (d : Nat) (s : State) :
    (receiveDrainFlag d s).trace = s.trace ++ [.read s.config.addrIrqflags2 s.nextAnswer] := by
  obtain ⟨-, h⟩ | ⟨-, h⟩ := receiveDrainFlag_cases d s <;> rw [h] <;> rfl

theorem receiveDrainRead_trace (d : Nat) (s : State) :
    (receiveDrainRead d s).trace = s.trace ++ [.read s.config.addrFifo s.nextAnswer] := by
  obtain ⟨-, h⟩ | ⟨-, h⟩ := receiveDrainRead_cases d s <;> rw [h] <;> rfl

theorem transmitPoll_trace (n : Nat) (s : State) :
    (transmitPoll n s).trace = s.trace ++ [.read s.config.addrIrqflags2 s.nextAnswer] := by
  obtain ⟨-, h⟩ | ⟨-, -, h⟩ | ⟨-, -, h⟩ := transmitPoll_cases n s <;> rw [h] <;> rfl

/-- RECEIVE's first step is a refusal at a gate, with no transaction, or the first poll (R160, R161). -/
theorem receiveStart_atMostOneTransaction (s : State) : s.AtMostOneTransaction (receiveStart s) := by
  obtain ⟨-, h⟩ | ⟨-, -, h⟩ | ⟨-, -, -, ⟨-, h⟩ | ⟨-, h⟩⟩ := receiveStart_cases s <;> rw [h]
  · exact .of_eq rfl
  · exact .of_eq rfl
  · exact .of_eq rfl
  · exact .of_append (receivePoll_trace 1 { s with flen := 0 })

theorem initStep_atMostOneTransaction (h : initStep s = .next t) : s.AtMostOneTransaction t := by
  obtain ⟨k, e, -, -, rfl⟩ | ⟨-, -, rfl⟩ | ⟨-, -, rfl⟩ := initStep_next h
  · refine .of_append (e := .write (e.addr.setWidth 6) e.value) ?_
    split <;> rfl
  · exact .of_append rfl
  · exact .of_append rfl

theorem setmodeStep_atMostOneTransaction {m : Target} (h : setmodeStep m s = .next t) : s.AtMostOneTransaction t := by
  obtain ⟨-, -, rfl⟩ | ⟨-, -, rfl⟩ | ⟨n, -, ⟨-, rfl⟩ | ⟨-, -, rfl⟩ | ⟨-, -, rfl⟩⟩ := setmodeStep_next h
  · exact .of_append rfl
  · exact .of_eq rfl
  · exact .of_append rfl
  · exact .of_append rfl
  · exact .of_append rfl

theorem receiveStep_atMostOneTransaction (h : receiveStep s = .next t) : s.AtMostOneTransaction t := by
  obtain ⟨-, rfl⟩ | ⟨n, -, -, rfl⟩ | ⟨-, rfl⟩ | ⟨j, l, -, -, -, -, rfl⟩ | ⟨l, -, -, rfl⟩ | ⟨-, rfl⟩ | ⟨d, -, rfl⟩ |
    ⟨d, -, rfl⟩ := receiveStep_next h
  · exact receiveStart_atMostOneTransaction s
  · exact .of_append (receivePoll_trace n s)
  · exact .of_append (receiveLength_trace s)
  · exact .of_append (receiveData_trace j l s)
  · exact .of_append (receiveOverrun_trace l s)
  · exact .of_append rfl
  · exact .of_append (receiveDrainFlag_trace d s)
  · exact .of_append (receiveDrainRead_trace d s)

theorem transmitStep_atMostOneTransaction (h : transmitStep s = .next t) : s.AtMostOneTransaction t := by
  obtain ⟨-, -, rfl⟩ | ⟨-, -, -, rfl⟩ | ⟨-, -, -, -, -, rfl⟩ | ⟨j, b, -, -, -, rfl⟩ | ⟨n, -, rfl⟩ := transmitStep_next h
  · exact .of_eq rfl
  · exact .of_eq rfl
  · exact .of_eq rfl
  · exact .of_append rfl
  · exact .of_append (transmitPoll_trace n s)

/-- ENCODE makes no transaction (R215). -/
theorem encodeStep_trace (h : encodeStep s = .next t) : t.trace = s.trace := by
  obtain ⟨-, ⟨c, -, rfl⟩ | ⟨f, -, rfl⟩⟩ := encodeStep_next h <;> rfl

/-- DECODE makes no transaction (R205). -/
theorem decodeStep_trace (h : decodeStep s = .next t) : t.trace = s.trace := by
  obtain ⟨-, ⟨c, -, rfl⟩ | ⟨f, c, -, -, rfl⟩ | ⟨f, -, -, rfl⟩⟩ := decodeStep_next h <;> rfl

theorem illegalStep_trace (h : illegalStep s = .next t) : t.trace = s.trace := by
  obtain ⟨-, rfl⟩ := illegalStep_next h; rfl

/-- A command makes at most one transaction when its controller step does: its acceptance makes none (R90). -/
theorem runCommand_atMostOneTransaction {i : Instr} {f : State → Host.Outcome State Fault Refusal}
    (hf : f s = .next t → s.AtMostOneTransaction t) (h : s.runCommand i f = .next t) : s.AtMostOneTransaction t := by
  obtain ⟨-, rfl⟩ | ⟨-, -, h⟩ := runCommand_next h
  · exact .of_eq rfl
  · exact hf h

/-- Every instruction makes at most one transaction (R13, R133). -/
theorem exec_atMostOneTransaction {i : Instr} (h : exec i s = .next t) : s.AtMostOneTransaction t := by
  cases i with
  | init => exact runCommand_atMostOneTransaction initStep_atMostOneTransaction h
  | setmodeStandby | setmodeTx | setmodeRx => exact runCommand_atMostOneTransaction setmodeStep_atMostOneTransaction h
  | receive => exact runCommand_atMostOneTransaction receiveStep_atMostOneTransaction h
  | transmit => exact runCommand_atMostOneTransaction transmitStep_atMostOneTransaction h
  | encode => exact runCommand_atMostOneTransaction (fun h => .of_eq (encodeStep_trace h)) h
  | decode => exact runCommand_atMostOneTransaction (fun h => .of_eq (decodeStep_trace h)) h
  | illegal => exact runCommand_atMostOneTransaction (fun h => .of_eq (illegalStep_trace h)) h
  | busRead | busWrite | opmodeStandby | opmodeTx | opmodeRx => cases h; exact .of_append rfl
  | _ => cases h; exact .of_eq rfl

/-- A host write stores to RX_POLLS, FLEN, FBUF or MSG and to nothing else (R39). -/
theorem State.hostWrite_frame {r : Reg} {v : BitVec 24} (h : s.hostWrite r v = some t) :
    { t with rxPolls := s.rxPolls, flen := s.flen, fbuf := s.fbuf, msg := s.msg } = s := by
  cases r with
  | status | seqL => cases h
  | fbuf | recPid | recType | recVlen | recVal =>
    obtain ⟨-, h⟩ := Option.ite_none_right_eq_some.mp h
    cases h; rfl
  | _ => cases h; rfl

theorem State.hostWrite_trace {r : Reg} {v : BitVec 24} (h : s.hostWrite r v = some t) : t.trace = s.trace :=
  (congrArg State.trace (hostWrite_frame h) :)

end

/-- Settles O53: a step is a host move, which leaves the trace alone, or an instruction, which while BUSY = 0 can only be
accepted. -/
theorem atMostOneTransactionAStep : Obligations.AtMostOneTransactionAStep := by
  intro s t h
  obtain ⟨-, ⟨rest, rfl⟩ | ⟨rest, -, rfl⟩ | ⟨c, rest, hb, -, he⟩ | ⟨r, v, rest, -, -, hw⟩ | ⟨r, v, rest, -, rfl⟩ |
    ⟨i, rest, hb, -, -, he⟩⟩ := step_next h
  · exact ⟨.inl rfl, fun _ => rfl⟩
  · exact ⟨.inl rfl, fun _ => rfl⟩
  · cases (exec_idle (s := { s with host := rest }) (decodeCommand_format c) hb).symm.trans he
    exact ⟨.inl rfl, fun _ => rfl⟩
  · have ht : t.trace = s.trace := State.hostWrite_trace (s := { s with host := rest }) hw
    exact ⟨.inl ht, fun _ => ht⟩
  · exact ⟨.inl rfl, fun _ => rfl⟩
  · exact ⟨exec_atMostOneTransaction (s := { s with host := rest }) he, fun hi => by simp [hb] at hi⟩

/-- Settles O15: the free answer a bus read records is the first of the answers to come. -/
theorem busTransactions : Obligations.BusTransactions := fun s a _ =>
  ⟨congrArg Host.Outcome.next (busRead_eq s a), rfl⟩

/-! ### The dispatch of a step -/

theorem controllerStep_command {s : State} {i : Instr} (hc : s.command = some i) : controllerStep s = exec i s := by
  simp [controllerStep, hc]

theorem hostStep_cmd {s : State} (hb : s.busy = false) (c : Byte) : hostStep (.cmd c) s = exec (decodeCommand c) s := by
  simp [hostStep, hb]

/-- While a command runs, a host that waits keeps its WAIT in the list and the controller steps (R104). -/
theorem hostStep_wait_busy {s : State} (hb : s.busy = true) :
    hostStep .wait s = controllerStep { s with host := .wait :: s.host } := by
  simp [hostStep, hb]

theorem hostStep_tick_busy {s : State} (hb : s.busy = true) : hostStep .tick s = controllerStep s := by
  simp [hostStep, hb]

/-- Settles O12: the dispatch of each host move, and WAIT putting itself back while a command runs. -/
theorem stepRunsDecodedInstruction : Obligations.StepRunsDecodedInstruction := by
  refine ⟨fun s c rest hw hb hh => ?_, fun s i hw hb hc => ⟨fun hh => ?_, fun rest hh => ?_, fun rest hh => ?_⟩⟩
  · rw [step_host hw hh]
    exact hostStep_cmd (s := { s with host := rest }) hb c
  · exact step_running hw hh hb hc
  · have hs : { s with host := .wait :: rest } = s := by rw [← hh]
    rw [step_host hw hh, hostStep_wait_busy (s := { s with host := rest }) hb]
    exact hs.symm ▸ controllerStep_command hc
  · rw [step_host hw hh, hostStep_tick_busy (s := { s with host := rest }) hb]
    exact controllerStep_command (s := { s with host := rest }) hc

/-! ### WIDTH and the record rows -/

/-- The default of WIDTH by the two nibbles of the type byte (R196). -/
def widthOfTag (tag low : BitVec 4) : Option Nat :=
  match tag.toNat with
  | 0x0 | 0x8 => some 0
  | 0x1 | 0x2 | 0x9 => some 1
  | 0x3 | 0x4 | 0xA => some 2
  | 0x5 | 0x6 | 0xB => some 3
  | 0xF => none
  | _ => some low.toNat

theorem defaultWidth_typeByte : ∀ tag low : BitVec 4, defaultWidth (typeByte tag low) = widthOfTag tag low := by decide

/-- A type byte is UNSUPPORTED by default exactly when its tag is FLOAT's (R196, R200). -/
theorem defaultWidth_eq_none : ∀ t : Byte, defaultWidth t = none ↔ t.extractLsb' 4 4 = 0xF := by decide

/-- A tag that has a default width has it unless the configuration gives the type byte another (R9). -/
theorem width_typeByte {tag low : BitVec 4} {n : Nat} (h : widthOfTag tag low = some n) (c : Config) :
    width c (typeByte tag low) = some (((widthEntry c (typeByte tag low)).map BitVec.toNat).getD n) := by
  simp [width, defaultWidth_typeByte, h]

/-- FLOAT has no width in any configuration (R200). -/
theorem width_float (c : Config) (low : BitVec 4) : width c (typeByte 0xF low) = none :=
  width_eq_none.mpr (defaultWidth_typeByte 0xF low)

theorem widthEntry_eq_none {c : Config} {t : Byte} (h : ∀ e ∈ c.widths, e.type ≠ t) : widthEntry c t = none := by
  simpa [widthEntry] using h

/-- Settles O6: the default of each tag, unless the configuration gives the byte a width; FLOAT has neither. -/
theorem widthByTag : Obligations.WidthByTag := fun c low =>
  ⟨width_typeByte rfl c, width_typeByte rfl c, width_typeByte rfl c, width_typeByte rfl c, width_typeByte rfl c,
    width_typeByte rfl c, width_typeByte rfl c, width_typeByte rfl c, width_typeByte rfl c, width_typeByte rfl c,
    width_typeByte rfl c, width_typeByte rfl c, width_typeByte rfl c, width_typeByte rfl c, width_typeByte rfl c,
    width_float c low, fun _ h => widthEntry_eq_none h⟩

section
variable {s : State} {t : Byte}

/-- A type byte with a width, while a parse runs: its record, or MALFORMED_RECORD when it would reach the checksum (R197). -/
theorem State.takeRecord_of_width (hr : s.parser.status = .running) {w : Nat} (hw : width s.config t = some w) :
    s.takeRecord t =
      if s.parser.stop < s.parser.pos + 2 + w then
        { s with parser := { s.parser with status := .failed .malformedRecord } }
      else
        { s with
          parser := { s.parser with
            recs := s.parser.recs ++
              [⟨s.parser.plain.getD s.parser.pos 0, t, w, (s.parser.plain.drop (s.parser.pos + 2)).take w⟩]
            pos := s.parser.pos + 2 + w } } := by
  unfold State.takeRecord Parser.takeRecord
  simp only [hr, hw]
  split <;> rfl

/-- A type byte without a width, while a parse runs (R200). -/
theorem State.takeRecord_of_unsupported (hr : s.parser.status = .running) (hw : width s.config t = none) :
    s.takeRecord t = { s with parser := { s.parser with status := .failed .unsupportedType } } := by
  unfold State.takeRecord Parser.takeRecord
  simp only [hr, hw]
  rfl

/-- A parse that has returned takes no record. -/
theorem State.takeRecord_of_returned (h : s.parser.status ≠ .running) (t : Byte) : s.takeRecord t = s := by
  have hp : s.parser.takeRecord s.config t = s.parser := by
    unfold Parser.takeRecord
    split
    · exact absurd ‹_› h
    · rfl
  rw [State.takeRecord, hp]

end

/-- Settles O35: each row is PARSE's step for its type byte, by the width of its tag. -/
theorem recordTypeRows : Obligations.RecordTypeRows := by
  intro s low
  refine ⟨fun hr => ?_, fun h i hf => ?_⟩
  · have row {tag : BitVec 4} {n : Nat} (h : widthOfTag tag low = some n) :=
      congrArg (Host.Outcome.next (φ := Fault) (ρ := Refusal)) (State.takeRecord_of_width hr (width_typeByte h s.config))
    exact ⟨row rfl, row rfl, row rfl, row rfl, row rfl, row rfl, row rfl, row rfl, row rfl, row rfl, row rfl, row rfl,
      row rfl, row rfl, row rfl, congrArg _ (State.takeRecord_of_unsupported hr (width_float s.config low))⟩
  · obtain ⟨t, -, he⟩ := exec_recordType hf s
    rw [he, State.takeRecord_of_returned h]

/-! ### SEED and KS -/

theorem seedEntry_eq_none {c : Config} {p : Byte} (h : ∀ e ∈ c.seeds, e.product ≠ p) : seedEntry c p = none := by
  simpa [seedEntry] using h

theorem keystreamEntry_eq_none {c : Config} {s : BitVec 16} {k : Nat}
    (h : ∀ e ∈ c.ks, ¬ (e.seed = s ∧ e.index = k)) : keystreamEntry c s k = none := by
  simpa [keystreamEntry] using h

theorem keystreamSteps_add (m n : Nat) (r : BitVec 16) :
    keystreamSteps (m + n) r = keystreamSteps n (keystreamSteps m r) := by
  induction m generalizing r with
  | zero => rw [Nat.zero_add, keystreamSteps]
  | succ m ih => rw [Nat.succ_add, keystreamSteps, ih, keystreamSteps]

/-- The default keystream byte before its mask 0x5A is the low byte of the register (R191). -/
theorem defaultKeystream_unmasked (s : BitVec 16) (k : Nat) :
    defaultKeystream s k ^^^ 0x5A#8 = (keystreamSteps (5 * (k + 1)) s).setWidth 8 := by
  rw [defaultKeystream, BitVec.xor_assoc, BitVec.xor_self, BitVec.xor_zero, BitVec.setWidth_eq_extractLsb' (by decide)]

/-- Settles O34: without an entry SEED and KS are their defaults, and the register's steps add up. -/
theorem keystreamGenerator : Obligations.KeystreamGenerator := by
  refine ⟨fun c p h => ?_, fun r => ?_, fun s k => ⟨fun c h => ?_, ?_⟩, by decide⟩
  · rw [seed_default (seedEntry_eq_none h), defaultSeed_eq]
  · unfold keystreamStep
    split
    · rfl
    · exact BitVec.xor_zero
  · rw [keystream_default (keystreamEntry_eq_none h)]
    exact defaultKeystream_unmasked s k
  · exact keystreamSteps_add (5 * (k + 1)) 5 s

/-! ### KS, SEED and WIDTH as tables of every argument -/

/-- Every word of w bits. -/
def allWords (w : Nat) : List (BitVec w) := (List.range (2 ^ w)).map (BitVec.ofNat w)

theorem mem_allWords {w : Nat} (b : BitVec w) : b ∈ allWords w :=
  List.mem_map.mpr ⟨b.toNat, List.mem_range.mpr b.isLt, (BitVec.ofNat_toNat w b).trans (BitVec.setWidth_eq b)⟩

/-- The entries that make f the KS of a configuration, below index n. -/
def keystreamTable (f : BitVec 16 → Nat → Byte) (n : Nat) : List KeystreamEntry :=
  (allWords 16 ×ˢ List.range n).map fun a => ⟨a.1, a.2, f a.1 a.2⟩

/-- The entries that make f the SEED of a configuration. -/
def seedTable (f : Byte → BitVec 16) : List SeedEntry := (allWords 8).map fun p => ⟨p, f p⟩

/-- The entries that make f the WIDTH of a configuration. -/
def widthTable (f : Byte → BitVec 4) : List WidthEntry := (allWords 8).map fun t => ⟨t, f t⟩

/-- In a table of one entry for each argument of a list, a search for the entry of one argument finds it. -/
theorem find?_map_of_mem {α ε : Type} [BEq α] [LawfulBEq α] {mk : α → ε} {p : ε → Bool} {l : List α} {a : α}
    (hp : ∀ b, p (mk b) = (b == a)) (ha : a ∈ l) : (l.map mk).find? p = some (mk a) := by
  have hfound : (l.find? (· == a)).isSome = true := List.find?_isSome.mpr ⟨a, ha, beq_self_eq_true a⟩
  obtain ⟨b, hb⟩ := Option.isSome_iff_exists.mp hfound
  have hba : b = a := eq_of_beq (List.find?_some (p := (· == a)) hb)
  rw [List.find?_map, show p ∘ mk = (· == a) from funext hp, hb, hba, Option.map_some]

theorem keystreamEntry_table (c : Config) (f : BitVec 16 → Nat → Byte) {n k : Nat} (hk : k < n) (s : BitVec 16) :
    keystreamEntry { c with ks := keystreamTable f n } s k = some (f s k) := by
  have hmem : (s, k) ∈ allWords 16 ×ˢ List.range n := List.mem_product.mpr ⟨mem_allWords s, List.mem_range.mpr hk⟩
  rw [keystreamEntry, keystreamTable, find?_map_of_mem (fun _ => rfl) hmem, Option.map_some]

theorem seedEntry_table (c : Config) (f : Byte → BitVec 16) (p : Byte) :
    seedEntry { c with seeds := seedTable f } p = some (f p) := by
  rw [seedEntry, seedTable, find?_map_of_mem (fun _ => rfl) (mem_allWords p), Option.map_some]

theorem widthEntry_table (c : Config) (f : Byte → BitVec 4) (t : Byte) :
    widthEntry { c with widths := widthTable f } t = some (f t) := by
  rw [widthEntry, widthTable, find?_map_of_mem (fun _ => rfl) (mem_allWords t), Option.map_some]

/-- A width the configuration gives counts for every type byte but FLOAT's (R9, R200). -/
theorem width_of_entry {c : Config} {t : Byte} {w : BitVec 4} (h : widthEntry c t = some w) :
    width c t = if t.extractLsb' 4 4 = 0xF then none else some w.toNat := by
  split
  case isTrue hf => exact width_eq_none.mpr ((defaultWidth_eq_none t).mpr hf)
  case isFalse hf =>
    obtain ⟨d, hd⟩ := Option.ne_none_iff_exists'.mp (mt (defaultWidth_eq_none t).mp hf)
    simp [width, hd, h]

/-- Settles O60: the configuration that lists f at every argument. -/
theorem codecFunctionsAreParameters : Obligations.CodecFunctionsAreParameters := fun c =>
  ⟨fun f n => ⟨keystreamTable f n, fun s _ hk => by rw [keystream, keystreamEntry_table c f hk s, Option.getD_some]⟩,
    fun f => ⟨seedTable f, fun p => by rw [seed, seedEntry_table c f p, Option.getD_some]⟩,
    fun f => ⟨widthTable f, fun t => width_of_entry (widthEntry_table c f t)⟩⟩

end Sys2Proof.Machine

/-! SUPPORT. Proofs of the state family (10_state.md): the invariant and what a step of a running command does, the frames
of the commands, the host's accesses, and the checks and faults of the codec and of TRANSMIT. -/

namespace Sys2Proof.Machine

/-! ### The invariant in parts -/

/-- The part of the invariant that does not speak of the sequencer: FBUF canonical, no parse in progress (R205), and
MODE_OK = 1 only with INIT_OK = 1 and a mode commanded (R28). -/
def State.RegistersOk (s : State) : Prop :=
  Memory.wf s.fbuf = true ∧ s.parser = Parser.empty ∧ (s.modeOk = true → s.initOk = true ∧ s.mode ≠ .none)

section
variable {s u : State} {i : Instr}

theorem State.inv_iff : s.Inv ↔ s.RegistersOk ∧ s.sequencerOk = true ∧ s.phaseGate = true := by
  have hgate : s.gateOk = true ↔ (s.modeOk = true → s.initOk = true ∧ s.mode ≠ .none) ∧ s.phaseGate = true := by
    cases hm : s.modeOk <;> simp [State.gateOk, hm]
  rw [State.Inv, State.RegistersOk, hgate]
  tauto

/-- An idle block with its registers in order is sound: its sequencer has no gate to pass. -/
theorem State.RegistersOk.inv_of_idle (hr : s.RegistersOk) (hb : s.busy = false) (hc : s.command = none)
    (hp : s.phase = .idle) : s.Inv :=
  State.inv_iff.mpr ⟨hr, by simp [State.sequencerOk, hb, hc, hp], by simp [State.phaseGate, hp]⟩

/-- The invariant while BUSY = 0: the sequencer stands at IDLE (R30). -/
theorem State.Inv.idle (hi : s.Inv) (hb : s.busy = false) : s.RegistersOk ∧ s.command = none ∧ s.phase = .idle := by
  obtain ⟨hr, hs, -⟩ := State.inv_iff.mp hi
  cases hc : s.command <;> simp [State.sequencerOk, hb, hc] at hs
  exact ⟨hr, rfl, hs⟩

/-- The invariant while a command runs: PHASE is one of its phases and stands behind its gate (R24, R30). -/
theorem State.Inv.running (hi : s.Inv) (hc : s.command = some i) :
    s.RegistersOk ∧ s.busy = true ∧ s.phaseOf i s.phase = true ∧ s.phaseGate = true := by
  obtain ⟨hr, hs, hg⟩ := State.inv_iff.mp hi
  simp only [State.sequencerOk, hc, Bool.and_eq_true] at hs
  exact ⟨hr, hs.1, hs.2, hg⟩

theorem State.Inv.command_of_busy (hi : s.Inv) (hb : s.busy = true) : ∃ i, s.command = some i := by
  obtain ⟨-, hs, -⟩ := State.inv_iff.mp hi
  cases hc : s.command with
  | none => simp [State.sequencerOk, hb, hc] at hs
  | some i => exact ⟨i, rfl⟩

/-! ### The phases of each command (R24) -/

theorem State.phaseOf_init {p : Phase} (h : s.phaseOf .init p = true) :
    (∃ k, p = .initCfg k ∧ k < s.config.cfg.entries.length) ∨ p = .initVer := by
  cases p <;> simp_all [State.phaseOf]

theorem State.phaseOf_setmode {m : Target} {p : Phase} (hm : setmodeTarget i = some m) :
    s.phaseOf i p = true ↔ p = .smWrite ∨ ∃ n, p = .smPoll n ∧ 1 ≤ n ∧ n ≤ s.config.modePollMax := by
  cases i <;> cases hm <;> cases p <;> simp [State.phaseOf]

theorem State.phaseOf_receive {p : Phase} (h : s.phaseOf .receive p = true) :
    p = .rxPoll 1 ∨ (∃ n, p = .rxPoll n ∧ n ≠ 1 ∧ 1 ≤ n ∧ n ≤ s.rxPolls.toNat) ∨ p = .rxLen ∨
    (∃ j l, p = .rxData j ∧ s.lenL = some l ∧ framingOk l = true ∧ 1 ≤ j ∧ j ≤ l.toNat) ∨
    (∃ l, p = .rxOvr ∧ s.lenL = some l ∧ framingOk l = true) ∨ p = .rxClr ∨
    (∃ d, p = .rxDrainFlag d ∧ 1 ≤ d ∧ d ≤ 65) ∨ ∃ d, p = .rxDrainRead d ∧ 1 ≤ d ∧ d ≤ 65 := by
  have hlen (h : s.lengthHeld = true) : ∃ l, s.lenL = some l ∧ framingOk l = true := by
    cases hl : s.lenL <;> simp_all [State.lengthHeld]
  cases p with
  | rxPoll n => by_cases hn : n = 1 <;> simp_all [State.phaseOf]
  | rxData j =>
    simp only [State.phaseOf, Bool.and_eq_true, decide_eq_true_eq] at h
    obtain ⟨⟨hh, h1⟩, hj⟩ := h
    obtain ⟨l, hl, hf⟩ := hlen hh
    simp_all
  | rxOvr => simpa using hlen h
  | _ => simp_all [State.phaseOf]

theorem State.phaseOf_transmit {p : Phase} (h : s.phaseOf .transmit p = true) :
    p = .txData 0 ∨ (∃ j, p = .txData j ∧ j ≠ 0 ∧ j < s.flen.toNat ∧ s.flen.toNat ≤ 66) ∨
    ∃ n, p = .txPoll n ∧ 1 ≤ n ∧ n ≤ s.config.txPollMax := by
  cases p with
  | txData j => by_cases hj : j = 0 <;> simp_all [State.phaseOf]
  | _ => simp_all [State.phaseOf]

/-- The commands that take one step, with no bus transaction (R92, R205, R215). -/
theorem State.phaseOf_codec {p : Phase} (hf : firstPhase i = .codec) (h : s.phaseOf i p = true) : p = .codec := by
  cases i <;> cases hf <;> cases p <;> simp_all [State.phaseOf]

/-! ### The gates of RECEIVE and TRANSMIT -/

/-- What stands behind RECEIVE's gate (R160). -/
def State.Receiving (s : State) : Prop := s.initOk = true ∧ s.modeOk = true ∧ s.mode = .rx ∧ s.flen = 0

/-- What stands behind TRANSMIT's gate (R166). -/
def State.Transmitting (s : State) : Prop := s.initOk = true ∧ s.modeOk = true ∧ s.mode = .tx

theorem State.receiving_of_phaseGate (hph : s.phaseOf .receive s.phase = true) (hg : s.phaseGate = true)
    (h1 : s.phase ≠ .rxPoll 1) : s.Receiving := by
  cases hp : s.phase <;> simp_all [State.phaseOf, State.phaseGate, State.Receiving]

theorem State.Receiving.phaseGate {p : Phase} (h : u.Receiving) (hph : u.phaseOf .receive p = true) :
    (u.goto p).phaseGate = true := by
  obtain ⟨hi, hk, hm, hl⟩ := h
  cases p <;> simp_all [State.phaseOf, State.phaseGate]

theorem State.transmitting_of_phaseGate (hph : s.phaseOf .transmit s.phase = true) (hg : s.phaseGate = true)
    (h0 : s.phase ≠ .txData 0) : s.Transmitting := by
  cases hp : s.phase <;> simp_all [State.phaseOf, State.phaseGate, State.Transmitting]

theorem State.Transmitting.phaseGate {p : Phase} (h : u.Transmitting) (hph : u.phaseOf .transmit p = true) :
    (u.goto p).phaseGate = true := by
  obtain ⟨hi, hk, hm⟩ := h
  cases p <;> simp_all [State.phaseOf, State.phaseGate]

end

/-! ### One controller step of a running command -/

/-- What one controller step of command i makes of a sound state s. Over changes u of its registers, it finishes with a
result code (R242), or it goes to a phase of the command, behind that phase's gate and nearer the command's end (R38). -/
inductive State.Advances (s : State) (i : Instr) : State → Prop
  | finish (u : State) (c : ResultCode) (hr : u.RegistersOk) (hc : c ≠ .none) : s.Advances i (u.finish c)
  | goto (u : State) (p : Phase) (hr : u.RegistersOk) (hb : u.busy = true) (hc : u.command = some i)
      (hres : u.result = s.result) (hph : u.phaseOf i p = true) (hg : (u.goto p).phaseGate = true)
      (hlt : (u.goto p).stepsLeft < s.stepsLeft) : s.Advances i (u.goto p)

/-- What a running command answers: it advances (in a well-formed configuration, where the poll bounds are at least 1), or
it is one of the three that read unwritten state and faults; it is never refused (R245). -/
def State.Answers (s : State) (i : Instr) : Host.Outcome State Fault Refusal → Prop
  | .next t => s.config.wf = true → s.Advances i t
  | .fault _ => i = .transmit ∨ i = .encode ∨ i = .decode
  | .refused _ => False

section
variable {s t u : State} {i : Instr}

theorem State.Advances.inv (h : s.Advances i t) : t.Inv := by
  cases h with
  | finish u c hr _ => exact State.RegistersOk.inv_of_idle hr rfl rfl rfl
  | goto u p hr hb hc _ hph hg _ =>
    have hph : (u.goto p).phaseOf i p = true := hph
    exact State.inv_iff.mpr ⟨hr, by simp [State.sequencerOk, hb, hc, hph], hg⟩

/-- A step of a running command is a finish, or leaves BUSY and RESULT (R242). -/
theorem State.Advances.finished_or_running (h : s.Advances i t) :
    (t.busy = false ∧ t.phase = .idle ∧ t.command = none ∧ t.result ≠ .none) ∨
    (t.busy = true ∧ t.result = s.result ∧ t.stepsLeft < s.stepsLeft) := by
  cases h with
  | finish u c _ hc => exact .inl ⟨rfl, rfl, rfl, hc⟩
  | goto u p _ hb _ hres _ _ hlt => exact .inr ⟨hb, hres, hlt⟩

theorem pollBounds_of_wf {c : Config} (hw : c.wf = true) : 1 ≤ c.modePollMax ∧ 1 ≤ c.txPollMax := by
  simp only [Config.wf, Bool.and_eq_true, decide_eq_true_eq] at hw
  exact ⟨hw.1.2, hw.2⟩

theorem initStep_answers (hi : s.Inv) (hc : s.command = some .init) : s.Answers .init (initStep s) := by
  obtain ⟨hr, hb, hph, hg⟩ := hi.running hc
  obtain ⟨k, hp, hk⟩ | hp := State.phaseOf_init hph
  · -- past the first write INIT_OK and MODE_OK are already clear
    have hu : (if k = 0 then { s with initOk := false, modeOk := false } else s) =
        { s with initOk := false, modeOk := false } := by
      split
      · rfl
      · have : s.initOk = false ∧ s.modeOk = false := by simpa [State.phaseGate, hp, ‹¬ k = 0›] using hg
        cases s; simp_all
    rw [initStep_cfg hp (List.getElem?_eq_getElem hk), hu]
    intro _
    refine .goto _ _ ⟨hr.1, hr.2.1, by simp⟩ hb hc rfl ?_ ?_ ?_
    · split <;> simp_all [State.phaseOf]
    · split <;> simp [State.phaseGate]
    · split <;> simp [State.stepsLeft, hp] <;> omega
  · have hgate : s.initOk = false ∧ s.modeOk = false := by simpa [State.phaseGate, hp] using hg
    rw [initStep_ver hp]
    intro _
    split
    · exact .finish _ _ ⟨hr.1, hr.2.1, by simp [hgate]⟩ (by simp)
    · exact .finish _ _ hr (by simp)

theorem setmodeStep_answers {m : Target} (hi : s.Inv) (hc : s.command = some i) (hm : setmodeTarget i = some m) :
    s.Answers i (setmodeStep m s) := by
  obtain ⟨hr, hb, hph, hg⟩ := hi.running hc
  have hmode : m.mode ≠ .none := by cases m <;> simp [Target.mode]
  obtain hp | ⟨n, hp, h1, hn⟩ := (State.phaseOf_setmode hm).mp hph
  · rw [setmodeStep_write hp]
    intro hw
    have hpoll := (pollBounds_of_wf hw).1
    split
    · have hsl : s.stepsLeft = 1 + s.config.modePollMax := by simp [State.stepsLeft, hp]
      refine .goto (s.writeOpmode m) _ ⟨hr.1, hr.2.1, by simp⟩ hb hc rfl ?_ ?_ ?_
      · exact (State.phaseOf_setmode hm).mpr (.inr ⟨1, rfl, Nat.le_refl 1, hpoll⟩)
      · simp_all [State.phaseGate]
      · simp [State.stepsLeft, hp]; omega
    · exact .finish _ _ hr (by simp)
  · have hgate : (s.initOk = true ∧ s.modeOk = false) ∧ m.mode = s.mode := by
      simpa [State.phaseGate, hp, hc, hm] using hg
    rw [setmodeStep_poll hp]
    intro _
    split
    · exact .finish _ _ ⟨hr.1, hr.2.1, fun _ => ⟨hgate.1.1, by simpa [← hgate.2] using hmode⟩⟩ (by simp)
    · split
      · refine .goto _ _ hr hb hc rfl ?_ ?_ ?_
        · exact (State.phaseOf_setmode hm).mpr (.inr ⟨n + 1, rfl, by omega, ‹_›⟩)
        · simp [State.phaseGate, hgate, hc, hm]
        · simp [State.stepsLeft, hp]; omega
      · exact .finish _ _ hr (by simp)

/-- A payload-ready poll behind RECEIVE's gate (R161). -/
theorem receivePoll_advances {n : Nat} (hr : u.RegistersOk) (hb : u.busy = true) (hc : u.command = some .receive)
    (hres : u.result = s.result) (hrec : u.Receiving) (hn : n ≤ u.rxPolls.toNat)
    (hsl : s.stepsLeft = u.rxPolls.toNat + 1 - n + 131) : s.Advances .receive (receivePoll n u) := by
  rw [receivePoll_eq]
  split
  · exact .goto _ _ hr hb hc hres rfl (State.Receiving.phaseGate hrec rfl) (by rw [hsl]; simp [State.stepsLeft]; omega)
  · split
    · rename_i hlt
      have hph : u.phaseOf .receive (.rxPoll (n + 1)) = true := by simp [State.phaseOf, Nat.succ_le_of_lt hlt]
      exact .goto _ _ hr hb hc hres hph (State.Receiving.phaseGate hrec hph) (by rw [hsl]; simp [State.stepsLeft]; omega)
    · exact .finish _ _ hr (by simp)

theorem receiveStart_advances (hr : s.RegistersOk) (hb : s.busy = true) (hc : s.command = some .receive)
    (hp : s.phase = .rxPoll 1) : s.Advances .receive (receiveStart s) := by
  have hsl : s.stepsLeft = s.rxPolls.toNat + 1 - 1 + 131 := by simp [State.stepsLeft, hp]
  obtain ⟨-, h⟩ | ⟨-, -, h⟩ | ⟨hi, hm, hk, ⟨-, h⟩ | ⟨h0, h⟩⟩ := receiveStart_cases s <;> rw [h]
  · exact .finish _ _ hr (by simp)
  · exact .finish _ _ hr (by simp)
  · exact .finish _ _ hr (by simp)
  · exact receivePoll_advances hr hb hc rfl ⟨hi, hk, hm, rfl⟩ (Nat.pos_of_ne_zero h0) hsl

/-- Behind RECEIVE's gate a later phase of RECEIVE is behind it too. -/
theorem State.Receiving.advances_goto {p : Phase} (hrec : u.Receiving) (hr : u.RegistersOk) (hb : u.busy = true)
    (hc : u.command = some .receive) (hres : u.result = s.result) (hph : u.phaseOf .receive p = true)
    (hlt : (u.goto p).stepsLeft < s.stepsLeft) : s.Advances .receive (u.goto p) :=
  .goto u p hr hb hc hres hph (hrec.phaseGate hph) hlt

section
variable (hr : s.RegistersOk) (hb : s.busy = true) (hc : s.command = some .receive) (hrec : s.Receiving)
include hr hb hc hrec

theorem receiveLength_advances (hp : s.phase = .rxLen) : s.Advances .receive (receiveLength s) := by
  rw [receiveLength_eq]
  refine State.Receiving.advances_goto hrec ⟨Memory.wf_write hr.1 0 s.nextAnswer, hr.2⟩ hb hc rfl ?_ ?_
  · split
    · have h12 := ((framingOk_iff _).mp ‹_›).1
      simp [State.phaseOf, State.lengthHeld, ‹framingOk _ = true›]; omega
    · simp [State.phaseOf]
  · split <;> simp [State.stepsLeft, hp]

theorem receiveData_advances {j : Nat} {l : Byte} (hp : s.phase = .rxData j) (hl : s.lenL = some l)
    (hf : framingOk l = true) : s.Advances .receive (receiveData j l s) := by
  have hl14 := ((framingOk_iff l).mp hf).2
  rw [receiveData_eq]
  refine State.Receiving.advances_goto hrec ⟨Memory.wf_write hr.1 j s.nextAnswer, hr.2⟩ hb hc rfl ?_ ?_
  · split
    · simp [State.phaseOf, State.lengthHeld, hl, hf]; omega
    · simp [State.phaseOf, State.lengthHeld, hl, hf]
  · split
    · simp [State.stepsLeft, hp]; omega
    · simp [State.stepsLeft, hp]

theorem receiveOverrun_advances (l : Byte) (hp : s.phase = .rxOvr) : s.Advances .receive (receiveOverrun l s) := by
  obtain ⟨-, -, h⟩ | ⟨-, -, h⟩ | ⟨-, h⟩ := receiveOverrun_cases l s <;> rw [h]
  · exact State.Receiving.advances_goto hrec hr hb hc rfl rfl (by simp [State.stepsLeft, hp])
  · exact .finish _ _ hr (by simp)
  · exact .finish _ _ hr (by simp)

theorem receiveDrainFlag_advances {d : Nat} (hp : s.phase = .rxDrainFlag d) (h1 : 1 ≤ d) (hd : d ≤ 65) :
    s.Advances .receive (receiveDrainFlag d s) := by
  obtain ⟨-, h⟩ | ⟨-, h⟩ := receiveDrainFlag_cases d s <;> rw [h]
  · exact State.Receiving.advances_goto hrec hr hb hc rfl (by simp [State.phaseOf, h1, hd])
      (by simp [State.stepsLeft, hp])
  · exact .finish _ _ hr (by simp)

theorem receiveDrainRead_advances {d : Nat} (hp : s.phase = .rxDrainRead d) :
    s.Advances .receive (receiveDrainRead d s) := by
  obtain ⟨hd, h⟩ | ⟨-, h⟩ := receiveDrainRead_cases d s <;> rw [h]
  · exact State.Receiving.advances_goto hrec hr hb hc rfl (by simp [State.phaseOf]; omega)
      (by simp [State.stepsLeft, hp]; omega)
  · exact .finish _ _ hr (by simp)

end

theorem receiveStep_answers (hi : s.Inv) (hc : s.command = some .receive) : s.Answers .receive (receiveStep s) := by
  obtain ⟨hr, hb, hph, hg⟩ := hi.running hc
  have hrec := State.receiving_of_phaseGate hph hg
  obtain hp | ⟨n, hp, hn1, -, hn⟩ | hp | ⟨j, l, hp, hl, hf, h1, hj⟩ | ⟨l, hp, hl, -⟩ | hp | ⟨d, hp, h1, hd⟩ |
    ⟨d, hp, -, -⟩ := State.phaseOf_receive hph
  · rw [receiveStep_poll hp, if_pos rfl]
    exact fun _ => receiveStart_advances hr hb hc hp
  · rw [receiveStep_poll hp, if_neg hn1]
    exact fun _ => receivePoll_advances hr hb hc rfl (hrec (by simp [hp, hn1])) hn (by simp [State.stepsLeft, hp])
  · rw [receiveStep_len hp]
    exact fun _ => receiveLength_advances hr hb hc (hrec (by simp [hp])) hp
  · rw [receiveStep_data hp h1 (Nat.le_trans hj ((framingOk_iff l).mp hf).2) hl]
    exact fun _ => receiveData_advances hr hb hc (hrec (by simp [hp])) hp hl hf
  · rw [receiveStep_overrun hp hl]
    exact fun _ => receiveOverrun_advances hr hb hc (hrec (by simp [hp])) l hp
  · rw [receiveStep_clear hp]
    exact fun _ => .finish _ _ hr (by simp)
  · rw [receiveStep_drainFlag hp]
    exact fun _ => receiveDrainFlag_advances hr hb hc (hrec (by simp [hp])) hp h1 hd
  · rw [receiveStep_drainRead hp]
    exact fun _ => receiveDrainRead_advances hr hb hc (hrec (by simp [hp])) hp

/-- TX_DATA(j) of an unwritten byte is the model fault (R41). -/
theorem transmitData_unwritten {j : Nat} (hn : Memory.read s.fbuf j = none) :
    transmitData j s = .fault (.unwritten (.fbuf j)) := by
  simp [transmitData, State.fbufByte, hn, orFault]

/-- One byte of TRANSMIT's FIFO load behind its gate: the fault of an unwritten byte, or the write (R168, R41). -/
theorem transmitData_answers {j : Nat} (hr : s.RegistersOk) (hb : s.busy = true) (hc : s.command = some .transmit)
    (hp : s.phase = .txData j) (htx : s.Transmitting) (hj : j < s.flen.toNat) (h66 : s.flen.toNat ≤ 66) :
    s.Answers .transmit (transmitData j s) := by
  cases hread : Memory.read s.fbuf j with
  | none =>
    rw [transmitData_unwritten hread]
    exact .inl rfl
  | some b =>
    rw [transmitData_written hread]
    intro hw
    have hpoll := (pollBounds_of_wf hw).2
    have hph : ({ s with idxJ := some j }.busWrite s.config.addrFifo b).phaseOf .transmit
        (if j + 1 < s.flen.toNat then .txData (j + 1) else .txPoll 1) = true := by
      split
      · simp [State.phaseOf, ‹j + 1 < s.flen.toNat›, h66]
      · simp [State.phaseOf, hpoll]
    refine .goto _ _ hr hb hc rfl hph (State.Transmitting.phaseGate htx hph) ?_
    split <;> simp [State.stepsLeft, hp] <;> omega

theorem transmitStart_answers (hr : s.RegistersOk) (hb : s.busy = true) (hc : s.command = some .transmit)
    (hp : s.phase = .txData 0) : s.Answers .transmit (transmitStart s) := by
  unfold transmitStart
  split
  · exact fun _ => .finish _ _ hr (by simp)
  · rename_i hi
    split
    · exact fun _ => .finish _ _ hr (by simp)
    · rename_i hm
      split
      · exact fun _ => .finish _ _ hr (by simp)
      · rename_i hl
        obtain ⟨hm, hk⟩ := not_or.mp hm
        obtain ⟨h0, h66⟩ := not_or.mp hl
        exact transmitData_answers hr hb hc hp ⟨by simpa using hi, by simpa using hk, by simpa using hm⟩
          (Nat.pos_of_ne_zero h0) (Nat.le_of_not_lt h66)

theorem transmitStep_answers (hi : s.Inv) (hc : s.command = some .transmit) :
    s.Answers .transmit (transmitStep s) := by
  obtain ⟨hr, hb, hph, hg⟩ := hi.running hc
  have htx := State.transmitting_of_phaseGate hph hg
  obtain hp | ⟨j, hp, hj0, hj, h66⟩ | ⟨n, hp, h1, hn⟩ := State.phaseOf_transmit hph
  · rw [transmitStep_data hp, if_pos rfl]
    exact transmitStart_answers hr hb hc hp
  · rw [transmitStep_data hp, if_neg hj0]
    exact transmitData_answers hr hb hc hp (htx (by simp [hp, hj0])) hj h66
  · rw [transmitStep_poll hp]
    intro _
    split
    · exact .finish _ _ hr (by simp)
    · split
      · have hph : s.phaseOf .transmit (.txPoll (n + 1)) = true := by simp [State.phaseOf]; omega
        exact .goto _ _ hr hb hc rfl hph (State.Transmitting.phaseGate (htx (by simp [hp])) hph)
          (by simp [State.stepsLeft, hp]; omega)
      · exact .finish _ _ hr (by simp)

theorem encodeStep_answers (hi : s.Inv) (hc : s.command = some .encode) : s.Answers .encode (encodeStep s) := by
  obtain ⟨hr, -, hph, -⟩ := hi.running hc
  have hp := State.phaseOf_codec rfl hph
  cases h : encodeStep s with
  | next t =>
    intro _
    obtain ⟨-, ⟨c, hc, rfl⟩ | ⟨f, -, rfl⟩⟩ := encodeStep_next h
    · exact .finish _ _ hr (by rcases encodedFrame_finish hc with rfl | rfl | rfl <;> simp)
    · exact .finish _ _ ⟨Memory.wf_writeBytes f hr.1 0, hr.2⟩ (by simp)
  | fault f => exact .inr (.inl rfl)
  | refused r =>
    unfold encodeStep at h
    rw [hp] at h
    dsimp only at h
    split at h <;> cases h

theorem decodeStep_answers (hi : s.Inv) (hc : s.command = some .decode) : s.Answers .decode (decodeStep s) := by
  obtain ⟨hr, -, hph, -⟩ := hi.running hc
  have hp := State.phaseOf_codec rfl hph
  cases h : decodeStep s with
  | next t =>
    intro _
    obtain ⟨-, ⟨c, hc, rfl⟩ | ⟨f, c, hf, hc, rfl⟩ | ⟨f, -, -, rfl⟩⟩ := decodeStep_next h
    · exact .finish _ _ hr (by rcases receivedFrame_finish hc with rfl | rfl <;> simp)
    · have hne : c ≠ .none := by
        rcases parseFrame_returns s.config (receivedFrame_ok hf).1 with h | h | h <;> rw [h] at hc <;> cases hc <;> simp
      exact .finish _ _ ⟨hr.1, rfl, hr.2.2⟩ hne
    · exact .finish _ _ ⟨hr.1, rfl, hr.2.2⟩ (by simp)
  | fault f => exact .inr (.inr rfl)
  | refused r =>
    unfold decodeStep at h
    rw [hp] at h
    dsimp only at h
    split at h
    · cases h
    · cases h
    · split at h <;> cases h

theorem illegalStep_answers (hi : s.Inv) (hc : s.command = some i) (hf : firstPhase i = .codec) :
    s.Answers i (illegalStep s) := by
  obtain ⟨hr, -, hph, -⟩ := hi.running hc
  have hstep : illegalStep s = .next (s.finish .illegalCommand) := by
    rw [illegalStep, State.phaseOf_codec hf hph]
  rw [hstep]
  exact fun _ => .finish _ _ hr (by simp)

/-- What the running command of a sound state answers in its step. -/
theorem exec_answers (hi : s.Inv) (hc : s.command = some i) : s.Answers i (exec i s) := by
  have hb := (hi.running hc).2.1
  have run {f : State → Host.Outcome State Fault Refusal} (h : s.Answers i (f s)) :
      s.Answers i (s.runCommand i f) := by rwa [runCommand_running hb hc]
  cases i with
  | init => exact run (initStep_answers hi hc)
  | setmodeStandby | setmodeTx | setmodeRx => exact run (setmodeStep_answers hi hc rfl)
  | receive => exact run (receiveStep_answers hi hc)
  | transmit => exact run (transmitStep_answers hi hc)
  | encode => exact run (encodeStep_answers hi hc)
  | decode => exact run (decodeStep_answers hi hc)
  | illegal => exact run (illegalStep_answers hi hc rfl)
  | _ => exact absurd (hi.running hc).2.2.1 (by simp [State.phaseOf])

theorem exec_advances (hi : s.Inv) (hw : s.config.wf = true) (hc : s.command = some i) (h : exec i s = .next t) :
    s.Advances i t := by
  have ha := exec_answers hi hc
  rw [h] at ha
  exact ha hw

end

/-! ### The frames of the commands (R20, R242) -/

section
variable {s t : State}

theorem exec_setmode {i : Instr} {m : Target} (hm : setmodeTarget i = some m) (s : State) :
    exec i s = s.runCommand i (setmodeStep m) := by
  cases i <;> cases hm <;> rfl

/-- What INIT may write (R141). -/
theorem exec_init_frame (h : exec .init s = .next t) :
    t = { s with
      result := t.result, busy := t.busy, initOk := t.initOk, modeOk := t.modeOk, phase := t.phase,
      command := t.command, answers := t.answers, draws := t.draws, trace := t.trace } := by
  obtain ⟨-, rfl⟩ | ⟨-, -, h⟩ := runCommand_next h
  · rfl
  · obtain ⟨k, e, -, -, rfl⟩ | ⟨-, -, rfl⟩ | ⟨-, -, rfl⟩ := initStep_next h
    · split <;> rfl
    · rfl
    · rfl

/-- What SETMODE may write (R145). -/
theorem exec_setmode_frame {i : Instr} {m : Target} (hm : setmodeTarget i = some m) (h : exec i s = .next t) :
    t = { s with
      result := t.result, busy := t.busy, mode := t.mode, modeOk := t.modeOk, phase := t.phase, idxI := t.idxI,
      command := t.command, answers := t.answers, draws := t.draws, trace := t.trace } := by
  rw [exec_setmode hm] at h
  obtain ⟨-, rfl⟩ | ⟨-, -, h⟩ := runCommand_next h
  · rfl
  · obtain ⟨-, -, rfl⟩ | ⟨-, -, rfl⟩ | ⟨n, -, ⟨-, rfl⟩ | ⟨-, -, rfl⟩ | ⟨-, -, rfl⟩⟩ := setmodeStep_next h <;> rfl

/-- t is s but for what RECEIVE may write: RESULT, FLEN, FBUF, the sequencer and the bus (R160). -/
def State.ReceiveFrame (s t : State) : Prop :=
  t = { s with
    result := t.result, busy := t.busy, flen := t.flen, fbuf := t.fbuf, phase := t.phase, idxI := t.idxI,
    idxJ := t.idxJ, lenL := t.lenL, command := t.command, answers := t.answers, draws := t.draws,
    trace := t.trace }

theorem receivePoll_frame (n : Nat) (s : State) : s.ReceiveFrame (receivePoll n s) ∧ (receivePoll n s).fbuf = s.fbuf := by
  obtain ⟨-, h⟩ | ⟨-, -, h⟩ | ⟨-, -, h⟩ := receivePoll_cases n s <;> rw [h] <;> exact ⟨rfl, rfl⟩

theorem receiveStart_frame (s : State) : s.ReceiveFrame (receiveStart s) ∧ (receiveStart s).fbuf = s.fbuf := by
  obtain ⟨-, h⟩ | ⟨-, -, h⟩ | ⟨-, -, -, ⟨-, h⟩ | ⟨-, h⟩⟩ := receiveStart_cases s <;> rw [h]
  · exact ⟨rfl, rfl⟩
  · exact ⟨rfl, rfl⟩
  · exact ⟨rfl, rfl⟩
  · obtain ⟨hf, hb⟩ := receivePoll_frame 1 { s with flen := 0 }
    exact ⟨by rw [hf]; rfl, hb⟩

/-- RECEIVE stores the answer of the transceiver at the index its phase names, and no other byte (R160, R164). -/
theorem receiveStep_frame (h : receiveStep s = .next t) :
    s.ReceiveFrame t ∧ t.fbuf = (receiveStores s.phase).elim s.fbuf (Memory.write s.fbuf · s.nextAnswer) := by
  obtain ⟨hp, rfl⟩ | ⟨n, -, hp, rfl⟩ | ⟨hp, rfl⟩ | ⟨j, l, hp, -, -, -, rfl⟩ | ⟨l, hp, -, rfl⟩ | ⟨hp, rfl⟩ |
    ⟨d, hp, rfl⟩ | ⟨d, hp, rfl⟩ := receiveStep_next h <;> rw [hp]
  · exact receiveStart_frame s
  · exact receivePoll_frame n s
  · rw [receiveLength_eq]; exact ⟨rfl, rfl⟩
  · rw [receiveData_eq]; exact ⟨rfl, rfl⟩
  · obtain ⟨-, -, h⟩ | ⟨-, -, h⟩ | ⟨-, h⟩ := receiveOverrun_cases l s <;> rw [h] <;> exact ⟨rfl, rfl⟩
  · exact ⟨rfl, rfl⟩
  · obtain ⟨-, h⟩ | ⟨-, h⟩ := receiveDrainFlag_cases d s <;> rw [h] <;> exact ⟨rfl, rfl⟩
  · obtain ⟨-, h⟩ | ⟨-, h⟩ := receiveDrainRead_cases d s <;> rw [h] <;> exact ⟨rfl, rfl⟩

theorem exec_receive_frame (h : exec .receive s = .next t) :
    s.ReceiveFrame t ∧ ∀ a, receiveStores s.phase ≠ some a → Memory.read t.fbuf a = Memory.read s.fbuf a := by
  obtain ⟨-, rfl⟩ | ⟨-, -, h⟩ := runCommand_next h
  · exact ⟨rfl, fun _ _ => rfl⟩
  · obtain ⟨hf, hb⟩ := receiveStep_frame h
    refine ⟨hf, fun a ha => ?_⟩
    rw [hb]
    cases hs : receiveStores s.phase with
    | none => rfl
    | some j => exact Memory.read_write_other fun e => ha (e ▸ hs)

/-- What TRANSMIT may write (R166, R170). -/
theorem exec_transmit_frame (h : exec .transmit s = .next t) :
    t = { s with
      result := t.result, busy := t.busy, phase := t.phase, idxI := t.idxI, idxJ := t.idxJ, command := t.command,
      answers := t.answers, draws := t.draws, trace := t.trace } := by
  obtain ⟨-, rfl⟩ | ⟨-, -, h⟩ := runCommand_next h
  · rfl
  · obtain ⟨-, -, rfl⟩ | ⟨-, -, -, rfl⟩ | ⟨-, -, -, -, -, rfl⟩ | ⟨j, b, -, -, -, rfl⟩ | ⟨n, -, rfl⟩ :=
      transmitStep_next h
    · rfl
    · rfl
    · rfl
    · rfl
    · obtain ⟨-, h⟩ | ⟨-, -, h⟩ | ⟨-, -, h⟩ := transmitPoll_cases n s <;> rw [h] <;> rfl

/-- What ENCODE may write, and that FBUF and FLEN are the frame's, or as before when there is none (R215, R220). -/
theorem exec_encode_frame (h : exec .encode s = .next t) :
    t = { s with
      result := t.result, busy := t.busy, flen := t.flen, fbuf := t.fbuf, phase := t.phase,
      command := t.command } ∧
    ((t.fbuf = s.fbuf ∧ t.flen = s.flen) ∨
      ∃ f, encodedFrame s.config s.msg = .ok f ∧ t.fbuf = Memory.writeBytes s.fbuf 0 f) := by
  obtain ⟨-, rfl⟩ | ⟨-, -, h⟩ := runCommand_next h
  · exact ⟨rfl, .inl ⟨rfl, rfl⟩⟩
  · obtain ⟨-, ⟨c, -, rfl⟩ | ⟨f, hf, rfl⟩⟩ := encodeStep_next h
    · exact ⟨rfl, .inl ⟨rfl, rfl⟩⟩
    · exact ⟨rfl, .inr ⟨f, hf, rfl⟩⟩

/-- What DECODE may write (R205, R220). -/
theorem exec_decode_frame (h : exec .decode s = .next t) :
    t = { s with
      result := t.result, busy := t.busy, msg := t.msg, phase := t.phase, command := t.command,
      parser := t.parser } := by
  obtain ⟨-, rfl⟩ | ⟨-, -, h⟩ := runCommand_next h
  · rfl
  · obtain ⟨-, ⟨c, -, rfl⟩ | ⟨f, c, -, -, rfl⟩ | ⟨f, -, -, rfl⟩⟩ := decodeStep_next h <;> rfl

/-- What ILLEGAL may write (R92). -/
theorem exec_illegal_frame {rsv m : BitVec 2} {op : BitVec 4} (h : exec (.illegal rsv m op) s = .next t) :
    t = { s with result := t.result, busy := t.busy, phase := t.phase, command := t.command } := by
  obtain ⟨-, rfl⟩ | ⟨-, -, h⟩ := runCommand_next h
  · rfl
  · obtain ⟨-, rfl⟩ := illegalStep_next h; rfl

/-- No instruction writes the configuration or the host's moves (R35, R39). -/
theorem exec_config_host {i : Instr} (h : exec i s = .next t) : t.config = s.config ∧ t.host = s.host := by
  cases i with
  | init => rw [exec_init_frame h]; exact ⟨rfl, rfl⟩
  | setmodeStandby | setmodeTx | setmodeRx => rw [exec_setmode_frame rfl h]; exact ⟨rfl, rfl⟩
  | receive => rw [(exec_receive_frame h).1]; exact ⟨rfl, rfl⟩
  | transmit => rw [exec_transmit_frame h]; exact ⟨rfl, rfl⟩
  | encode => rw [(exec_encode_frame h).1]; exact ⟨rfl, rfl⟩
  | decode => rw [exec_decode_frame h]; exact ⟨rfl, rfl⟩
  | illegal => rw [exec_illegal_frame h]; exact ⟨rfl, rfl⟩
  | _ => cases h; exact ⟨rfl, rfl⟩

end

/-- Settles O46: INIT's and SETMODE's frames, field by field. -/
theorem modeControllerFrame : Obligations.ModeControllerFrame := by
  intro s t
  refine ⟨fun h => ?_, fun h => ?_, fun h => ?_⟩
  · rw [exec_init_frame h]; exact ⟨rfl, rfl⟩
  · rcases h with h | h | h | h
    · rw [exec_init_frame h]; exact ⟨rfl, rfl, fun _ => rfl, rfl, rfl, rfl, rfl, rfl, rfl, rfl⟩
    all_goals rw [exec_setmode_frame rfl h]; exact ⟨rfl, rfl, fun _ => rfl, rfl, rfl, rfl, rfl, rfl, rfl, rfl⟩
  · rcases h with h | h | h <;> rw [exec_setmode_frame rfl h]

/-- Settles O47: RECEIVE's and TRANSMIT's frames, field by field, and RECEIVE's one stored byte. -/
theorem fifoSequencerFrame : Obligations.FifoSequencerFrame := by
  intro s t
  refine ⟨fun h => ?_, fun h => (exec_receive_frame h).2, fun h => ?_⟩
  · rcases h with h | h
    · rw [(exec_receive_frame h).1]; exact ⟨rfl, rfl, rfl, rfl, rfl, rfl, rfl, rfl, rfl⟩
    · rw [exec_transmit_frame h]; exact ⟨rfl, rfl, rfl, rfl, rfl, rfl, rfl, rfl, rfl⟩
  · rw [exec_transmit_frame h]; exact ⟨rfl, rfl, fun _ => rfl⟩

/-- Settles O48: ENCODE's and DECODE's frames, and that a frame of N bytes is stored below index N. -/
theorem codecFrame : Obligations.CodecFrame := by
  intro s t
  refine ⟨fun h => ?_, fun h => ?_, fun h => ?_⟩
  · rcases h with h | h
    · rw [(exec_encode_frame h).1]; exact ⟨rfl, rfl, rfl, rfl, rfl, rfl, rfl, rfl, rfl, rfl, rfl, rfl, rfl⟩
    · rw [exec_decode_frame h]; exact ⟨rfl, rfl, rfl, rfl, rfl, rfl, rfl, rfl, rfl, rfl, rfl, rfl, rfl⟩
  · obtain ⟨hf, hs⟩ := exec_encode_frame h
    refine ⟨by rw [hf], by rw [hf], fun f hok a ha => ?_, fun e he => ?_⟩
    · obtain ⟨hb, -⟩ | ⟨g, hg, hb⟩ := hs
      · rw [hb]
      · cases hok.symm.trans hg
        rw [hb, Memory.read_writeBytes, if_neg (by omega)]
    · obtain ⟨hb, hl⟩ | ⟨g, hg, -⟩ := hs
      · exact ⟨hl, fun a => by rw [hb]⟩
      · cases he.symm.trans hg
  · rw [exec_decode_frame h]; exact ⟨rfl, fun _ => rfl⟩

/-! ### The invariant along the machine's steps -/

/-- Whatever byte the host writes to CMD, its row is well formed (R91, R92). -/
theorem decodeCommand_wf : ∀ c : Byte, (decodeCommand c).wf = true := by decide

section
variable {s t : State} {i : Instr}

/-- An accepted command stands at its first phase, which has no gate yet (R90). -/
theorem accept_inv (hf : i.format = .cmd) (hw : i.wf = true) (hi : s.Inv) (hb : s.busy = false) : (s.accept i).Inv := by
  obtain ⟨hr, -, -⟩ := hi.idle hb
  refine State.inv_iff.mpr ⟨hr, ?_, ?_⟩
  · cases i <;> simp_all [State.sequencerOk, State.phaseOf, firstPhase, RegisterProgram.entries, Instr.wf, Instr.format]
  · cases i <;> simp_all [State.phaseGate, firstPhase]

/-- A host write keeps FBUF in canonical form (R60). -/
theorem State.hostWrite_fbuf_wf {r : Reg} {v : BitVec 24} (hm : Memory.wf s.fbuf = true)
    (h : s.hostWrite r v = some t) : Memory.wf t.fbuf = true := by
  cases r with
  | status | seqL => cases h
  | fbuf i =>
    obtain ⟨-, h⟩ := Option.ite_none_right_eq_some.mp h
    cases h; exact Memory.wf_write hm i _
  | recPid | recType | recVlen | recVal =>
    obtain ⟨-, h⟩ := Option.ite_none_right_eq_some.mp h
    cases h; exact hm
  | _ => cases h; exact hm

/-- What a host write makes of the state (R39). -/
theorem State.hostWrite_eq {r : Reg} {v : BitVec 24} (h : s.hostWrite r v = some t) :
    t = { s with rxPolls := t.rxPolls, flen := t.flen, fbuf := t.fbuf, msg := t.msg } :=
  (congrArg (fun u : State => { u with rxPolls := t.rxPolls, flen := t.flen, fbuf := t.fbuf, msg := t.msg })
    (State.hostWrite_frame h) :)

/-- Everything a step can do, an acceptance and a host write written out: a move that only the host sees, a reset, an
acceptance, a write of the host's registers, or a step of the running command. -/
theorem step_cases (h : step s = .next t) :
    s.config.wf = true ∧
    ((∃ rest reads, t = { s with host := rest, reads := reads }) ∨
      (∃ rest, s.host = .reset :: rest ∧ t = { s with host := rest }.hostReset) ∨
      (∃ c rest, s.busy = false ∧ t = { s with host := rest }.accept (decodeCommand c)) ∨
      (∃ rest polls len cells msg, s.busy = false ∧ (Memory.wf s.fbuf = true → Memory.wf cells = true) ∧
        t = { s with host := rest, rxPolls := polls, flen := len, fbuf := cells, msg := msg }) ∨
      (∃ i rest, s.busy = true ∧ s.command = some i ∧ exec i { s with host := rest } = .next t)) := by
  obtain ⟨hw, ⟨rest, ht⟩ | ⟨rest, hh, ht⟩ | ⟨c, rest, hb, -, he⟩ | ⟨r, v, rest, hb, -, hwr⟩ | ⟨r, v, rest, -, ht⟩ |
    ⟨i, rest, hb, hc, -, he⟩⟩ := step_next h
  · exact ⟨hw, .inl ⟨rest, s.reads, ht⟩⟩
  · exact ⟨hw, .inr (.inl ⟨rest, hh, ht⟩)⟩
  · cases (exec_idle (s := { s with host := rest }) (decodeCommand_format c) hb).symm.trans he
    exact ⟨hw, .inr (.inr (.inl ⟨c, rest, hb, rfl⟩))⟩
  · exact ⟨hw, .inr (.inr (.inr (.inl ⟨rest, _, _, _, _, hb,
      fun hm => State.hostWrite_fbuf_wf (s := { s with host := rest }) hm hwr, State.hostWrite_eq hwr⟩)))⟩
  · exact ⟨hw, .inl ⟨rest, _, ht⟩⟩
  · exact ⟨hw, .inr (.inr (.inr (.inr ⟨i, rest, hb, hc, he⟩)))⟩

end

theorem hostReset_inv (s : State) : s.hostReset.Inv :=
  State.RegistersOk.inv_of_idle ⟨Memory.wf_reset, rfl, fun h => nomatch h⟩ rfl rfl rfl

/-- Settles O49: reset leaves the block idle, with its registers in order and MODE_OK = 0. -/
theorem resetMeetsInv : Obligations.ResetMeetsInv := ⟨hostReset_inv State.reset, fun h => nomatch h⟩

/-- Settles O50: a host move leaves an idle block idle or starts a command, and a running command advances. -/
theorem stepKeepsInv : Obligations.StepKeepsInv := by
  intro s t hi h
  obtain ⟨hw, ⟨rest, reads, rfl⟩ | ⟨rest, -, rfl⟩ | ⟨c, rest, hb, rfl⟩ | ⟨rest, p, n, m, g, hb, hm, rfl⟩ |
    ⟨i, rest, -, hc, he⟩⟩ := step_cases h
  · exact hi
  · exact hostReset_inv _
  · exact accept_inv (s := { s with host := rest }) (decodeCommand_format c) (decodeCommand_wf c) hi hb
  · obtain ⟨hr, hc, hp⟩ := hi.idle hb
    exact State.RegistersOk.inv_of_idle ⟨hm hr.1, hr.2⟩ hb hc hp
  · exact (exec_advances (s := { s with host := rest }) hi hw hc he).inv

/-- Settles O58: what `exec_answers` says of a refusal and of a fault. -/
theorem onlyCodecAndTransmitFault : Obligations.OnlyCodecAndTransmitFault := by
  intro s i hi hc
  have ha := exec_answers hi hc
  exact ⟨fun r h => by rwa [h] at ha, fun f h => by rwa [h] at ha⟩

/-- Settles O57: a running command's step is a finish or leaves RESULT and BUSY; a host move but reset leaves both. -/
theorem resultWrittenOnlyByFinish : Obligations.ResultWrittenOnlyByFinish := by
  intro s t hi h
  obtain ⟨hw, ⟨rest, reads, rfl⟩ | ⟨rest, hh, rfl⟩ | ⟨c, rest, -, rfl⟩ | ⟨rest, p, n, m, g, hb, -, rfl⟩ |
    ⟨i, rest, hb, hc, he⟩⟩ := step_cases h
  · exact ⟨fun hne => absurd rfl hne, fun hb hb' => by simp [hb] at hb'⟩
  · exact ⟨fun _ => .inr ⟨rest, hh⟩, fun _ _ => ⟨rfl, rfl, .inr ⟨rest, hh⟩⟩⟩
  · exact ⟨fun hne => absurd rfl hne, fun _ hb' => by simp at hb'⟩
  · exact ⟨fun hne => absurd rfl hne, fun hb hb' => by simp [hb] at hb'⟩
  · obtain ⟨hbt, hp, hct, hres⟩ | ⟨hbt, hres, -⟩ :=
      (exec_advances (s := { s with host := rest }) hi hw hc he).finished_or_running
    · exact ⟨fun _ => .inl ⟨hb, hbt, hp, hct⟩, fun _ _ => ⟨hp, hct, .inl hres⟩⟩
    · exact ⟨fun hne => absurd hres hne, fun _ hb' => by simp [hbt] at hb'⟩

/-- Settles O55: neither a host move nor an instruction writes the configuration. -/
theorem configurationNeverWritten : Obligations.ConfigurationNeverWritten := by
  intro s t h
  obtain ⟨-, ⟨rest, reads, rfl⟩ | ⟨rest, -, rfl⟩ | ⟨c, rest, -, rfl⟩ | ⟨rest, p, n, m, g, -, -, rfl⟩ |
    ⟨i, rest, -, -, he⟩⟩ := step_cases h
  · rfl
  · rfl
  · rfl
  · rfl
  · exact (exec_config_host he).1

/-! ### MODE (R27) -/

/-- Of the rows a running command can be, only SETMODE writes MODE, in its opmode write (R145). -/
theorem exec_mode {s t : State} {i : Instr} (hf : i.format = .cmd) (h : exec i s = .next t) (hne : t.mode ≠ s.mode) :
    s.phase = .smWrite ∧ s.initOk = true ∧ ∃ m, setmodeTarget i = some m ∧ t.mode = m.mode := by
  cases hm : setmodeTarget i with
  | some m =>
    rw [exec_setmode hm] at h
    obtain ⟨-, rfl⟩ | ⟨-, -, h⟩ := runCommand_next h
    · exact absurd rfl hne
    · obtain ⟨hp, hi, rfl⟩ | ⟨-, -, rfl⟩ | ⟨n, -, ⟨-, rfl⟩ | ⟨-, -, rfl⟩ | ⟨-, -, rfl⟩⟩ := setmodeStep_next h
      · exact ⟨hp, hi, m, rfl, rfl⟩
      all_goals exact absurd rfl hne
  | none =>
    refine absurd ?_ hne
    cases i with
    | init => rw [exec_init_frame h]
    | receive => rw [(exec_receive_frame h).1]
    | transmit => rw [exec_transmit_frame h]
    | encode => rw [(exec_encode_frame h).1]
    | decode => rw [exec_decode_frame h]
    | illegal => rw [exec_illegal_frame h]
    | setmodeStandby | setmodeTx | setmodeRx => cases hm
    | _ => cases hf

/-- A running command is a host command (R22). -/
theorem State.phaseOf_format {s : State} {i : Instr} {p : Phase} (h : s.phaseOf i p = true) : i.format = .cmd := by
  cases i <;> simp_all [State.phaseOf, Instr.format]

/-- Settles O56: of the host's moves only reset writes MODE, of the commands only SETMODE. -/
theorem modeWrittenOnlyBySetmode : Obligations.ModeWrittenOnlyBySetmode := by
  intro s t hi h hne
  obtain ⟨-, ⟨rest, reads, rfl⟩ | ⟨rest, hh, rfl⟩ | ⟨c, rest, -, rfl⟩ | ⟨rest, p, n, m, g, -, -, rfl⟩ |
    ⟨i, rest, hb, hc, he⟩⟩ := step_cases h
  · exact absurd rfl hne
  · exact .inl ⟨rest, hh, rfl⟩
  · exact absurd rfl hne
  · exact absurd rfl hne
  · obtain ⟨-, -, hph, -⟩ := hi.running hc
    obtain ⟨hp, hok, m, hm, ht⟩ := exec_mode (s := { s with host := rest }) (State.phaseOf_format hph) he hne
    exact .inr ⟨hb, hp, hok, i, m, hc, hm, ht⟩

/-! ### MODE_OK and the bus trace (R28, R75) -/

section
variable {s t : State} {i : Instr}

theorem modeReadySeen_append (c : Config) (tr : List BusEvent) (e : BusEvent) :
    modeReadySeen c (tr ++ [e]) = noteModeReady c (modeReadySeen c tr) e := by
  simp [modeReadySeen]

/-- From s to t the trace does not lose a mode-ready it has shown. -/
def State.KeepsReadySeen (s t : State) : Prop :=
  modeReadySeen s.config s.trace = true → modeReadySeen s.config t.trace = true

theorem State.KeepsReadySeen.of_eq (h : t.trace = s.trace) : s.KeepsReadySeen t := fun hs => by rw [h, hs]

theorem State.KeepsReadySeen.of_read {a : BusAddr} {v : Byte} (h : t.trace = s.trace ++ [.read a v]) :
    s.KeepsReadySeen t := fun hs => by
  rw [h, modeReadySeen_append, hs]
  simp [noteModeReady]

/-- A write to another register than the opmode register keeps the witness (R61). -/
theorem State.KeepsReadySeen.of_write {a : BusAddr} {v : Byte} (ha : s.config.addrOpmode ≠ a)
    (h : t.trace = s.trace ++ [.write a v]) : s.KeepsReadySeen t := fun hs => by
  rw [h, modeReadySeen_append, hs]
  simp [noteModeReady, ha.symm]

theorem State.KeepsReadySeen.readyWitnessed (hk : s.KeepsReadySeen t) (hs : s.ReadyWitnessed)
    (hm : t.modeOk = s.modeOk) (hc : t.config = s.config) : t.ReadyWitnessed := fun ht => by
  rw [hc]
  exact hk (hs (hm ▸ ht))

theorem readyWitnessed_of_modeOk_false (h : t.modeOk = false) : t.ReadyWitnessed := fun ht => by simp [h] at ht

/-- RECEIVE writes no register but IRQ-flags-2 (R165). -/
theorem receiveStep_keepsReadySeen (ha : s.config.addrOpmode ≠ s.config.addrIrqflags2)
    (h : receiveStep s = .next t) : s.KeepsReadySeen t := by
  obtain ⟨-, rfl⟩ | ⟨n, -, -, rfl⟩ | ⟨-, rfl⟩ | ⟨j, l, -, -, -, -, rfl⟩ | ⟨l, -, -, rfl⟩ | ⟨-, rfl⟩ | ⟨d, -, rfl⟩ |
    ⟨d, -, rfl⟩ := receiveStep_next h
  · obtain ⟨-, h⟩ | ⟨-, -, h⟩ | ⟨-, -, -, ⟨-, h⟩ | ⟨-, h⟩⟩ := receiveStart_cases s <;> rw [h]
    · exact .of_eq rfl
    · exact .of_eq rfl
    · exact .of_eq rfl
    · exact .of_read (receivePoll_trace 1 { s with flen := 0 })
  · exact .of_read (receivePoll_trace n s)
  · exact .of_read (receiveLength_trace s)
  · exact .of_read (receiveData_trace j l s)
  · exact .of_read (receiveOverrun_trace l s)
  · exact .of_write ha rfl
  · exact .of_read (receiveDrainFlag_trace d s)
  · exact .of_read (receiveDrainRead_trace d s)

/-- TRANSMIT writes no register but the FIFO (R168). -/
theorem transmitStep_keepsReadySeen (ha : s.config.addrOpmode ≠ s.config.addrFifo)
    (h : transmitStep s = .next t) : s.KeepsReadySeen t := by
  obtain ⟨-, -, rfl⟩ | ⟨-, -, -, rfl⟩ | ⟨-, -, -, -, -, rfl⟩ | ⟨j, b, -, -, -, rfl⟩ | ⟨n, -, rfl⟩ := transmitStep_next h
  · exact .of_eq rfl
  · exact .of_eq rfl
  · exact .of_eq rfl
  · exact .of_write ha rfl
  · exact .of_read (transmitPoll_trace n s)

/-- INIT runs with MODE_OK = 0 from its first write on (R141). -/
theorem initStep_modeOk (hg : s.phaseGate = true) (h : initStep s = .next t) : t.modeOk = false := by
  obtain ⟨k, e, hp, -, rfl⟩ | ⟨hp, -, rfl⟩ | ⟨hp, -, rfl⟩ := initStep_next h <;>
    simp [State.phaseGate, hp] at hg
  · by_cases hk : k = 0
    · simp [hk]
    · simpa [hk] using (hg.resolve_left hk).2
  · exact hg.2
  · exact hg.2

/-- SETMODE sets MODE_OK with the poll that reads mode-ready set, after its opmode write has cleared it (R145). -/
theorem setmodeStep_readyWitnessed {m : Target} (hg : s.phaseGate = true) (hs : s.ReadyWitnessed)
    (h : setmodeStep m s = .next t) : t.ReadyWitnessed := by
  obtain ⟨-, -, rfl⟩ | ⟨-, -, rfl⟩ | ⟨n, hp, hpoll⟩ := setmodeStep_next h
  · exact readyWitnessed_of_modeOk_false rfl
  · exact hs
  · have hmode : s.modeOk = false := by simp [State.phaseGate, hp] at hg; exact hg.1.2
    obtain ⟨hf, rfl⟩ | ⟨-, -, rfl⟩ | ⟨-, -, rfl⟩ := hpoll
    · intro _
      show modeReadySeen s.config (s.trace ++ [.read s.config.addrIrqflags1 s.nextAnswer]) = true
      rw [modeReadySeen_append]
      simp [noteModeReady, hf]
    · exact readyWitnessed_of_modeOk_false hmode
    · exact readyWitnessed_of_modeOk_false hmode

theorem exec_readyWitnessed (hi : s.Inv) (ha : opmodeApart s.config = true) (hs : s.ReadyWitnessed)
    (hc : s.command = some i) (h : exec i s = .next t) : t.ReadyWitnessed := by
  obtain ⟨-, hb, hph, hg⟩ := hi.running hc
  simp only [opmodeApart, Bool.and_eq_true, bne_iff_ne] at ha
  have hcfg := (exec_config_host h).1
  have run {f : State → Host.Outcome State Fault Refusal} (hr : s.runCommand i f = .next t) : f s = .next t := by
    rwa [runCommand_running hb hc] at hr
  cases i with
  | init => exact readyWitnessed_of_modeOk_false (initStep_modeOk hg (run h))
  | setmodeStandby | setmodeTx | setmodeRx => exact setmodeStep_readyWitnessed hg hs (run h)
  | receive =>
    exact (receiveStep_keepsReadySeen ha.2 (run h)).readyWitnessed hs (by rw [(exec_receive_frame h).1]) hcfg
  | transmit =>
    exact (transmitStep_keepsReadySeen ha.1 (run h)).readyWitnessed hs (by rw [exec_transmit_frame h]) hcfg
  | encode => rw [(exec_encode_frame h).1]; exact hs
  | decode => rw [exec_decode_frame h]; exact hs
  | illegal => rw [exec_illegal_frame h]; exact hs
  | _ => exact absurd hph (by simp [State.phaseOf])

end

/-- Settles O51: host moves set no MODE_OK and make no transaction; of the commands only SETMODE's mode-ready poll sets
MODE_OK, and no other command writes the opmode register while MODE_OK = 1. -/
theorem modeOkMeansModeReadySeen : Obligations.ModeOkMeansModeReadySeen := by
  intro s t hi ha hs h
  obtain ⟨-, ⟨rest, reads, rfl⟩ | ⟨rest, -, rfl⟩ | ⟨c, rest, -, rfl⟩ | ⟨rest, p, n, m, g, -, -, rfl⟩ |
    ⟨i, rest, -, hc, he⟩⟩ := step_cases h
  · exact hs
  · exact readyWitnessed_of_modeOk_false rfl
  · exact hs
  · exact hs
  · exact exec_readyWitnessed (s := { s with host := rest }) hi ha hs hc he

/-! ### Every command ends (R38) -/

/-- A running command has a step to take. -/
theorem stepsLeft_pos {s : State} {i : Instr} (hw : s.config.wf = true) (hph : s.phaseOf i s.phase = true) :
    0 < s.stepsLeft := by
  have hpoll := (pollBounds_of_wf hw).2
  cases hp : s.phase with
  | idle => rw [hp] at hph; cases i <;> cases hph
  | _ => simp [State.stepsLeft, hp] <;> omega

/-- A sound state with a command running and no host move to come reaches BUSY = 0 or the model fault within n steps, for
every bound n on the steps left. -/
theorem ends_within (n : Nat) : ∀ {s : State}, s.Inv → s.config.wf = true → s.busy = true → s.host = [] →
    s.stepsLeft ≤ n → ∃ k, k ≤ n ∧
      ((∃ t, Host.Core.run core k s = .next t ∧ t.busy = false) ∨ ∃ f, Host.Core.run core k s = .fault f) := by
  induction n with
  | zero =>
    intro s hi hw hb _ hn
    obtain ⟨i, hc⟩ := hi.command_of_busy hb
    exact absurd hn (Nat.not_le.mpr (stepsLeft_pos hw (hi.running hc).2.2.1))
  | succ n ih =>
    intro s hi hw hb hh hn
    obtain ⟨i, hc⟩ := hi.command_of_busy hb
    have hstep := step_running hw hh hb hc
    have ha := exec_answers hi hc
    cases he : exec i s with
    | refused r => rw [he] at ha; exact ha.elim
    | fault f => exact ⟨1, by omega, .inr ⟨f, run_fault 0 (hstep.trans he)⟩⟩
    | next t =>
      have hadv := exec_advances hi hw hc he
      obtain ⟨hcfg, hhost⟩ := exec_config_host he
      obtain ⟨hbt, -⟩ | ⟨hbt, -, hlt⟩ := hadv.finished_or_running
      · exact ⟨1, by omega, .inl ⟨t, run_next 0 (hstep.trans he), hbt⟩⟩
      · obtain ⟨k, hk, hend⟩ := ih hadv.inv (hcfg ▸ hw) hbt (hhost.trans hh) (by omega)
        exact ⟨k + 1, by omega, by rwa [run_next k (hstep.trans he)]⟩

/-- R38's bound covers every command at its acceptance. -/
theorem accept_stepsLeft_le (i : Instr) (s : State) : (s.accept i).stepsLeft ≤ s.stepBound := by
  unfold State.stepBound
  cases i <;> simp only [State.stepsLeft, State.accept_phase, State.accept_config, State.accept_rxPolls,
    State.accept_flen, firstPhase] <;> omega

/-- Settles O54: the steps left fall with every step, and at acceptance they are within R38's bound. -/
theorem everyCommandEndsWithinBound : Obligations.EveryCommandEndsWithinBound := by
  refine ⟨fun s hi hw hb hh => ends_within _ hi hw hb hh (Nat.le_refl _), fun i s t hf _ hb he => ?_⟩
  cases (exec_idle hf hb).symm.trans he
  exact accept_stepsLeft_le i s

/-! ### Reset, STATUS and acceptance -/

/-- Every record register is unwritten after reset (R40). -/
theorem Msg.recAt_reset (k : Nat) : Msg.reset.recAt k = MsgRec.unwritten := by
  by_cases hk : k < 28 <;> simp [Msg.recAt, Msg.reset, hk]

theorem MsgRec.valAt_unwritten (b : Nat) : MsgRec.unwritten.valAt b = none := by
  by_cases hb : b < 15 <;> simp [MsgRec.valAt, MsgRec.unwritten, hb]

/-- Settles O7: each field is the one `State.reset` gives it. -/
theorem resetValues : Obligations.ResetValues := by
  refine ⟨rfl, rfl, rfl, rfl, rfl, rfl, rfl, rfl, rfl, rfl, rfl, fun _ => rfl, rfl, rfl, rfl, rfl, rfl, fun k => ?_⟩
  have hk : State.reset.msg.recAt k = MsgRec.unwritten := Msg.recAt_reset k
  rw [hk]
  exact ⟨rfl, rfl, rfl, MsgRec.valAt_unwritten⟩

/-- Settles O13: an idle block accepts every host command, and nothing but the sequencer changes. -/
theorem commandAcceptedAtFirstPhase : Obligations.CommandAcceptedAtFirstPhase :=
  ⟨fun _ _ hf hb => exec_idle hf hb, rfl, rfl, rfl, rfl, rfl, rfl, rfl, rfl, fun _ _ _ => rfl⟩

/-- Settles O16: each opmode row is `State.writeOpmode` of its target. -/
theorem opmodeWrites : Obligations.OpmodeWrites := fun _ => ⟨rfl, rfl, rfl⟩

/-- The fields of STATUS stand at their bits (R23). -/
theorem statusFields : ∀ (r : BitVec 4) (b i k : Bool) (m : BitVec 2),
    let w : BitVec 16 := (0#6) ++ m ++ (0#1) ++ BitVec.ofBool k ++ BitVec.ofBool i ++ BitVec.ofBool b ++ r
    w.extractLsb' 0 4 = r ∧ w.getLsbD 4 = b ∧ w.getLsbD 5 = i ∧ w.getLsbD 6 = k ∧ w.getLsbD 7 = false ∧
      w.extractLsb' 8 2 = m ∧ w.extractLsb' 10 6 = 0 := by decide

/-- The codes 0xC to 0xE are no result's (R240). -/
theorem resultCode_unreserved (r : ResultCode) : r.code ≠ 0xC ∧ r.code ≠ 0xD ∧ r.code ≠ 0xE := by
  cases r <;> decide

/-! ### The host's accesses (R39, R292) -/

section
variable {s t : State} {rest : List HostMove}

theorem hostStep_write {r : Reg} {v : BitVec 24} (hb : s.busy = false) (h : s.hostWrite r v = some t) :
    hostStep (.write r v) s = .next t := by
  simp [hostStep, hb, h]

/-- While BUSY = 0 a host write of a register it may write is taken. -/
theorem step_write {r : Reg} {v : BitVec 24} (hw : s.config.wf = true) (hb : s.busy = false)
    (hh : s.host = .write r v :: rest) (h : { s with host := rest }.hostWrite r v = some t) : step s = .next t := by
  rw [step_host hw hh]
  exact hostStep_write (s := { s with host := rest }) hb h

/-- While BUSY = 0 a host read gives what the register holds, or the fault of an unwritten one (R41). -/
theorem step_read {r : Reg} {v : Option (BitVec 24)} (hw : s.config.wf = true) (hb : s.busy = false)
    (hh : s.host = .read r :: rest) (hv : s.hostValue r = some v) :
    (∀ x, v = some x → step s = .next { s with host := rest, reads := s.reads ++ [⟨r, x⟩] }) ∧
      (v = none → step s = .fault (.unwritten r)) := by
  have hv' : { s with host := rest }.hostValue r = some v := (State.hostValue_host s rest r).trans hv
  rw [step_host hw hh]
  refine ⟨fun x hx => ?_, fun hn => ?_⟩
  · exact State.hostRead_written (s := { s with host := rest }) hb (hx ▸ hv')
  · exact State.hostRead_unwritten (s := { s with host := rest }) hb (hn ▸ hv')

/-- A write of one record register changes that one only (R34). -/
theorem State.recordWritten_setRec (s : State) (rest : List HostMove) (k : Nat) (r : MsgRec) :
    s.RecordWritten { s with host := rest, msg := s.msg.setRec k r } rest k :=
  ⟨rfl, Msg.setRec_other s.msg k r, fun j hj => by simp [Msg.recAt_setRec, hj]⟩

theorem Msg.recAt_setRec_same (m : Msg) {k : Nat} (hk : k < 28) (r : MsgRec) : (m.setRec k r).recAt k = r := by
  simp [Msg.recAt_setRec, hk]

/-- A host write of a record register: the step taken, and what it leaves. -/
theorem step_writeRec {r : Reg} {v : BitVec 24} {k : Nat} {new : MsgRec} (hw : s.config.wf = true)
    (hb : s.busy = false) (hk : k < 28) (hh : s.host = .write r v :: rest)
    (h : { s with host := rest }.hostWrite r v = some { s with host := rest, msg := s.msg.setRec k new }) :
    ∃ t, step s = .next t ∧ s.RecordWritten t rest k ∧ t.msg.recAt k = new :=
  ⟨_, step_write hw hb hh h, s.recordWritten_setRec rest k new, Msg.recAt_setRec_same s.msg hk new⟩

theorem step_write_busy (hw : s.config.wf = true) (hb : s.busy = true) {r : Reg} {v : BitVec 24}
    (hh : s.host = .write r v :: rest) : step s = .refused .hostProtocol := by
  rw [step_host hw hh]; simp [hostStep, hb]

theorem step_cmd_busy (hw : s.config.wf = true) (hb : s.busy = true) {c : Byte} (hh : s.host = .cmd c :: rest) :
    step s = .refused .hostProtocol := by
  rw [step_host hw hh]; simp [hostStep, hb]

theorem step_read_busy (hw : s.config.wf = true) (hb : s.busy = true) {r : Reg} (hr : r ≠ .status)
    (hh : s.host = .read r :: rest) : step s = .refused .hostProtocol := by
  rw [step_host hw hh]; simp [hostStep, State.hostRead, hb, hr]

/-- STATUS is read at any time (R23). -/
theorem step_read_status (hw : s.config.wf = true) (hh : s.host = .read .status :: rest) :
    step s = .next { s with host := rest, reads := s.reads ++ [⟨.status, s.status.setWidth 24⟩] } := by
  rw [step_host hw hh]; exact if_neg fun h => h.2 rfl

/-- STATUS is never written (R23). -/
theorem step_write_status (hw : s.config.wf = true) {v : BitVec 24} (hh : s.host = .write .status v :: rest) :
    step s = .refused .hostProtocol := by
  rw [step_host hw hh]; simp [hostStep, State.hostWrite]

end

/-- Settles O9: the fields by `statusFields`; the host's read of STATUS has no condition, its write no effect. -/
theorem statusWord : Obligations.StatusWord :=
  ⟨fun s => statusFields s.result.code s.busy s.initOk s.modeOk s.mode.code, rfl, rfl, rfl, rfl, by decide,
    ⟨rfl, rfl, rfl, rfl, rfl, rfl, rfl, rfl, rfl, rfl, rfl, rfl, rfl, resultCode_unreserved⟩,
    fun _ _ hw hh => step_read_status hw hh, fun _ _ _ hw hh => step_write_status hw hh⟩

/-- Settles O10: while BUSY = 1 each access is refused; while BUSY = 0 each register has its write and its read. -/
theorem hostAccessOnlyWhileIdle : Obligations.HostAccessOnlyWhileIdle := by
  refine ⟨fun s rest hw hb => ?_, fun s rest v hw hb => ?_, fun s rest r hw hb hh => ?_⟩
  · exact ⟨fun c hh => step_cmd_busy hw hb hh, fun r v hh => step_write_busy hw hb hh,
      fun r hr hh => step_read_busy hw hb hr hh⟩
  · refine ⟨fun hh => step_write hw hb hh rfl, fun hh => step_write hw hb hh rfl, fun i hi hh => ?_,
      fun hh => step_write hw hb hh rfl, fun hh => step_write hw hb hh rfl, fun hh => step_write hw hb hh rfl,
      fun hh => step_write hw hb hh rfl, fun hh => step_write hw hb hh rfl, fun k hk => ⟨fun hh => ?_, fun hh => ?_,
      fun hh => ?_, fun b hb15 hh => ?_⟩⟩
    · refine ⟨_, step_write hw hb hh (if_pos hi), rfl, ?_, fun j hj => Memory.read_write_other hj⟩
      simp [Memory.read_write, hi]
    · exact step_writeRec hw hb hk hh (if_pos hk)
    · exact step_writeRec hw hb hk hh (if_pos hk)
    · exact step_writeRec hw hb hk hh (if_pos hk)
    · obtain ⟨t, ht, hrec, hnew⟩ := step_writeRec hw hb hk hh (if_pos ⟨hk, hb15⟩)
      refine ⟨t, ht, hrec, ?_⟩
      rw [hnew]
      exact ⟨rfl, by simp [MsgRec.valAt_setVal, hb15], fun a ha => by simp [MsgRec.valAt_setVal, ha]⟩
  · refine ⟨fun hr => ?_, fun i hi hr => ?_, fun hr => ?_, fun hr => ?_, fun hr => ?_, fun hr => ?_, fun hr => ?_,
      fun k hk => ⟨fun hr => ?_, fun hr => ?_, fun hr => ?_, fun b hb15 hr => ?_⟩⟩
    all_goals subst hr
    case refine_2 => exact step_read hw hb hh (if_pos hi)
    case refine_8 | refine_9 | refine_10 => exact step_read hw hb hh (if_pos hk)
    case refine_11 => exact step_read hw hb hh (if_pos ⟨hk, hb15⟩)
    all_goals exact step_read hw hb hh rfl

/-- The low n bits of a host write, read back (R39, R60). -/
theorem toNat_setWidth_readBack {n : Nat} (hn : n ≤ 24) (v : BitVec 24) :
    ((v.setWidth n).setWidth 24).toNat = v.toNat % 2 ^ n := by
  have hlt : v.toNat % 2 ^ n < 2 ^ 24 :=
    Nat.lt_of_lt_of_le (Nat.mod_lt _ (Nat.two_pow_pos n)) (Nat.pow_le_pow_right (by decide) hn)
  rw [BitVec.toNat_setWidth, BitVec.toNat_setWidth, Nat.mod_eq_of_lt hlt]

/-- Settles O11: each register read back after its own write. -/
theorem hostReadsBackWrites : Obligations.HostReadsBackWrites := by
  intro s t r v hr h
  cases r with
  | status | seqL => cases h
  | rxPolls => exact absurd rfl hr
  | flen | msgMfr | msgProduct | msgPip | msgNrec =>
    cases h
    exact ⟨_, rfl, toNat_setWidth_readBack (by decide) v⟩
  | msgDevid =>
    cases h
    exact ⟨v, rfl, (Nat.mod_eq_of_lt v.isLt).symm⟩
  | fbuf i =>
    obtain ⟨hi, h⟩ := Option.ite_none_right_eq_some.mp h
    cases h
    have hi66 : i < 66 := hi
    refine ⟨(v.setWidth 8).setWidth 24, ?_, toNat_setWidth_readBack (by decide) v⟩
    simp [State.hostValue, hi, Memory.read_write, hi66]
  | recPid k | recType k | recVlen k =>
    obtain ⟨hk, h⟩ := Option.ite_none_right_eq_some.mp h
    cases h
    refine ⟨_, ?_, toNat_setWidth_readBack (by simp [regBits]) v⟩
    simp only [State.hostValue, if_pos hk, Msg.recAt_setRec_same _ hk]
    rfl
  | recVal k b =>
    obtain ⟨hkb, h⟩ := Option.ite_none_right_eq_some.mp h
    cases h
    refine ⟨(v.setWidth 8).setWidth 24, ?_, toNat_setWidth_readBack (by decide) v⟩
    simp [State.hostValue, hkb, Msg.recAt_setRec_same _ hkb.1, MsgRec.valAt_setVal]

/-! ### TRANSMIT's FIFO load -/

/-- A running command's `exec` is its controller step. -/
theorem State.Running.exec_eq {s : State} {i : Instr} {p : Phase} {f : State → Host.Outcome State Fault Refusal}
    (h : s.Running i p) (he : exec i s = s.runCommand i f) : exec i s = f s :=
  he.trans (runCommand_running h.1 h.2.1)

/-- Settles O29: past TRANSMIT's gates TX_DATA(j) is `transmitData`, whose one read is of FBUF[j]. -/
theorem transmitLoadsFifo : Obligations.TransmitLoadsFifo := by
  intro s j hrun hgate
  have hdata : exec .transmit s = transmitData j s := by
    rw [hrun.exec_eq (f := transmitStep) rfl, transmitStep_data hrun.2.2]
    split
    · obtain ⟨hi, hm, hk, hl, h66⟩ := hgate ‹_›
      rw [transmitStart_data hi hm hk (fun h0 => hl (BitVec.eq_of_toNat_eq h0)) h66, ‹j = 0›]
    · rfl
  rw [hdata]
  exact ⟨fun b hb => transmitData_written hb, fun hn => transmitData_unwritten hn⟩

/-! ### The checks and the faults of the codec -/

section
variable {s : State}

theorem encodeStep_of_finish {c : ResultCode} (hp : s.phase = .codec)
    (h : encodedFrame s.config s.msg = .error (.finish c)) : encodeStep s = .next (s.finish c) := by
  rw [encodeStep, hp]; simp only [h]

theorem encodeStep_of_fault {f : Fault} (hp : s.phase = .codec)
    (h : encodedFrame s.config s.msg = .error (.fault f)) : encodeStep s = .fault f := by
  rw [encodeStep, hp]; simp only [h]

theorem decodeStep_of_fault {f : Fault} (hp : s.phase = .codec) (h : receivedFrame s = .error (.fault f)) :
    decodeStep s = .fault f := by
  rw [decodeStep, hp]; simp only [h]

end

section
variable {c : Config} {m : Msg}

/-- More records than MSG has registers (R216). -/
theorem encodedFrame_tooManyRecords (hn : 28 < m.nrec.toNat) : encodedFrame c m = .error (.finish .malformedRecord) :=
  if_pos hn

/-- The first record that does not pass decides ENCODE (R216). -/
theorem encodedFrame_of_first {h : Halt} {k : Nat} (hn : m.nrec.toNat ≤ 28) (hk : k < m.nrec.toNat)
    (hp : ∀ j, j < k → m.RecPasses c j) (hj : ∀ n, checkRecs c m k (n + 1) = .error h) :
    encodedFrame c m = .error h := by
  have hcheck := checkRecs_first hj k 0 m.nrec.toNat (Nat.zero_add k).symm hk fun j _ hjk => hp j hjk
  have hmax : ¬ Config.maxRecords < m.nrec.toNat := Nat.not_lt.mpr hn
  rw [encodedFrame, if_neg hmax, hcheck]

/-- The sum of the record lengths of a message whose records pass (R215). -/
theorem checkRecs_all (hp : ∀ k, k < m.nrec.toNat → m.RecPasses c k) :
    checkRecs c m 0 m.nrec.toNat =
      .ok ((List.range m.nrec.toNat).map fun k => 2 + ((m.recAt k).vlen.getD 0).toNat).sum := by
  simpa using checkRecs_passes (c := c) (m := m) m.nrec.toNat 0 fun j _ hj => hp j (by omega)

/-- The length of the frame of a message whose records pass (R215). -/
def Msg.frameBytes (m : Msg) : Nat :=
  10 + ((List.range m.nrec.toNat).map fun k => 2 + ((m.recAt k).vlen.getD 0).toNat).sum

/-- Records that pass but make a frame of more than 66 bytes (R216). -/
theorem encodedFrame_badLength (hn : m.nrec.toNat ≤ 28) (hp : ∀ k, k < m.nrec.toNat → m.RecPasses c k)
    (hlen : 66 < m.frameBytes) : encodedFrame c m = .error (.finish .badLength) := by
  have hmax : ¬ Config.maxRecords < m.nrec.toNat := Nat.not_lt.mpr hn
  rw [encodedFrame, if_neg hmax, checkRecs_all hp]
  exact if_pos hlen

/-- Past its checks ENCODE ends as its read of the header does (R215, R216). -/
theorem encodedFrame_of_header {h : Halt} (hn : m.nrec.toNat ≤ 28) (hp : ∀ k, k < m.nrec.toNat → m.RecPasses c k)
    (hlen : m.frameBytes ≤ 66) (hh : headerBytes m = .error h) : encodedFrame c m = .error h := by
  have hmax : ¬ Config.maxRecords < m.nrec.toNat := Nat.not_lt.mpr hn
  rw [encodedFrame, if_neg hmax, checkRecs_all hp]
  exact (if_neg (Nat.not_lt.mpr hlen)).trans (by rw [hh])

/-- Past its checks and the header ENCODE ends as its read of the records does (R215, R216). -/
theorem encodedFrame_of_records {h : Halt} {header : List Byte} (hn : m.nrec.toNat ≤ 28)
    (hp : ∀ k, k < m.nrec.toNat → m.RecPasses c k) (hlen : m.frameBytes ≤ 66) (hh : headerBytes m = .ok header)
    (hr : recsBytes m 0 m.nrec.toNat = .error h) : encodedFrame c m = .error h := by
  have hmax : ¬ Config.maxRecords < m.nrec.toNat := Nat.not_lt.mpr hn
  rw [encodedFrame, if_neg hmax, checkRecs_all hp]
  exact (if_neg (Nat.not_lt.mpr hlen)).trans (by rw [hh, hr])

end

/-- DECODE's length and length byte pass, or the length byte is unwritten: the first unwritten byte is the fault (R205). -/
theorem receivedFrame_unwritten {s : State} {i : Nat} (h9 : 9 ≤ s.flen.toNat) (h66 : s.flen.toNat ≤ 66)
    (hi : i < s.flen.toNat) (hn : Memory.read s.fbuf i = none)
    (hw : ∀ j, j < i → ∃ b, Memory.read s.fbuf j = some b)
    (hl : ∀ l, Memory.read s.fbuf 0 = some l → l.toNat = s.flen.toNat - 1) :
    receivedFrame s = .error (.fault (.unwritten (.fbuf i))) := by
  have hlen : ¬ (s.flen.toNat < 9 ∨ Config.maxFifoBuffer < s.flen.toNat) :=
    not_or.mpr ⟨Nat.not_lt.mpr h9, Nat.not_lt.mpr h66⟩
  simp only [receivedFrame, if_neg hlen]
  cases i with
  | zero => simp [State.fbufByte, hn]
  | succ i =>
    obtain ⟨l, h0⟩ := hw 0 (Nat.succ_pos i)
    have hbytes := State.fbufBytes_unwritten s (i + 1) hn s.flen.toNat 0 (Nat.zero_le _) (by omega)
      fun j _ hj => hw j hj
    simp [State.fbufByte, h0, hl l h0, hbytes]

section
variable {s : State}

theorem exec_encode_finish {c : ResultCode} (hrun : s.Running .encode .codec)
    (h : encodedFrame s.config s.msg = .error (.finish c)) : exec .encode s = .next (s.finish c) :=
  (hrun.exec_eq rfl).trans (encodeStep_of_finish hrun.2.2 h)

theorem exec_encode_fault {f : Fault} (hrun : s.Running .encode .codec)
    (h : encodedFrame s.config s.msg = .error (.fault f)) : exec .encode s = .fault f :=
  (hrun.exec_eq rfl).trans (encodeStep_of_fault hrun.2.2 h)

end

/-- Settles O39: the number of records, then the first record that does not pass, by the first of its own checks that
fails, then the frame's length. -/
theorem encodeChecksInOrder : Obligations.EncodeChecksInOrder := by
  intro s hrun
  refine ⟨fun h => exec_encode_finish hrun (encodedFrame_tooManyRecords h), fun hn => ⟨fun k hk hp => ?_,
    fun hp hlen => exec_encode_finish hrun (encodedFrame_badLength hn hp hlen)⟩⟩
  dsimp only
  have finish {c : ResultCode} (hj : ∀ n, checkRecs s.config s.msg k (n + 1) = .error (.finish c)) :
      exec .encode s = .next (s.finish c) := exec_encode_finish hrun (encodedFrame_of_first hn hk hp hj)
  have fault {f : Fault} (hj : ∀ n, checkRecs s.config s.msg k (n + 1) = .error (.fault f)) :
      exec .encode s = .fault f := exec_encode_fault hrun (encodedFrame_of_first hn hk hp hj)
  refine ⟨fun hpid => fault fun n => ?_, fun hpid => finish fun n => ?_, fun pid hpid hne => ?_⟩
  · simp [checkRecs, hpid]
  · simp [checkRecs, hpid]
  · have hne : pid ≠ 0#8 := hne
    refine ⟨fun ht => fault fun n => ?_, fun t ht => ⟨fun hw => finish fun n => ?_, fun w hw =>
      ⟨fun hv => fault fun n => ?_, fun v hv hvw => finish fun n => ?_⟩⟩⟩
    · simp [checkRecs, hpid, hne, ht]
    · simp [checkRecs, hpid, hne, ht, hw]
    · simp [checkRecs, hpid, hne, ht, hw, hv]
    · simp [checkRecs, hpid, ht, hw, hv, hvw]

/-- Settles O44: DECODE reads the frame from FBUF[0] on; ENCODE reads the header registers in their order, then the value
bytes in record and byte order. -/
theorem codecFaultsOnUnwritten : Obligations.CodecFaultsOnUnwritten := by
  refine ⟨fun s hrun h9 h66 i hi hn hw hl => ?_, fun s hrun hn hp hlen => ?_⟩
  · exact (hrun.exec_eq rfl).trans (decodeStep_of_fault hrun.2.2 (receivedFrame_unwritten h9 h66 hi hn hw hl))
  · have header {r : Reg} (hh : headerBytes s.msg = .error (.fault (.unwritten r))) :
        exec .encode s = .fault (.unwritten r) :=
      exec_encode_fault hrun (encodedFrame_of_header hn hp hlen hh)
    refine ⟨fun h1 => header ?_, fun _ h1 h2 => header ?_, fun _ _ h1 h2 h3 => header ?_,
      fun _ _ _ h1 h2 h3 h4 => header ?_, fun _ _ _ _ h1 h2 h3 h4 k b hk hw hb hnone hbw => ?_⟩
    · simp [headerBytes, h1]
    · simp [headerBytes, h1, h2]
    · simp [headerBytes, h1, h2, h3]
    · simp [headerBytes, h1, h2, h3, h4]
    · have hrecs := recsBytes_fault (hp k hk) hb hnone hbw k 0 s.msg.nrec.toNat (Nat.zero_add k).symm hk
        fun i _ hik => ⟨hp i (by omega), hw i hik⟩
      exact exec_encode_fault hrun
        (encodedFrame_of_records hn hp hlen (by simp only [headerBytes, h1, h2, h3, h4, needHalt_some]; rfl) hrecs)

end Sys2Proof.Machine

/-! SUPPORT. Proofs of the memory family (20_memory.md): the register program and its address range, and the gates that
stand before every transaction of RECEIVE and TRANSMIT. -/

namespace Sys2Proof

/-! ### The register program (R140, R66, R72) -/

section
variable (p : RegisterProgram)

theorem RegisterProgram.length_entries : p.entries.length = 17 + p.sync.length := by
  simp only [RegisterProgram.entries, List.length_append, List.length_cons, List.length_nil]
  omega

/-- The sync-word entries stand after the thirteen entries up to the sync configuration (R140). -/
theorem RegisterProgram.getElem?_entries_sync {j : Nat} (hj : j < p.sync.length) :
    p.entries[13 + j]? = p.sync[j]? := by
  rw [RegisterProgram.entries, List.append_assoc, List.getElem?_append_right (Nat.le_add_right 13 j)]
  simp [List.getElem?_append_left, hj]

/-- The last four entries stand after the sync-word entries (R140). -/
theorem RegisterProgram.getElem?_entries_last {k : Nat} (hk : 13 + p.sync.length ≤ k) :
    p.entries[k]? =
      [p.packetConfig1, p.payloadLength, p.nodeAddress, p.fifoThreshold][k - (13 + p.sync.length)]? := by
  have hsync : p.sync.length ≤ k - 13 := Nat.le_sub_of_add_le' hk
  rw [RegisterProgram.entries, List.append_assoc, List.getElem?_append_right (Nat.le_of_add_right_le hk)]
  exact (List.getElem?_append_right hsync).trans (by rw [Nat.sub_sub])

end

/-- What a well-formed configuration says of its register program (R72, R140). -/
theorem Config.program_of_wf {c : Config} (h : c.wf = true) :
    (∀ e ∈ c.cfg.entries, e.addr.toNat ≤ 0x3F) ∧ c.cfg.sync.length ≤ 8 := by
  simp only [Config.wf, Bool.and_eq_true, List.all_eq_true, CfgEntry.wf, decide_eq_true_eq] at h
  obtain ⟨⟨⟨⟨⟨⟨⟨⟨haddr, hsync⟩, -⟩, -⟩, -⟩, -⟩, -⟩, -⟩, -⟩ := h
  exact ⟨haddr, hsync⟩

/-- Settles O19: the program is thirteen entries, the sync-word entries and four entries, in that order. -/
theorem registerProgramLength : Obligations.RegisterProgramLength := by
  intro c p n
  have hlen : p.entries.length = 17 + n := p.length_entries
  refine ⟨hlen, fun hw => ?_, ⟨rfl, rfl, rfl, rfl, rfl, rfl, rfl, rfl, rfl, rfl, rfl, rfl, rfl⟩,
    fun j hj => p.getElem?_entries_sync hj, ?_, ?_, ?_, ?_⟩
  · obtain ⟨haddr, hsync⟩ := Config.program_of_wf hw
    exact ⟨hlen ▸ Nat.add_le_add_left hsync 17, haddr⟩
  all_goals
    rw [p.getElem?_entries_last (Nat.add_le_add_right (by decide) n), Nat.add_sub_add_right]
    rfl

end Sys2Proof

namespace Sys2Proof.Machine

/-- A step in an ill-formed configuration is refused, whatever the state (R72). -/
theorem step_of_not_wf {s : State} (h : ¬ s.config.wf = true) : step s = .refused .illFormedConfig := if_neg h

/-- Settles O59: an address above 0x3F makes the configuration ill-formed. -/
theorem illFormedConfigurationRefused : Obligations.IllFormedConfigurationRefused := by
  rintro s ⟨e, he, hhigh⟩
  refine step_of_not_wf fun hw => ?_
  obtain ⟨haddr, -⟩ := Config.program_of_wf hw
  exact Nat.not_lt.mpr (haddr e he) hhigh

/-! ### RECEIVE and TRANSMIT make no transaction before their gates (R75, R281) -/

section
variable {s t : State}

/-- RECEIVE's first step makes a transaction only past its gates; every later phase stands behind them (R160). -/
theorem receiveStep_gate_of_trace_ne (hph : s.phaseOf .receive s.phase = true) (hg : s.phaseGate = true)
    (h : receiveStep s = .next t) (hne : t.trace ≠ s.trace) :
    s.initOk = true ∧ s.modeOk = true ∧ s.mode = .rx := by
  by_cases hp : s.phase = .rxPoll 1
  · rw [receiveStep_poll hp, if_pos rfl] at h
    cases h
    obtain ⟨-, h⟩ | ⟨-, -, h⟩ | ⟨hi, hm, hk, -⟩ := receiveStart_cases s
    · exact absurd (congrArg State.trace h) hne
    · exact absurd (congrArg State.trace h) hne
    · exact ⟨hi, hk, hm⟩
  · obtain ⟨hi, hk, hm, -⟩ := State.receiving_of_phaseGate hph hg hp
    exact ⟨hi, hk, hm⟩

/-- TRANSMIT's first step makes a transaction only past its gates; every later phase stands behind them (R166). -/
theorem transmitStep_gate_of_trace_ne (hph : s.phaseOf .transmit s.phase = true) (hg : s.phaseGate = true)
    (h : transmitStep s = .next t) (hne : t.trace ≠ s.trace) : s.Transmitting := by
  by_cases hp : s.phase = .txData 0
  · obtain ⟨-, -, rfl⟩ | ⟨-, -, -, rfl⟩ | ⟨-, -, -, -, -, rfl⟩ | ⟨j, b, hj, hgate, -⟩ | ⟨n, hn, -⟩ :=
      transmitStep_next h
    · exact absurd rfl hne
    · exact absurd rfl hne
    · exact absurd rfl hne
    · cases hp.symm.trans hj
      obtain ⟨hi, hm, hk, -⟩ := hgate rfl
      exact ⟨hi, hk, hm⟩
    · cases hp.symm.trans hn
  · exact State.transmitting_of_phaseGate hph hg hp

/-- A step that makes a transaction is a step of the running command: a host move and an acceptance make none (R133). -/
theorem exec_of_step_trace_ne (h : step s = .next t) (hne : t.trace ≠ s.trace) :
    ∃ i rest, s.busy = true ∧ s.command = some i ∧ exec i { s with host := rest } = .next t := by
  obtain ⟨-, ⟨rest, reads, rfl⟩ | ⟨rest, -, rfl⟩ | ⟨c, rest, -, rfl⟩ | ⟨rest, p, n, m, g, -, -, rfl⟩ | hrun⟩ :=
    step_cases h
  · exact absurd rfl hne
  · exact absurd rfl hne
  · exact absurd rfl hne
  · exact absurd rfl hne
  · exact hrun

end

/-- Settles O52: a transaction is made by the running command, and RECEIVE and TRANSMIT make theirs past their gates. -/
theorem noFifoAccessOutsideReadyMode : Obligations.NoFifoAccessOutsideReadyMode := by
  intro s t hinv hc h hne
  obtain ⟨i, rest, hb, hi, he⟩ := exec_of_step_trace_ne h hne
  obtain ⟨-, -, hph, hg⟩ := hinv.running hi
  have run {f : State → Host.Outcome State Fault Refusal}
      (hr : { s with host := rest }.runCommand i f = .next t) : f { s with host := rest } = .next t := by
    rwa [runCommand_running (s := { s with host := rest }) hb hi] at hr
  rcases hc with hc | hc <;> cases hi.symm.trans hc
  · obtain ⟨hinit, hk, hm⟩ := receiveStep_gate_of_trace_ne (s := { s with host := rest }) hph hg (run he) hne
    exact ⟨hinit, hk, fun _ => hm, fun htx => (nomatch hc.symm.trans htx)⟩
  · obtain ⟨hinit, hk, hm⟩ := transmitStep_gate_of_trace_ne (s := { s with host := rest }) hph hg (run he) hne
    exact ⟨hinit, hk, fun hrx => (nomatch hc.symm.trans hrx), fun _ => hm⟩

end Sys2Proof.Machine

/-! SUPPORT. Proofs of the encoding family (30_encoding.md): the round trip of every row, the illegal command bytes, the bus
bytes, the framing bound, PARSE turn by turn and over a list of records, and the frame ENCODE builds. -/

namespace Sys2Proof

/-! ### Decode and encode (R90 to R100) -/

/-- The decoder reads back what the encoder writes, row by row. -/
theorem decodeAs_encode : ∀ i : Instr, Laws.Roundtrip.Statement i
  | .init => Laws.Roundtrip.init
  | .setmodeStandby => Laws.Roundtrip.setmodeStandby
  | .setmodeTx => Laws.Roundtrip.setmodeTx
  | .setmodeRx => Laws.Roundtrip.setmodeRx
  | .receive => Laws.Roundtrip.receive
  | .transmit => Laws.Roundtrip.transmit
  | .encode => Laws.Roundtrip.encode
  | .decode => Laws.Roundtrip.decode
  | .illegal rsv m op => Laws.Roundtrip.illegal rsv m op
  | .busRead a => Laws.Roundtrip.busRead a
  | .busWrite a v => Laws.Roundtrip.busWrite a v
  | .opmodeStandby => Laws.Roundtrip.opmodeStandby
  | .opmodeTx => Laws.Roundtrip.opmodeTx
  | .opmodeRx => Laws.Roundtrip.opmodeRx
  | .typeOtUint low => Laws.Roundtrip.typeOtUint low
  | .typeOtUint4 low => Laws.Roundtrip.typeOtUint4 low
  | .typeOtUint8 low => Laws.Roundtrip.typeOtUint8 low
  | .typeOtUint12 low => Laws.Roundtrip.typeOtUint12 low
  | .typeOtUint16 low => Laws.Roundtrip.typeOtUint16 low
  | .typeOtUint20 low => Laws.Roundtrip.typeOtUint20 low
  | .typeOtUint24 low => Laws.Roundtrip.typeOtUint24 low
  | .typeOtChar low => Laws.Roundtrip.typeOtChar low
  | .typeOtSint low => Laws.Roundtrip.typeOtSint low
  | .typeOtSint8 low => Laws.Roundtrip.typeOtSint8 low
  | .typeOtSint16 low => Laws.Roundtrip.typeOtSint16 low
  | .typeOtSint24 low => Laws.Roundtrip.typeOtSint24 low
  | .typeUnnamedC low => Laws.Roundtrip.typeUnnamedC low
  | .typeUnnamedD low => Laws.Roundtrip.typeUnnamedD low
  | .typeUnnamedE low => Laws.Roundtrip.typeUnnamedE low
  | .typeOtFloat low => Laws.Roundtrip.typeOtFloat low
  | .recordTerminator => Laws.Roundtrip.recordTerminator

theorem encode_decodeCommand : ∀ c : Byte, encode (decodeCommand c) = [c] := by decide

theorem encode_decodeType : ∀ t : Byte, encode (decodeType t) = [t] := by decide

@[simp] theorem decodeType_format (t : Byte) : (decodeType t).format = .recordType := by
  unfold decodeType
  dsimp only
  split <;> rfl

/-- Every row but ILLEGAL is well formed at every operand (R92). -/
theorem Instr.wf_of_format {i : Instr} (h : i.format ≠ .cmd) : i.wf = true := by
  cases i with
  | illegal => exact absurd rfl h
  | _ => rfl

/-- An address byte with bit 6 clear is that of a read or of a write, by bit 7 (R94, R95). -/
theorem addressByte_of_bit6 : ∀ b : Byte, b.getLsbD 6 = false →
    b = if b.getLsbD 7 then writeAddressByte (b.extractLsb' 0 6) else readAddressByte (b.extractLsb' 0 6) := by decide

theorem decodeBus_ok {bs rest : List Byte} {i : Instr} (h : decodeBus bs = .ok (i, rest)) :
    i.format = .busAddr ∧ encode i ++ rest = bs := by
  cases bs with
  | nil => cases h
  | cons b bs =>
    rw [decodeBus.eq_def] at h
    dsimp only at h
    split at h
    · cases h
    · rename_i h6
      have hb := addressByte_of_bit6 b (by simpa using h6)
      split at h
      · rw [if_pos ‹_›] at hb
        cases bs with
        | nil => cases h
        | cons d bs => cases h; exact ⟨rfl, congrArg (· :: d :: rest) hb.symm⟩
      · rw [if_neg ‹_›] at hb
        cases h
        exact ⟨rfl, congrArg (· :: rest) hb.symm⟩

theorem decodeOpmode_ok {b : Byte} {i : Instr} (h : decodeOpmode b = .ok i) :
    i.format = .opmodeValue ∧ encode i = [b] := by
  unfold decodeOpmode at h
  split at h <;> cases h <;> exact ⟨rfl, congrArg (· :: []) (BitVec.eq_of_toNat_eq (Eq.symm ‹_›))⟩

/-- The one parameter id that is a row is the terminator's (R99). -/
theorem decodePid_ok {b : Byte} {i : Instr} : decodePid b = .ok i ↔ b = 0 ∧ i = .recordTerminator := by
  by_cases h : b = 0
  · simp [decodePid, h, eq_comm]
  · rw [decodePid, if_neg h]
    exact ⟨nofun, fun hb => absurd hb.1 h⟩

/-- Whatever is read in a format is a well-formed row of it, and the bytes read are what the encoder writes. -/
theorem encode_of_decodeAs_ok {f : Format} {bs rest : List Byte} {i : Instr} (h : decodeAs f bs = .ok (i, rest)) :
    i.wf = true ∧ i.format = f ∧ encode i ++ rest = bs := by
  cases f with
  | cmd =>
    cases bs with
    | nil => cases h
    | cons c bs =>
      cases h
      exact ⟨Machine.decodeCommand_wf c, Machine.decodeCommand_format c, congrArg (· ++ rest) (encode_decodeCommand c)⟩
  | busAddr =>
    obtain ⟨hf, he⟩ := decodeBus_ok h
    exact ⟨Instr.wf_of_format (by simp [hf]), hf, he⟩
  | opmodeValue =>
    cases bs with
    | nil => cases h
    | cons b bs =>
      unfold decodeAs at h
      dsimp only at h
      split at h <;> cases h
      obtain ⟨hf, he⟩ := decodeOpmode_ok ‹_›
      exact ⟨Instr.wf_of_format (by simp [hf]), hf, congrArg (· ++ rest) he⟩
  | recordType =>
    cases bs with
    | nil => cases h
    | cons t bs =>
      cases h
      exact ⟨Instr.wf_of_format (by simp), decodeType_format t, congrArg (· ++ rest) (encode_decodeType t)⟩
  | recordPid =>
    cases bs with
    | nil => cases h
    | cons b bs =>
      unfold decodeAs at h
      dsimp only at h
      split at h <;> cases h
      obtain ⟨rfl, rfl⟩ := decodePid_ok.mp ‹_›
      exact ⟨rfl, rfl, rfl⟩

/-- Settles O4: row by row one way, format by format the other. -/
theorem decodeEncodeAgree : Obligations.DecodeEncodeAgree :=
  ⟨fun i rest h => decodeAs_encode i h rest, fun _ _ _ _ h => encode_of_decodeAs_ok h⟩

/-- Settles O1: a byte that decodes to one of the eight commands is what the encoder writes for it. -/
theorem commandBytesExactlyEight : Obligations.CommandBytesExactlyEight := by
  refine ⟨rfl, rfl, rfl, rfl, rfl, rfl, rfl, rfl, fun c hc => ?_⟩
  have hf := Machine.decodeCommand_format c
  have he := encode_decodeCommand c
  cases h : decodeCommand c with
  | illegal rsv m op => exact ⟨rsv, m, op, rfl⟩
  | init | setmodeStandby | setmodeTx | setmodeRx | receive | transmit | encode | decode =>
    rw [h] at he
    cases he
    exact absurd (by decide) hc
  | _ => rw [h] at hf; cases hf

/-- Settles O2: each word is decoded by computation. -/
theorem rowWordsDecode : Obligations.RowWordsDecode :=
  ⟨rfl, rfl, rfl, rfl, rfl, rfl, rfl, rfl, rfl, rfl⟩

/-- The address byte of a transaction as the spec writes it, with its bits 7 and 6 (R94). -/
theorem addressByte_eq : ∀ a : BusAddr,
    writeAddressByte a = a.setWidth 8 ||| 0x80 ∧ readAddressByte a = a.setWidth 8 ∧
    a.setWidth 8 &&& 0x7F = (a.setWidth 8 : Byte) ∧
    (a.setWidth 8 ||| (0x80 : Byte)).getLsbD 7 = true ∧ (a.setWidth 8 ||| (0x80 : Byte)).getLsbD 6 = false ∧
    (a.setWidth 8 : Byte).getLsbD 7 = false ∧ (a.setWidth 8 : Byte).getLsbD 6 = false := by decide

/-- Settles O5: the wire bytes are the address byte and the data byte. -/
theorem busWireBytes : Obligations.BusWireBytes := by
  intro a v
  obtain ⟨hw, hr, hmask, hbits⟩ := addressByte_eq a
  exact ⟨by rw [Machine.BusEvent.wire, hw], by rw [Machine.BusEvent.wire, hr, hmask], hmask, hbits⟩

/-! ### Illegal command bytes (R92) -/

/-- R92's list of the illegal field values is the complement of R91's eight encodings. -/
theorem legalCommand_eq_false : ∀ (rsv m : BitVec 2) (op : BitVec 4),
    rsv ≠ 0 ∨ op = 0 ∨ 7 ≤ op.toNat ∨ (m ≠ 0 ∧ op ≠ 2) ∨ (op = 2 ∧ m = 3) → legalCommand rsv m op = false := by decide

/-- A command byte is its fields RSV, M and OP (R90). -/
theorem commandByte_fields : ∀ c : Byte, c.extractLsb' 6 2 ++ c.extractLsb' 4 2 ++ c.extractLsb' 0 4 = c := by decide

end Sys2Proof

namespace Sys2Proof.Machine

theorem illegalStep_codec {s : State} (hp : s.phase = .codec) : illegalStep s = .next (s.finish .illegalCommand) := by
  rw [illegalStep, hp]

/-- Settles O3: the fields of the byte are no legal command, so its row is ILLEGAL with those fields. -/
theorem illegalCommandFinishes : Obligations.IllegalCommandFinishes := by
  rintro c rsv m op rfl rfl rfl h
  refine ⟨?_, fun s hb => exec_idle rfl hb, fun s hrun => (hrun.exec_eq rfl).trans (illegalStep_codec hrun.2.2)⟩
  have hwf : (Instr.illegal (c.extractLsb' 6 2) (c.extractLsb' 4 2) (c.extractLsb' 0 4)).wf = true := by
    simp [Instr.wf, legalCommand_eq_false _ _ _ h]
  simpa only [commandByte_fields] using Laws.Roundtrip.decodeCommand_illegal _ _ _ hwf

/-! ### The framing bound (R162) -/

theorem framingOk_eq_decide (l : Byte) : framingOk l = decide (13 ≤ l.toNat + 1 ∧ l.toNat + 1 ≤ 15) := by
  rw [Bool.eq_iff_iff, framingOk_iff, decide_eq_true_eq]; omega

/-- The length bytes whose frame is read on (R162). -/
theorem framingOk_iff_eq : ∀ l : Byte, framingOk l = true ↔ l = 12 ∨ l = 13 ∨ l = 14 := by decide

/-- Settles O23: RX_LEN is `receiveLength`, whose next phase the framing bound decides. -/
theorem receiveFramingBound : Obligations.ReceiveFramingBound := by
  intro s hrun
  refine ⟨receiveLength s, (hrun.exec_eq rfl).trans (receiveStep_len hrun.2.2), ?_, fun j => ?_, ?_⟩
  · rw [receiveLength_eq, nextAnswer_eq_answerAt, framingOk_eq_decide, busRead_eq]
    simp only [decide_eq_true_eq]
    rfl
  · rw [receiveLength_eq, nextAnswer_eq_answerAt]
    simp [Memory.read_write]
  · rw [receiveLength_eq, nextAnswer_eq_answerAt, ← framingOk_iff_eq]
    cases framingOk (s.answerAt 0) <;> simp

/-! ### One turn of PARSE (R197) -/

section
variable {c : Config} {p : Parser}

theorem Parser.terminate_running (hr : p.status = .running) :
    p.terminate = { p with status := if p.pos + 1 = p.stop then .done else .failed .malformedRecord } := by
  unfold Parser.terminate
  rw [hr]
  dsimp only
  split <;> rfl

/-- A turn at the checksum ends the parse. -/
theorem Parser.next_end (hr : p.status = .running) (h : p.stop ≤ p.pos) :
    p.next c = { p with status := .done } := by
  rw [Parser.next, hr]
  exact if_pos h

theorem Parser.next_terminator (hr : p.status = .running) (h : p.pos < p.stop) (h0 : p.plain[p.pos]? = some 0) :
    p.next c = p.terminate := by
  rw [Parser.next, hr]
  simp [Nat.not_le.mpr h, h0]

/-- A PID as the last byte before the checksum has no type byte. -/
theorem Parser.next_noType {pid : Byte} (hr : p.status = .running) (h : p.stop = p.pos + 1)
    (hp : p.plain[p.pos]? = some pid) (hne : pid ≠ 0) : p.next c = { p with status := .failed .malformedRecord } := by
  have hne : pid ≠ 0#8 := hne
  rw [Parser.next, hr]
  simp [h, hp, hne, Parser.fail]

theorem Parser.next_record {pid t : Byte} (hr : p.status = .running) (h : p.pos + 1 < p.stop)
    (hp : p.plain[p.pos]? = some pid) (hne : pid ≠ 0) (ht : p.plain[p.pos + 1]? = some t) :
    p.next c = p.takeRecord c t := by
  have hne : pid ≠ 0#8 := hne
  rw [Parser.next, hr]
  simp [hp, hne, ht, Nat.not_le.mpr h, Nat.not_le.mpr (Nat.lt_of_succ_lt h)]

end

theorem exec_decodeType (t : Byte) (s : State) : exec (decodeType t) s = .next (s.takeRecord t) := by
  obtain ⟨t', he, hx⟩ := exec_recordType (decodeType_format t) s
  cases (encode_decodeType t).symm.trans he
  exact hx

theorem decodePid_error {b : Byte} {e : DecodeError} (h : decodePid b = .error e) : b ≠ 0 := by
  rintro rfl
  cases h

/-- Settles O36: the terminator's row is `Parser.terminate`. -/
theorem recordTerminatorEndsParse : Obligations.RecordTerminatorEndsParse := by
  intro s hr
  rw [← Parser.terminate_running hr]
  rfl

/-- Settles O37: a PID that decodes is the terminator, any other stands before a type byte. -/
theorem parseTurnRunsDecodedRow : Obligations.ParseTurnRunsDecodedRow := by
  refine fun s hr => ⟨Parser.next_end hr, fun hlt pid hpid => ⟨fun i hi => ?_, fun e he => ?_⟩⟩
  · obtain ⟨rfl, rfl⟩ := decodePid_ok.mp hi
    rw [Parser.next_terminator hr hlt hpid]
    rfl
  · have hne := decodePid_error he
    refine ⟨fun h => Parser.next_noType hr h hpid hne, fun h t ht => ?_⟩
    rw [Parser.next_record hr h hpid hne ht]
    exact exec_decodeType t s

/-! ### PARSE of a list of records (R197, R198) -/

theorem Parser.run_add (c : Config) (m n : Nat) (p : Parser) : p.run c (m + n) = (p.run c m).run c n := by
  induction m generalizing p with
  | zero => rw [Nat.zero_add, Parser.run]
  | succ m ih => rw [Nat.succ_add, Parser.run, ih, Parser.run]

/-- A parse runs, and `bs` are the bytes from its position up to the checksum. -/
def Parser.Left (p : Parser) (bs : List Byte) : Prop :=
  p.status = .running ∧ p.pos + bs.length = p.stop ∧ bs <+: p.plain.drop p.pos

/-- Where PARSE stands once it has taken `recs`: past their bytes, in the same frame. -/
def Parser.past (p : Parser) (recs : List Rec) : Parser :=
  { p with recs := p.recs ++ recs, pos := p.pos + (recs.flatMap Rec.wire).length }

/-- PARSE begins at offset 8, with the bytes up to the last one before it (R197). -/
theorem Parser.left_start {head bs : List Byte} (hh : head.length = 8) (sum : Byte) :
    (Parser.start (head ++ bs ++ [sum]) (head ++ bs ++ [sum]).length).Left bs := by
  refine ⟨rfl, by simp [Parser.start, hh], [sum], ?_⟩
  rw [Parser.start, List.append_assoc]
  exact (hh ▸ List.drop_left).symm

section
variable {c : Config} {p : Parser} {bs : List Byte} {recs : List Rec}

theorem Parser.Left.getElem? (h : p.Left bs) {j : Nat} {b : Byte} (hb : bs[j]? = some b) :
    p.plain[p.pos + j]? = some b := by
  obtain ⟨-, -, t, ht⟩ := h
  obtain ⟨hj, -⟩ := List.getElem?_eq_some_iff.mp hb
  rw [← List.getElem?_drop, ← ht, List.getElem?_append_left hj, hb]

theorem Parser.Left.past (h : p.Left (recs.flatMap Rec.wire ++ bs)) : (p.past recs).Left bs := by
  obtain ⟨hr, hs, t, ht⟩ := h
  refine ⟨hr, (Nat.add_assoc _ _ _).trans (List.length_append ▸ hs), t, ?_⟩
  rw [List.append_assoc] at ht
  exact (List.drop_left.symm.trans (congrArg _ ht)).trans List.drop_drop

/-- The turn at the wire bytes of a valid record takes that record (R197). -/
theorem Parser.Left.next_wire {r : Rec} (h : p.Left (r.wire ++ bs)) (hv : r.Valid c) : p.next c = p.past [r] := by
  obtain ⟨hne, hw, hval⟩ := hv
  have ⟨hr, hs, t, ht⟩ := h
  have hpid : p.plain[p.pos]? = some r.pid := h.getElem? (j := 0) rfl
  have hbytes : (p.plain.drop (p.pos + 2)).take r.width = r.val := by
    rw [← List.drop_drop, ← ht, ← hval]; simp [Rec.wire]
  have hlen : p.pos + 2 + r.width ≤ p.stop := by
    rw [← hs, ← hval]; simp only [Rec.wire, List.length_append, List.length_cons]; omega
  have hnext : p.next c = p.takeRecord c r.type :=
    Parser.next_record hr (by omega) hpid hne (h.getElem? (j := 1) rfl)
  have hpast : p.takeRecord c r.type = { p with recs := p.recs ++ [r], pos := p.pos + 2 + r.width } := by
    rw [Parser.takeRecord, hr]
    simp [hw, hpid, hbytes, Nat.not_lt.mpr hlen]
  rw [hnext, hpast]
  simp [Parser.past, Rec.wire, hval]
  omega

/-- A turn for each of a list of valid records takes them in order (R197, R198). -/
theorem Parser.Left.run_wire (h : p.Left (recs.flatMap Rec.wire ++ bs)) (hv : ∀ r ∈ recs, r.Valid c) :
    p.run c recs.length = p.past recs := by
  induction recs generalizing p with
  | nil => simp [Parser.run, Parser.past]
  | cons r recs ih =>
    obtain ⟨hr, hrecs⟩ := List.forall_mem_cons.mp hv
    rw [List.flatMap_cons, List.append_assoc] at h
    have hpast : (p.past [r]).Left (recs.flatMap Rec.wire ++ bs) := Parser.Left.past (by simpa using h)
    rw [List.length_cons, Parser.run, h.next_wire hr, ih hpast hrecs]
    simp [Parser.past, Nat.add_assoc]

theorem Parser.Left.next_nil (h : p.Left []) : p.next c = { p with status := .done } :=
  Parser.next_end h.1 (Nat.le_of_eq h.2.1.symm)

/-- The turn at a terminator ends the parse, with an error when bytes stand after it (R99, R197). -/
theorem Parser.Left.next_zero (h : p.Left (0 :: bs)) :
    p.next c = { p with status := if bs = [] then .done else .failed .malformedRecord } := by
  have ⟨hr, hs, _⟩ := h
  rw [List.length_cons] at hs
  have hlast : p.pos + 1 = p.stop ↔ bs = [] := by rw [← List.length_eq_zero_iff]; omega
  rw [Parser.next_terminator hr (by omega) (h.getElem? (j := 0) rfl), Parser.terminate_running hr]
  simp only [hlast]

/-- PARSE of a frame whose bytes from offset 8 on begin with the wire bytes of valid records returns what its turn after
them returns (R197): a record has 2 bytes or more, so turns are left. -/
theorem parse_records {head plain : List Byte} {sum : Byte} (hh : head.length = 8) (hv : ∀ r ∈ recs, r.Valid c)
    (hp : plain = head ++ (recs.flatMap Rec.wire ++ bs) ++ [sum]) :
    ∃ p : Parser, p.Left bs ∧ p.recs = recs ∧
      ((p.next c).status ≠ .running → (Parser.start plain plain.length).run c plain.length = p.next c) := by
  have hleft : (Parser.start plain plain.length).Left (recs.flatMap Rec.wire ++ bs) := hp ▸ Parser.left_start hh sum
  refine ⟨_, hleft.past, rfl, fun hret => ?_⟩
  have hrecs : recs.length ≤ (recs.flatMap Rec.wire).length := by
    rw [List.length_flatMap]
    simpa using List.length_le_sum_of_one_le (recs.map fun r => r.wire.length) (by simp [Rec.wire])
  obtain ⟨n, hn⟩ : ∃ n, plain.length = recs.length + (n + 1) :=
    ⟨plain.length - recs.length - 1, by simp only [hp, List.length_append]; omega⟩
  rw [hn] at hleft hret ⊢
  rw [Parser.run_add, hleft.run_wire hv, Parser.run, Parser.run_of_returned c n hret]

end

/-- Settles O38: past the records stand nothing, the terminator alone, or the terminator and more. -/
theorem parseReadsBackRecords : Obligations.ParseReadsBackRecords := by
  intro c head tail recs sum hh hv body parse
  refine ⟨?_, ?_, fun htail => ?_⟩
  · obtain ⟨p, hleft, hrecs, hrun⟩ :=
      parse_records (bs := []) (plain := head ++ body ++ [sum]) (sum := sum) hh hv (by simp [body])
    rw [hleft.next_nil] at hrun
    have hparse := hrun (by simp)
    exact ⟨congrArg Parser.status hparse, (congrArg Parser.recs hparse).trans hrecs⟩
  · obtain ⟨p, hleft, hrecs, hrun⟩ :=
      parse_records (bs := [0]) (plain := head ++ body ++ [0, sum]) (sum := sum) hh hv (by simp [body])
    rw [hleft.next_zero, if_pos rfl] at hrun
    have hparse := hrun (by simp)
    exact ⟨congrArg Parser.status hparse, (congrArg Parser.recs hparse).trans hrecs⟩
  · obtain ⟨p, hleft, -, hrun⟩ :=
      parse_records (bs := 0 :: tail) (plain := head ++ body ++ [0] ++ tail ++ [sum]) (sum := sum) hh hv (by simp [body])
    rw [hleft.next_zero, if_neg htail] at hrun
    exact congrArg Parser.status (hrun (by simp))

/-! ### The frame ENCODE builds (R215, R217, R218) -/

/-- XCRYPT undoes itself (R194). -/
theorem xcrypt_xcrypt (c : Config) (x : List Byte) (n : Nat) (s : BitVec 16) : xcrypt c (xcrypt c x n s) n s = x := by
  refine List.ext_getElem? fun j => ?_
  rw [xcrypt_getElem?, xcrypt_getElem?, Option.map_map]
  refine (congrArg (Option.map · x[j]?) (funext fun b => ?_)).trans Option.map_id'
  simp only [Function.comp_apply]
  split
  · rw [BitVec.xor_assoc, BitVec.xor_self, BitVec.xor_zero]
  · rfl

/-- The checksum's place is no part of XCRYPT (R193). -/
theorem xcrypt_append_last (c : Config) (x : List Byte) (b : Byte) (s : BitVec 16) :
    xcrypt c (x ++ [b]) (x.length + 1) s = xcrypt c x (x.length + 1) s ++ [b] := by
  refine List.ext_getElem? fun j => ?_
  rw [xcrypt_getElem?]
  obtain h | h := Nat.lt_or_ge j x.length
  · rw [List.getElem?_append_left h, List.getElem?_append_left (by rwa [xcrypt_length]), xcrypt_getElem?]
  · have hj : ¬ (3 ≤ j ∧ j + 2 ≤ x.length + 1) := by omega
    rw [List.getElem?_append_right h, List.getElem?_append_right (by rwa [xcrypt_length]), xcrypt_length]
    simp only [if_neg hj, Option.map_id']

section
variable (c : Config) (p : List Byte)

@[simp] theorem sealFrame_length : (sealFrame c p).length = p.length + 1 := by simp [sealFrame]

theorem sealFrame_decrypts :
    xcrypt c (sealFrame c p) (p.length + 1) (seed c (p.getD 2 0)) =
      p ++ [(sealFrame c p).getD p.length 0] := by
  have hlast : (sealFrame c p).getD p.length 0 =
      checksum (xcrypt c p (p.length + 1) (seed c (p.getD 2 0))) (p.length + 1) := by
    simp [sealFrame, List.getD_eq_getElem?_getD]
  have h := xcrypt_append_last c (xcrypt c p (p.length + 1) (seed c (p.getD 2 0)))
    ((sealFrame c p).getD p.length 0) (seed c (p.getD 2 0))
  rw [xcrypt_length, xcrypt_xcrypt] at h
  rw [← h, hlast]
  rfl

theorem sealFrame_checksum :
    (sealFrame c p).getD p.length 0 = (((sealFrame c p).take p.length).drop 1).foldl (· + ·) 0 := by
  rw [← sumBytes_eq_foldl]
  have htake (x : List Byte) (h : x.length = p.length) : x.take p.length = x := List.take_of_length_le (Nat.le_of_eq h)
  simp [sealFrame, checksum, List.getD_eq_getElem?_getD, htake]

end

/-- The header of a frame at offsets 1 to 7, most significant bytes first (R97, R215). -/
def headerWire (mfr product : Byte) (pip : BitVec 16) (devid : BitVec 24) : List Byte :=
  [mfr, product, byteOf pip 1, byteOf pip 0, byteOf devid 2, byteOf devid 1, byteOf devid 0]

theorem headerBytes_written {m : Msg} {mfr product : Byte} {pip : BitVec 16} {devid : BitVec 24} (h1 : m.mfr = some mfr)
    (h2 : m.product = some product) (h3 : m.pip = some pip) (h4 : m.devid = some devid) :
    headerBytes m = .ok (headerWire mfr product pip devid) := by
  simp [headerBytes, headerWire, h1, h2, h3, h4]

section
variable (mfr product : Byte) (pip : BitVec 16) (devid : BitVec 24) (records : List Byte)

theorem plainFrame_length : (plainFrame (headerWire mfr product pip devid) records).length = 9 + records.length := by
  simp [plainFrame, headerWire]; omega

/-- The plain frame byte by byte: its length byte is one less than the frame's length (R97, R98, R218). -/
theorem plainFrame_headerWire :
    plainFrame (headerWire mfr product pip devid) records =
      BitVec.ofNat 8 (9 + records.length) :: mfr :: product ::
        pip.extractLsb' 8 8 :: pip.extractLsb' 0 8 ::
        devid.extractLsb' 16 8 :: devid.extractLsb' 8 8 :: devid.extractLsb' 0 8 :: (records ++ [0]) := by
  have hlen : (headerWire mfr product pip devid).length + records.length + 2 = 9 + records.length :=
    Nat.add_right_comm 7 records.length 2
  rw [plainFrame, hlen]
  rfl

end

theorem Msg.frameBytes_eq (m : Msg) : m.frameBytes = 10 + m.recsWire.length := by
  have hlen (k : Nat) : (m.recWire k).length = 2 + ((m.recAt k).vlen.getD 0).toNat := by
    simp [Msg.recWire]; omega
  simp only [Msg.frameBytes, Msg.recsWire, List.length_flatMap, hlen]

/-- Past its checks ENCODE seals the frame of the header and the records it reads (R215, R217). -/
theorem encodedFrame_ok {c : Config} {m : Msg} {header records : List Byte} (hn : m.nrec.toNat ≤ 28)
    (hp : ∀ k, k < m.nrec.toNat → m.RecPasses c k) (hlen : m.frameBytes ≤ 66) (hh : headerBytes m = .ok header)
    (hr : recsBytes m 0 m.nrec.toNat = .ok records) :
    encodedFrame c m = .ok (sealFrame c (plainFrame header records)) := by
  have hmax : ¬ Config.maxRecords < m.nrec.toNat := Nat.not_lt.mpr hn
  rw [encodedFrame, if_neg hmax, checkRecs_all hp]
  exact (if_neg (Nat.not_lt.mpr hlen)).trans (by rw [hh, hr])

theorem encodeStep_of_ok {s : State} {f : List Byte} (hp : s.phase = .codec) (h : encodedFrame s.config s.msg = .ok f) :
    encodeStep s =
      .next ({ s with fbuf := Memory.writeBytes s.fbuf 0 f, flen := BitVec.ofNat 8 f.length }.finish .ok) := by
  rw [encodeStep, hp]; simp only [h]

/-- ENCODE of a message with its registers written seals its plain frame (R215, R217, R218). -/
theorem encodedFrame_written {c : Config} {m : Msg} {mfr product : Byte} {pip : BitVec 16} {devid : BitVec 24}
    (hn : m.nrec.toNat ≤ 28) (hrecs : ∀ k, k < m.nrec.toNat → m.RecPasses c k ∧ m.ValsWritten k)
    (hlen : 10 + m.recsWire.length ≤ 66) (h1 : m.mfr = some mfr) (h2 : m.product = some product)
    (h3 : m.pip = some pip) (h4 : m.devid = some devid) :
    encodedFrame c m = .ok (sealFrame c (plainFrame (headerWire mfr product pip devid) m.recsWire)) := by
  have hrecords : recsBytes m 0 m.nrec.toNat = .ok m.recsWire := by
    simpa [Msg.recsWire] using recsBytes_written m.nrec.toNat 0 fun j _ hj => hrecs j (by omega)
  exact encodedFrame_ok hn (fun k hk => (hrecs k hk).1) (m.frameBytes_eq ▸ hlen) (headerBytes_written h1 h2 h3 h4)
    hrecords

/-- Settles O40: ENCODE seals the plain frame and stores it from FBUF[0] on. -/
theorem encodeBuildsFrame : Obligations.EncodeBuildsFrame := by
  intro s mfr product pip devid hrun hn hrecs hlen h1 h2 h3 h4
  have hframe := encodedFrame_written hn hrecs hlen h1 h2 h3 h4
  have hlength : (plainFrame (headerWire mfr product pip devid) s.msg.recsWire).length = 9 + s.msg.recsWire.length :=
    plainFrame_length mfr product pip devid s.msg.recsWire
  refine ⟨_, _, (hrun.exec_eq rfl).trans (encodeStep_of_ok hrun.2.2 hframe), ?_, rfl, fun a => ?_, ?_, ?_⟩
  · rw [sealFrame_length, hlength]; omega
  · refine (Memory.read_writeBytes _ s.fbuf 0 a).trans (if_congr ?_ rfl rfl)
    rw [sealFrame_length, hlength]; omega
  · rw [sealFrame_length, Nat.add_sub_cancel]
    refine (sealFrame_decrypts s.config _).trans ?_
    rw [hlength, plainFrame_headerWire]
    simp
  · rw [sealFrame_length]
    exact sealFrame_checksum s.config _

end Sys2Proof.Machine

/-! SUPPORT. Proofs of the mode controller family (41_mode_controller.md): INIT's register program and version step, and
SETMODE's opmode write and mode-ready polls. -/

namespace Sys2Proof.Machine

/-! ### INIT (R141 to R143) -/

/-- Settles O17: the version step is one bus read, and both its ends are a finish. -/
theorem initVersionDecides : Obligations.InitVersionDecides := by
  intro s hrun
  have hexpected : Config.versionExpected = 36 := rfl
  rw [hrun.exec_eq (f := initStep) rfl, initStep_ver hrun.2.2, busRead_eq, hexpected]
  by_cases h : s.answerAt 0 = 36
  · rw [if_pos h, if_pos h, beq_iff_eq.mpr h, Bool.or_true]; rfl
  · rw [if_neg h, if_neg h, beq_eq_false_iff_ne.mpr h, Bool.or_false]; rfl

/-- The bus write INIT makes for an entry of the register program (R141). -/
def initWrite (e : CfgEntry) : BusEvent := .write (e.addr.setWidth 6) e.value

/-- INIT, begun in s, has written the first k entries of the register program (R141). -/
def State.initWritten (s : State) (k : Nat) : State :=
  { s with
    initOk := false, modeOk := false, phase := if k < s.config.cfg.entries.length then .initCfg k else .initVer,
    trace := s.trace ++ (s.config.cfg.entries.take k).map initWrite }

section
variable {s : State} {k : Nat}

/-- Written past its first entry, INIT writes the next one (R141). -/
theorem State.initWritten_succ (hk : k < s.config.cfg.entries.length) :
    ((s.initWritten k).busWrite (s.config.cfg.entries[k].addr.setWidth 6) s.config.cfg.entries[k].value).goto
      (if k + 1 < s.config.cfg.entries.length then .initCfg (k + 1) else .initVer) = s.initWritten (k + 1) := by
  have htake : s.config.cfg.entries.take (k + 1) = s.config.cfg.entries.take k ++ [s.config.cfg.entries[k]] :=
    (List.take_append_getElem hk).symm
  simp only [State.initWritten, htake, List.map_append, ← List.append_assoc]
  rfl

/-- INIT's first write, which clears INIT_OK and MODE_OK (R141). -/
theorem exec_init_first (hrun : s.Running .init (.initCfg 0)) (hk : 0 < s.config.cfg.entries.length) :
    exec .init s = .next (s.initWritten 1) := by
  rw [hrun.exec_eq (f := initStep) rfl, initStep_cfg hrun.2.2 (List.getElem?_eq_getElem hk), ← s.initWritten_succ hk]
  simp only [State.initWritten, List.take_zero, List.map_nil, List.append_nil]
  rfl

/-- Each further write of INIT (R141). -/
theorem exec_init_next (hrun : s.Running .init (.initCfg 0)) (h0 : 0 < k) (hk : k < s.config.cfg.entries.length) :
    exec .init (s.initWritten k) = .next (s.initWritten (k + 1)) := by
  have hrun' : (s.initWritten k).Running .init (.initCfg k) := ⟨hrun.1, hrun.2.1, if_pos hk⟩
  rw [hrun'.exec_eq (f := initStep) rfl, initStep_cfg hrun'.2.2 (List.getElem?_eq_getElem hk),
    if_neg (Nat.ne_of_gt h0)]
  exact congrArg Host.Outcome.next (State.initWritten_succ hk)

/-- k steps of INIT, k at least 1, write the first k entries (R141). -/
theorem run_init_writes (hw : s.config.wf = true) (hrun : s.Running .init (.initCfg 0)) (hh : s.host = [])
    (h1 : 1 ≤ k) (hk : k ≤ s.config.cfg.entries.length) : Host.Core.run core k s = .next (s.initWritten k) := by
  induction k, h1 using Nat.le_induction with
  | base => exact run_next 0 ((step_running hw hh hrun.1 hrun.2.1).trans (exec_init_first hrun hk))
  | succ k h1 ih =>
    have hstep : step (s.initWritten k) = .next (s.initWritten (k + 1)) :=
      (step_running (s := s.initWritten k) hw hh hrun.1 hrun.2.1).trans (exec_init_next hrun h1 hk)
    exact (run_add 1 k (ih (Nat.le_of_succ_le hk))).trans (run_next 0 hstep)

end

/-- Settles O18: the writes of the whole program, then the version step. -/
theorem initWritesProgramThenReadsVersion : Obligations.InitWritesProgramThenReadsVersion := by
  intro s hw hrun hh
  have hpos : 1 ≤ s.config.cfg.entries.length := by rw [RegisterProgram.length_entries]; omega
  have hver : (s.initWritten s.config.cfg.entries.length).Running .init .initVer :=
    ⟨hrun.1, hrun.2.1, if_neg (Nat.lt_irrefl _)⟩
  have hstep := (step_running (s := s.initWritten s.config.cfg.entries.length) hw hh hver.1 hver.2.1).trans
    (initVersionDecides _ hver)
  rw [run_add 1 _ (run_init_writes hw hrun hh hpos le_rfl), run_next 0 hstep, run_zero]
  simp only [State.initWritten, List.take_length]
  rfl

/-! ### Reads of one register in a row -/

/-- k bus reads of register a, one after the other (R130). -/
def State.busReads (s : State) (a : BusAddr) (k : Nat) : State :=
  { s with
    answers := s.answers.drop k, draws := s.draws + k,
    trace := s.trace ++ (List.range k).map fun j => .read a (s.answerAt j) }

@[simp] theorem State.busReads_zero (s : State) (a : BusAddr) : s.busReads a 0 = s := by simp [State.busReads]

@[simp] theorem State.answerAt_busReads (s : State) (a : BusAddr) (k j : Nat) :
    (s.busReads a k).answerAt j = s.answerAt (k + j) := by
  simp [State.answerAt, State.busReads, Nat.add_assoc]

/-- One more read of the same register (R130). -/
theorem State.busRead_busReads (s : State) (a : BusAddr) (k : Nat) :
    (s.busReads a k).busRead a = s.busReads a (k + 1) := by
  rw [busRead_eq, State.answerAt_busReads]
  simp [State.busReads, List.range_succ, Nat.add_assoc]

/-! ### SETMODE (R145 to R148) -/

section
variable {i : Instr} {m : Target} {s : State}

/-- SETMODE's first step: the opmode write, behind the gate of INIT_OK (R145, R241). -/
theorem exec_setmode_write (hm : setmodeTarget i = some m) (hrun : s.Running i .smWrite) :
    exec i s = .next (if s.initOk then (s.writeOpmode m).goto (.smPoll 1) else s.finish .notInitialised) :=
  (hrun.exec_eq (exec_setmode hm s)).trans (setmodeStep_write hrun.2.2)

/-- The bus read of mode-ready poll n (R145). -/
def State.modeReadyPoll (s : State) (n : Nat) : State := { s with idxI := some n }.busRead s.config.addrIrqflags1

/-- One mode-ready poll (R146, R147). -/
theorem exec_setmode_poll {n : Nat} (hm : setmodeTarget i = some m) (hrun : s.Running i (.smPoll n)) :
    exec i s = .next (if (s.answerAt 0 &&& s.config.mModeready) ≠ 0
      then { s.modeReadyPoll n with modeOk := true }.finish .ok
      else if n < s.config.modePollMax then (s.modeReadyPoll n).goto (.smPoll (n + 1))
      else (s.modeReadyPoll n).finish .timeout) := by
  simp only [← flagSet_eq]
  exact (hrun.exec_eq (exec_setmode hm s)).trans (setmodeStep_poll hrun.2.2)

end

/-- Settles O20: the write, and a poll by its three outcomes. -/
theorem setmodeSteps : Obligations.SetmodeSteps := by
  intro i m s hm
  refine ⟨fun hrun hi => ?_, fun n hrun => ?_⟩
  · rw [exec_setmode_write hm hrun, if_pos hi]; rfl
  · have hread : s.modeReadyPoll n =
        { s with
          idxI := some n, answers := s.answers.tail, draws := s.draws + 1,
          trace := s.trace ++ [.read s.config.addrIrqflags1 (s.answerAt 0)] } := busRead_eq _ _
    rw [exec_setmode_poll hm hrun, hread]
    refine ⟨_, rfl, ?_, ?_⟩
    · split_ifs <;> rfl
    · split_ifs
      · exact ⟨rfl, rfl, rfl, rfl, rfl⟩
      · exact ⟨rfl, rfl, hrun.1, rfl, hrun.2.1⟩
      · exact ⟨rfl, rfl, rfl, rfl, rfl⟩

/-- SETMODE, polling since s, has made k mode-ready polls and stands at the next; I holds `idx` (R147). -/
def State.modePolled (s : State) (k : Nat) (idx : Option Nat) : State :=
  { s.busReads s.config.addrIrqflags1 k with idxI := idx, phase := .smPoll (k + 1) }

/-- One more poll: its bus read, and the next phase (R147). -/
theorem State.modePolled_succ (s : State) (k : Nat) (idx : Option Nat) :
    s.modePolled (k + 1) (some (k + 1)) = ((s.modePolled k idx).modeReadyPoll (k + 1)).goto (.smPoll (k + 2)) := by
  rw [State.modePolled, ← State.busRead_busReads]; rfl

section
variable {i : Instr} {m : Target} {s : State} {k : Nat}

/-- Poll k + 1, after k clear ones (R146, R147). -/
theorem step_modePolled (hm : setmodeTarget i = some m) (hw : s.config.wf = true) (hrun : s.Running i (.smPoll 1))
    (hh : s.host = []) (idx : Option Nat) :
    step (s.modePolled k idx) = .next (if (s.answerAt k &&& s.config.mModeready) ≠ 0
      then { s.modePolled (k + 1) (some (k + 1)) with modeOk := true }.finish .ok
      else if k + 1 < s.config.modePollMax then s.modePolled (k + 1) (some (k + 1))
      else (s.modePolled (k + 1) (some (k + 1))).finish .timeout) := by
  have hrun' : (s.modePolled k idx).Running i (.smPoll (k + 1)) := ⟨hrun.1, hrun.2.1, rfl⟩
  have hanswer : (s.modePolled k idx).answerAt 0 = s.answerAt k := s.answerAt_busReads s.config.addrIrqflags1 k 0
  have hstep := (step_running (s := s.modePolled k idx) hw hh hrun'.1 hrun'.2.1).trans
    (exec_setmode_poll hm hrun')
  rw [hanswer] at hstep
  rw [hstep, s.modePolled_succ k idx]
  rfl

/-- k clear polls below the bound leave SETMODE at poll k + 1 (R147). -/
theorem run_modePolled (hm : setmodeTarget i = some m) (hw : s.config.wf = true) (hrun : s.Running i (.smPoll 1))
    (hh : s.host = []) (hk : k < s.config.modePollMax)
    (hclear : ∀ j, j < k → (s.answerAt j &&& s.config.mModeready) = 0) :
    ∃ idx, Host.Core.run core k s = .next (s.modePolled k idx) := by
  induction k with
  | zero => exact ⟨s.idxI, by rw [run_zero, State.modePolled, State.busReads_zero, ← hrun.2.2]⟩
  | succ k ih =>
    obtain ⟨idx, hpolls⟩ := ih (Nat.lt_of_succ_lt hk) fun j hj => hclear j (Nat.lt_succ_of_lt hj)
    have hstep := step_modePolled (k := k) hm hw hrun hh idx
    rw [if_neg (not_not_intro (hclear k k.lt_succ_self)), if_pos hk] at hstep
    exact ⟨some (k + 1), (run_add 1 k hpolls).trans (run_next 0 hstep)⟩

/-- The polls up to the first set flag, or to the bound (R147). -/
theorem run_setmode_polls (hm : setmodeTarget i = some m) (hw : s.config.wf = true) (hrun : s.Running i (.smPoll 1))
    (hh : s.host = []) (hmode : s.modeOk = false) (hk : k < s.config.modePollMax)
    (hclear : ∀ j, j < k → (s.answerAt j &&& s.config.mModeready) = 0)
    (hend : (s.answerAt k &&& s.config.mModeready) ≠ 0 ∨ k + 1 = s.config.modePollMax) :
    Host.Core.run core (k + 1) s = .next
      ({ s.modePolled (k + 1) (some (k + 1)) with
        modeOk := decide ((s.answerAt k &&& s.config.mModeready) ≠ 0) }.finish
        (if (s.answerAt k &&& s.config.mModeready) ≠ 0 then .ok else .timeout)) := by
  obtain ⟨idx, hpolls⟩ := run_modePolled hm hw hrun hh hk hclear
  refine (run_add 1 k hpolls).trans (run_next 0 ((step_modePolled hm hw hrun hh idx).trans ?_))
  by_cases hset : (s.answerAt k &&& s.config.mModeready) ≠ 0
  · rw [if_pos hset, if_pos hset, decide_eq_true hset]
  · rw [if_neg hset, if_neg hset, decide_eq_false hset, if_neg (Nat.not_lt.mpr (hend.resolve_left hset).ge), ← hmode]
    rfl

end

/-- Settles O21: the gate, or the opmode write and then the polls. -/
theorem setmodeWholeCommand : Obligations.SetmodeWholeCommand := by
  intro i m s hm hw hrun hh
  have hfirst := (step_running hw hh hrun.1 hrun.2.1).trans (exec_setmode_write hm hrun)
  refine ⟨fun hi => ?_, fun k hi h1 hk hclear hend => ?_⟩
  · rw [if_neg (by simp [hi])] at hfirst
    exact run_next 0 hfirst
  · obtain ⟨n, rfl⟩ := Nat.exists_eq_add_of_le' h1
    rw [if_pos hi] at hfirst
    have hpolls := run_setmode_polls (s := (s.writeOpmode m).goto (.smPoll 1)) hm hw
      ⟨hrun.1, hrun.2.1, rfl⟩ hh rfl hk hclear hend
    refine ⟨some (n + 1), ?_⟩
    rw [Nat.add_comm 1, run_next (n + 1) hfirst, hpolls]
    simp only [State.modePolled, State.busReads, State.goto_trace, State.writeOpmode_trace, List.append_assoc]
    rfl

end Sys2Proof.Machine

/-! SUPPORT. Proofs of the FIFO sequencer family (42_fifo_sequencer.md): RECEIVE with its polls, drain and overrun check,
TRANSMIT with its preconditions and polls, and both commands as a whole. -/

namespace Sys2Proof.Machine

/-! ### Runs of one phase -/

/-- With no host move to come, a step of the machine is one of the running command. -/
theorem State.Running.step_eq {s : State} {i : Instr} {p : Phase} (h : s.Running i p) (hw : s.config.wf = true)
    (hh : s.host = []) : step s = exec i s := step_running hw hh h.1 h.2.1

/-- Steps that lead along a sequence of states, as a run. -/
theorem run_along {f : Nat → State} {n : Nat} (h : ∀ j, j < n → step (f j) = .next (f (j + 1))) :
    Host.Core.run core n (f 0) = .next (f n) := by
  induction n with
  | zero => exact run_zero _
  | succ n ih =>
    exact (run_add 1 n (ih fun j hj => h j (Nat.lt_succ_of_lt hj))).trans (run_next 0 (h n n.lt_succ_self))

/-- The index register of a loop that has made n turns: the last turn's, or what it held before (R25). -/
def indexAfter (old : Option Nat) : Nat → Option Nat
  | 0 => old
  | n + 1 => some (n + 1)

theorem indexAfter_of_pos {old : Option Nat} {n : Nat} (h : 0 < n) : indexAfter old n = some n := by
  cases n with
  | zero => exact absurd h (Nat.lt_irrefl 0)
  | succ n => rfl

/-- The bus read of poll n of RECEIVE or TRANSMIT (R161, R169). -/
def State.flagsPoll (s : State) (n : Nat) : State := { s with idxI := some n }.busRead s.config.addrIrqflags2

theorem State.flagsPoll_eq (s : State) (n : Nat) :
    s.flagsPoll n =
      { s with
        idxI := some n, answers := s.answers.tail, draws := s.draws + 1,
        trace := s.trace ++ [.read s.config.addrIrqflags2 (s.answerAt 0)] } := busRead_eq _ _

/-! ### RECEIVE step by step (R160 to R165) -/

section
variable {s : State}

theorem receiveStart_wrongMode (hi : s.initOk = true) (hm : s.mode ≠ .rx ∨ s.modeOk = false) :
    receiveStart s = s.finish .wrongMode := by simp [receiveStart, hi, hm]

theorem receiveStart_noPolls (hi : s.initOk = true) (hm : s.mode = .rx) (hk : s.modeOk = true) (hr : s.rxPolls = 0) :
    receiveStart s = { s with flen := 0 }.finish .timeout := by simp [receiveStart, hi, hm, hk, hr]

theorem exec_receive_first (hrun : s.Running .receive (.rxPoll 1)) : exec .receive s = .next (receiveStart s) :=
  (hrun.exec_eq rfl).trans (receiveStep_poll hrun.2.2)

/-- The state RECEIVE's poll n is made in: the first one clears FLEN (R160). -/
def State.clearedAtFirst (s : State) (n : Nat) : State := { s with flen := if n = 1 then 0 else s.flen }

/-- One payload-ready poll, the first one behind RECEIVE's gates (R160, R161). -/
theorem exec_receive_poll {n : Nat} (hrun : s.Running .receive (.rxPoll n))
    (hgate : n = 1 → s.initOk = true ∧ s.mode = .rx ∧ s.modeOk = true ∧ s.rxPolls ≠ 0) :
    exec .receive s = .next (if (s.answerAt 0 &&& s.config.mPayloadrdy) ≠ 0
      then ((s.clearedAtFirst n).flagsPoll n).goto .rxLen
      else if n < s.rxPolls.toNat then ((s.clearedAtFirst n).flagsPoll n).goto (.rxPoll (n + 1))
      else ((s.clearedAtFirst n).flagsPoll n).finish .timeout) := by
  have hpoll : exec .receive s = .next (receivePoll n (s.clearedAtFirst n)) := by
    rw [hrun.exec_eq (f := receiveStep) rfl, receiveStep_poll hrun.2.2, State.clearedAtFirst]
    split
    next h1 =>
      obtain ⟨hi, hm, hk, hr⟩ := hgate h1
      rw [receiveStart_poll hi hm hk fun h0 => hr (BitVec.eq_of_toNat_eq h0), h1]
    next => rfl
  rw [hpoll, receivePoll_eq]
  simp only [← flagSet_eq]
  rfl

end

/-- Settles O22: the mode gate, no polls at all, and a poll by its three outcomes. -/
theorem receiveGateAndPolls : Obligations.ReceiveGateAndPolls := by
  refine ⟨fun s hrun hi hm => ?_, fun s hrun hi hm hk hr => ?_, fun s n hrun hgate => ?_⟩
  · rw [exec_receive_first hrun, receiveStart_wrongMode hi hm]; rfl
  · rw [exec_receive_first hrun, receiveStart_noPolls hi hm hk hr]; rfl
  · have hread : (s.clearedAtFirst n).flagsPoll n =
        { s with
          flen := if n = 1 then 0 else s.flen,
          idxI := some n, answers := s.answers.tail, draws := s.draws + 1,
          trace := s.trace ++ [.read s.config.addrIrqflags2 (s.answerAt 0)] } := State.flagsPoll_eq _ _
    rw [exec_receive_poll hrun hgate, hread]
    generalize (if n = 1 then 0 else s.flen) = flen
    refine ⟨_, rfl, ?_, ?_⟩
    · split_ifs <;> rfl
    · split_ifs
      · exact ⟨rfl, hrun.1, rfl, hrun.2.1⟩
      · exact ⟨rfl, hrun.1, rfl, hrun.2.1⟩
      · exact ⟨rfl, rfl, rfl, rfl⟩

/-- Settles O24: the drain's flag read by its flag, its FIFO read by the bound. -/
theorem drainDiscardsAtMost65 : Obligations.DrainDiscardsAtMost65 := by
  refine ⟨fun s d hrun => ?_, fun s d hrun => ?_⟩
  · rw [hrun.exec_eq (f := receiveStep) rfl, receiveStep_drainFlag hrun.2.2, ← nextAnswer_eq_answerAt]
    obtain ⟨hset, hnext⟩ | ⟨hclear, hnext⟩ := receiveDrainFlag_cases d s
    · rw [hnext, if_pos ((flagSet_eq _ _).mp hset)]; rfl
    · rw [hnext, if_neg (not_not_intro ((flagSet_eq_false _ _).mp hclear))]; rfl
  · rw [hrun.exec_eq (f := receiveStep) rfl, receiveStep_drainRead hrun.2.2]
    obtain ⟨hd, hnext⟩ | ⟨hd, hnext⟩ := receiveDrainRead_cases d s
    · rw [hnext, if_pos hd]; rfl
    · rw [hnext, if_neg (Nat.not_lt.mpr hd)]; rfl

/-- One data byte of RECEIVE (R164). -/
theorem exec_receive_data {s : State} {j : Nat} {l : Byte} (hrun : s.Running .receive (.rxData j)) (h1 : 1 ≤ j)
    (h14 : j ≤ 14) (hl : s.lenL = some l) :
    exec .receive s = .next ({ (s.busRead s.config.addrFifo).setFbuf j (s.answerAt 0) with idxJ := some j }.goto
      (if j < l.toNat then .rxData (j + 1) else .rxOvr)) := by
  rw [hrun.exec_eq (f := receiveStep) rfl, receiveStep_data hrun.2.2 h1 h14 hl, receiveData_eq, nextAnswer_eq_answerAt]

/-- Settles O25: RX_DATA(j) is one bus read and one write of FBUF[j]. -/
theorem receiveDataIntoFrameBuffer : Obligations.ReceiveDataIntoFrameBuffer := by
  intro s j l hrun h1 h14 hl
  have h66 : j < 66 := by omega
  refine ⟨_, exec_receive_data hrun h1 h14 hl, ?_, fun a => ?_⟩
  · rw [busRead_eq]; rfl
  · simp [Memory.read_write, h66]

/-- Settles O26: the overrun check by its three outcomes, and the clear write. -/
theorem receiveOverrunCheck : Obligations.ReceiveOverrunCheck := by
  refine ⟨fun s l hrun hl => ?_, fun s hrun => (hrun.exec_eq rfl).trans (receiveStep_clear hrun.2.2)⟩
  rw [hrun.exec_eq (f := receiveStep) rfl, receiveStep_overrun hrun.2.2 hl, ← nextAnswer_eq_answerAt]
  obtain ⟨hset, hc, hnext⟩ | ⟨hset, hc, hnext⟩ | ⟨hclear, hnext⟩ := receiveOverrun_cases l s
  · rw [hnext, if_neg ((flagSet_eq _ _).mp hset), if_pos hc]; rfl
  · rw [hnext, if_neg ((flagSet_eq _ _).mp hset), if_neg (by simp [hc])]; rfl
  · rw [hnext, if_pos ((flagSet_eq_false _ _).mp hclear)]; rfl

/-! ### RECEIVE as a whole (R160) -/

/-- RECEIVE, begun in s, has made k payload-ready polls and stands at the next (R161). -/
def State.rxPolled (s : State) (k : Nat) : State :=
  { s.busReads s.config.addrIrqflags2 k with
    flen := if k = 0 then s.flen else 0, idxI := indexAfter s.idxI k, phase := .rxPoll (k + 1) }

/-- One more poll: its bus read, and the next phase (R161). -/
theorem State.rxPolled_succ (s : State) (k : Nat) :
    s.rxPolled (k + 1) = (((s.rxPolled k).clearedAtFirst (k + 1)).flagsPoll (k + 1)).goto (.rxPoll (k + 2)) := by
  rw [State.rxPolled, ← State.busRead_busReads]
  cases k <;> rfl

/-- RECEIVE, standing at RX_LEN in s, has read the length byte and j data bytes (R162, R164). -/
def State.rxTaken (s : State) (j : Nat) : State :=
  { s.busReads s.config.addrFifo (j + 1) with
    fbuf := Memory.writeBytes s.fbuf 0 ((List.range (j + 1)).map s.answerAt),
    lenL := some (s.answerAt 0), idxJ := indexAfter s.idxJ j,
    phase := if j < (s.answerAt 0).toNat then .rxData (j + 1) else .rxOvr }

theorem Memory.writeBytes_concat (v : Byte) (vs : List Byte) : ∀ (m : List Host.Cell) (i : Nat),
    Memory.writeBytes m i (vs ++ [v]) = Memory.write (Memory.writeBytes m i vs) (i + vs.length) v := by
  induction vs with
  | nil => intro m i; rfl
  | cons w vs ih =>
    intro m i
    rw [List.length_cons, Nat.add_comm vs.length, ← Nat.add_assoc]
    exact ih _ _

/-- One more data byte: its bus read, its store, and the next phase (R164). -/
theorem State.rxTaken_succ (s : State) (j : Nat) :
    s.rxTaken (j + 1) =
      { ((s.rxTaken j).busRead s.config.addrFifo).setFbuf (j + 1) (s.answerAt (j + 1)) with
        idxJ := some (j + 1) }.goto (if j + 1 < (s.answerAt 0).toNat then .rxData (j + 2) else .rxOvr) := by
  have hstore := Memory.writeBytes_concat (s.answerAt (j + 1)) ((List.range (j + 1)).map s.answerAt) s.fbuf 0
  rw [List.length_map, List.length_range, Nat.zero_add] at hstore
  rw [State.rxTaken, ← State.busRead_busReads, List.range_succ, List.map_append, List.map_singleton, hstore]
  rfl

/-- RECEIVE, standing at RX_LEN in s, has read a good frame to its end (R160, R165). -/
def State.rxGood (s : State) : State :=
  let l := (s.answerAt 0).toNat
  { s with
    flen := BitVec.ofNat 8 (l + 1), result := .ok, busy := false, phase := .idle, command := none,
    fbuf := Memory.writeBytes s.fbuf 0 ((List.range (l + 1)).map s.answerAt),
    idxJ := indexAfter s.idxJ l, lenL := some (s.answerAt 0),
    answers := s.answers.drop (l + 1 + 1), draws := s.draws + (l + 1 + 1),
    trace := s.trace ++ (List.range (l + 1)).map (fun j => .read s.config.addrFifo (s.answerAt j)) ++
      [.read s.config.addrIrqflags2 (s.answerAt (l + 1))] }

/-- A good frame's bytes in FBUF (R160). -/
theorem State.read_rxGood {s : State} (h14 : (s.answerAt 0).toNat ≤ 14) (a : Nat) :
    Memory.read s.rxGood.fbuf a = if a ≤ (s.answerAt 0).toNat then some (s.answerAt a) else Memory.read s.fbuf a := by
  rw [State.rxGood, Memory.read_writeBytes, List.length_map, List.length_range]
  by_cases ha : a ≤ (s.answerAt 0).toNat
  · rw [if_pos ha, if_pos (by omega), Nat.sub_zero, List.getElem?_map, List.getElem?_range (Nat.lt_succ_of_le ha)]
    rfl
  · rw [if_neg ha, if_neg (by omega)]

section
variable {s : State} {k j : Nat}

/-- Poll k + 1, after k clear ones (R161). -/
theorem step_rxPolled (hw : s.config.wf = true) (hrun : s.Running .receive (.rxPoll 1)) (hh : s.host = [])
    (hi : s.initOk = true) (hm : s.mode = .rx) (hk : s.modeOk = true) (hr : s.rxPolls ≠ 0) :
    step (s.rxPolled k) = .next (if (s.answerAt k &&& s.config.mPayloadrdy) ≠ 0
      then (s.rxPolled (k + 1)).goto .rxLen
      else if k + 1 < s.rxPolls.toNat then s.rxPolled (k + 1) else (s.rxPolled (k + 1)).finish .timeout) := by
  have hrun' : (s.rxPolled k).Running .receive (.rxPoll (k + 1)) := ⟨hrun.1, hrun.2.1, rfl⟩
  have hanswer : (s.rxPolled k).answerAt 0 = s.answerAt k := s.answerAt_busReads s.config.addrIrqflags2 k 0
  rw [hrun'.step_eq hw hh, exec_receive_poll hrun' fun _ => ⟨hi, hm, hk, hr⟩, hanswer, s.rxPolled_succ]
  rfl

/-- The polls up to the first set flag (R161). -/
theorem run_receive_polls (hw : s.config.wf = true) (hrun : s.Running .receive (.rxPoll 1)) (hh : s.host = [])
    (hi : s.initOk = true) (hm : s.mode = .rx) (hk : s.modeOk = true) (hr : k < s.rxPolls.toNat)
    (hclear : ∀ j, j < k → (s.answerAt j &&& s.config.mPayloadrdy) = 0)
    (hset : (s.answerAt k &&& s.config.mPayloadrdy) ≠ 0) :
    Host.Core.run core (k + 1) s = .next ((s.rxPolled (k + 1)).goto .rxLen) := by
  have hr0 : s.rxPolls ≠ 0 := fun h0 => by simp [h0] at hr
  have hstart : s.rxPolled 0 = s := by simp only [State.rxPolled, State.busReads_zero, ← hrun.2.2]; rfl
  have hpolls : Host.Core.run core k s = .next (s.rxPolled k) := by
    conv_lhs => rw [← hstart]
    refine run_along fun j hj => ?_
    rw [step_rxPolled hw hrun hh hi hm hk hr0, if_neg (not_not_intro (hclear j hj)), if_pos (by omega)]
  refine (run_add 1 k hpolls).trans (run_next 0 ?_)
  rw [step_rxPolled hw hrun hh hi hm hk hr0, if_pos hset]

/-- The length byte of a frame within the bound (R162). -/
theorem step_receive_length (hw : s.config.wf = true) (hrun : s.Running .receive .rxLen) (hh : s.host = [])
    (hok : framingOk (s.answerAt 0) = true) : step s = .next (s.rxTaken 0) := by
  have hpos : 0 < (s.answerAt 0).toNat := by have := (framingOk_iff _).mp hok; omega
  rw [hrun.step_eq hw hh, hrun.exec_eq (f := receiveStep) rfl, receiveStep_len hrun.2.2, receiveLength_eq,
    nextAnswer_eq_answerAt, if_pos hok, State.rxTaken, if_pos hpos, ← State.busRead_busReads, State.busReads_zero]
  rfl

/-- Data byte j + 1, after j of them (R164). -/
theorem step_rxTaken (hw : s.config.wf = true) (hrun : s.Running .receive .rxLen) (hh : s.host = [])
    (hok : framingOk (s.answerAt 0) = true) (hj : j < (s.answerAt 0).toNat) :
    step (s.rxTaken j) = .next (s.rxTaken (j + 1)) := by
  have hrun' : (s.rxTaken j).Running .receive (.rxData (j + 1)) := ⟨hrun.1, hrun.2.1, if_pos hj⟩
  have hanswer : (s.rxTaken j).answerAt 0 = s.answerAt (j + 1) := s.answerAt_busReads s.config.addrFifo (j + 1) 0
  have h14 : j + 1 ≤ 14 := by have := (framingOk_iff _).mp hok; omega
  rw [hrun'.step_eq hw hh, exec_receive_data hrun' (Nat.le_add_left 1 j) h14 rfl, hanswer, s.rxTaken_succ]
  rfl

/-- The length byte, all the data bytes and the overrun check of a good frame (R160, R165). -/
theorem run_receive_frame (hw : s.config.wf = true) (hrun : s.Running .receive .rxLen) (hh : s.host = [])
    (h12 : 12 ≤ (s.answerAt 0).toNat) (h14 : (s.answerAt 0).toNat ≤ 14)
    (hovr : (s.answerAt ((s.answerAt 0).toNat + 1) &&& s.config.mFifooverrun) = 0) :
    Host.Core.run core ((s.answerAt 0).toNat + 1 + 1) s = .next s.rxGood := by
  have hok : framingOk (s.answerAt 0) = true := (framingOk_iff _).mpr ⟨h12, h14⟩
  have hbytes := (run_next _ (step_receive_length hw hrun hh hok)).trans
    (run_along fun _ hj => step_rxTaken hw hrun hh hok hj)
  have hrun' : (s.rxTaken (s.answerAt 0).toNat).Running .receive .rxOvr :=
    ⟨hrun.1, hrun.2.1, if_neg (Nat.lt_irrefl _)⟩
  have hanswer : (s.rxTaken (s.answerAt 0).toNat).answerAt 0 = s.answerAt ((s.answerAt 0).toNat + 1) :=
    s.answerAt_busReads s.config.addrFifo _ 0
  refine (run_add 1 _ hbytes).trans (run_next 0 ?_)
  rw [hrun'.step_eq hw hh, receiveOverrunCheck.1 _ _ hrun' rfl, busRead_eq, hanswer, State.rxGood, ← List.tail_drop]
  exact congrArg Host.Outcome.next (if_pos hovr)

end

/-- Settles O27: the polls, and then the frame. -/
theorem receiveGoodFrame : Obligations.ReceiveGoodFrame := by
  intro s p l hw hrun hh hi hm hk h1 hp hclear hset hl h12 h14 hovr
  obtain ⟨k, rfl⟩ := Nat.exists_eq_add_of_le' h1
  have hlast : k + 1 + (l + 1) = k + 1 + 1 + l := by omega
  have hsum : k + 1 + (l + 1 + 1) = k + 1 + 1 + l + 1 := congrArg (· + 1) hlast
  have hanswer : ∀ j, ((s.rxPolled (k + 1)).goto .rxLen).answerAt j = s.answerAt (k + 1 + j) :=
    s.answerAt_busReads s.config.addrIrqflags2 (k + 1)
  have hlen : (((s.rxPolled (k + 1)).goto .rxLen).answerAt 0).toNat = l := by rw [hanswer]; exact hl
  have hframe := run_receive_frame (s := (s.rxPolled (k + 1)).goto .rxLen) hw ⟨hrun.1, hrun.2.1, rfl⟩ hh
  rw [hlen, hanswer, hlast] at hframe
  have hall := (run_add _ _ (run_receive_polls hw hrun hh hi hm hk hp hclear hset)).trans (hframe h12 h14 hovr)
  rw [hsum] at hall
  refine ⟨_, hall, ?_, fun a => ?_⟩
  · have hanswers : ((s.rxPolled (k + 1)).goto .rxLen).answers.drop (l + 1 + 1) =
        s.answers.drop (k + 1 + 1 + l + 1) := by rw [← hsum]; exact List.drop_drop
    have hdraws : ((s.rxPolled (k + 1)).goto .rxLen).draws + (l + 1 + 1) = s.draws + (k + 1 + 1 + l + 1) := by
      rw [← hsum]; exact Nat.add_assoc _ _ _
    simp only [State.rxGood, hanswer, Nat.add_zero, hl, hlast, hanswers, hdraws,
      indexAfter_of_pos (show 0 < l by omega)]
    rfl
  · rw [State.read_rxGood (hlen ▸ h14), hlen, hanswer]
    rfl

/-! ### TRANSMIT step by step (R166 to R169) -/

section
variable {s : State}

theorem transmitStart_notInitialised (hi : s.initOk = false) : transmitStart s = .next (s.finish .notInitialised) := by
  simp [transmitStart, hi]

theorem transmitStart_wrongMode (hi : s.initOk = true) (hm : s.mode ≠ .tx ∨ s.modeOk = false) :
    transmitStart s = .next (s.finish .wrongMode) := by simp [transmitStart, hi, hm]

theorem transmitStart_badLength (hi : s.initOk = true) (hm : s.mode = .tx) (hk : s.modeOk = true)
    (hl : s.flen = 0 ∨ 66 < s.flen.toNat) : transmitStart s = .next (s.finish .badLength) := by
  have hl' : s.flen.toNat = 0 ∨ Config.maxFifoBuffer < s.flen.toNat := hl.imp_left (congrArg BitVec.toNat)
  simp only [transmitStart, hi, hm, hk, if_pos hl']
  simp

theorem exec_transmit_first (hrun : s.Running .transmit (.txData 0)) : exec .transmit s = transmitStart s :=
  (hrun.exec_eq rfl).trans (transmitStep_data hrun.2.2)

/-- One packet-sent poll (R169). -/
theorem exec_transmit_poll {n : Nat} (hrun : s.Running .transmit (.txPoll n)) :
    exec .transmit s = .next (if (s.answerAt 0 &&& s.config.mPacketsent) ≠ 0 then (s.flagsPoll n).finish .ok
      else if n < s.config.txPollMax then (s.flagsPoll n).goto (.txPoll (n + 1))
      else (s.flagsPoll n).finish .timeout) := by
  simp only [← flagSet_eq]
  exact (hrun.exec_eq rfl).trans (transmitStep_poll hrun.2.2)

end

/-- Settles O28: each refusal of TRANSMIT's first step, and past them the first FIFO write. -/
theorem transmitPreconditions : Obligations.TransmitPreconditions := by
  intro s hrun
  refine ⟨fun hi => ?_, fun hi hm => ?_, fun hi hm hk hl => ?_, fun b hi hm hk h1 h66 hb => ?_⟩
  · rw [exec_transmit_first hrun, transmitStart_notInitialised hi]; rfl
  · rw [exec_transmit_first hrun, transmitStart_wrongMode hi hm]; rfl
  · rw [exec_transmit_first hrun, transmitStart_badLength hi hm hk hl]; rfl
  · have hl : s.flen ≠ 0 := fun h0 => by simp [h0] at h1
    exact ⟨_, (transmitLoadsFifo s 0 hrun fun _ => ⟨hi, hm, hk, hl, h66⟩).1 b hb, hrun.1, rfl⟩

/-- Settles O30: a poll by its three outcomes. -/
theorem transmitPolls : Obligations.TransmitPolls := by
  intro s n hrun
  rw [exec_transmit_poll hrun, State.flagsPoll_eq]
  refine ⟨_, rfl, ?_, ?_⟩
  · split_ifs <;> rfl
  · split_ifs
    · exact ⟨rfl, rfl, rfl, rfl⟩
    · exact ⟨rfl, hrun.1, rfl, hrun.2.1⟩
    · exact ⟨rfl, rfl, rfl, rfl⟩

/-! ### TRANSMIT as a whole (R166) -/

/-- TRANSMIT, begun in s, has written the first j bytes of bs to the FIFO (R168). -/
def State.txLoaded (s : State) (bs : List Byte) (j : Nat) : State :=
  { s with
    idxJ := if j = 0 then s.idxJ else some (j - 1),
    trace := s.trace ++ (bs.take j).map fun b => .write s.config.addrFifo b,
    phase := if j < s.flen.toNat then .txData j else .txPoll 1 }

/-- TRANSMIT, polling since s, has made k packet-sent polls and stands at the next (R169). -/
def State.txPolled (s : State) (k : Nat) : State :=
  { s.busReads s.config.addrIrqflags2 k with idxI := indexAfter s.idxI k, phase := .txPoll (k + 1) }

/-- One more poll: its bus read, and the next phase (R169). -/
theorem State.txPolled_succ (s : State) (k : Nat) :
    s.txPolled (k + 1) = ((s.txPolled k).flagsPoll (k + 1)).goto (.txPoll (k + 2)) := by
  rw [State.txPolled, ← State.busRead_busReads]; rfl

section
variable {s : State} {bs : List Byte} {k j : Nat}

/-- FIFO write j, after the j before it (R168). -/
theorem step_txLoaded (hw : s.config.wf = true) (hrun : s.Running .transmit (.txData 0)) (hh : s.host = [])
    (hi : s.initOk = true) (hm : s.mode = .tx) (hk : s.modeOk = true) (h66 : s.flen.toNat ≤ 66)
    (hlen : bs.length = s.flen.toNat) (hbs : ∀ j, j < bs.length → Memory.read s.fbuf j = bs[j]?) (hj : j < bs.length) :
    step (s.txLoaded bs j) = .next (s.txLoaded bs (j + 1)) := by
  have hrun' : (s.txLoaded bs j).Running .transmit (.txData j) := ⟨hrun.1, hrun.2.1, if_pos (hlen ▸ hj)⟩
  have hl : s.flen ≠ 0 := fun h0 => by simp [hlen, h0] at hj
  have hb : Memory.read s.fbuf j = some bs[j] := (hbs j hj).trans (List.getElem?_eq_getElem hj)
  have htake : bs.take (j + 1) = bs.take j ++ [bs[j]] := (List.take_append_getElem hj).symm
  rw [hrun'.step_eq hw hh, (transmitLoadsFifo _ j hrun' fun _ => ⟨hi, hm, hk, hl, h66⟩).1 _ hb]
  simp only [State.txLoaded, htake, List.map_append, ← List.append_assoc]
  rfl

/-- The whole FIFO load (R168). -/
theorem run_transmit_load (hw : s.config.wf = true) (hrun : s.Running .transmit (.txData 0)) (hh : s.host = [])
    (hi : s.initOk = true) (hm : s.mode = .tx) (hk : s.modeOk = true) (h1 : 1 ≤ s.flen.toNat) (h66 : s.flen.toNat ≤ 66)
    (hlen : bs.length = s.flen.toNat) (hbs : ∀ j, j < bs.length → Memory.read s.fbuf j = bs[j]?) :
    Host.Core.run core s.flen.toNat s = .next (s.txLoaded bs s.flen.toNat) := by
  have hstart : s.txLoaded bs 0 = s := by
    simp only [State.txLoaded, if_pos (show 0 < s.flen.toNat from h1), ← hrun.2.2]
    simp
  conv_lhs => rw [← hstart]
  exact run_along fun j hj => step_txLoaded hw hrun hh hi hm hk h66 hlen hbs (hlen ▸ hj)

/-- Poll k + 1, after k clear ones (R169). -/
theorem step_txPolled (hw : s.config.wf = true) (hrun : s.Running .transmit (.txPoll 1)) (hh : s.host = []) :
    step (s.txPolled k) = .next (if (s.answerAt k &&& s.config.mPacketsent) ≠ 0 then (s.txPolled (k + 1)).finish .ok
      else if k + 1 < s.config.txPollMax then s.txPolled (k + 1) else (s.txPolled (k + 1)).finish .timeout) := by
  have hrun' : (s.txPolled k).Running .transmit (.txPoll (k + 1)) := ⟨hrun.1, hrun.2.1, rfl⟩
  have hanswer : (s.txPolled k).answerAt 0 = s.answerAt k := s.answerAt_busReads s.config.addrIrqflags2 k 0
  rw [hrun'.step_eq hw hh, exec_transmit_poll hrun', hanswer, s.txPolled_succ]
  rfl

/-- The polls up to the first set flag, or to the bound (R169). -/
theorem run_transmit_polls (hw : s.config.wf = true) (hrun : s.Running .transmit (.txPoll 1)) (hh : s.host = [])
    (hk : k < s.config.txPollMax) (hclear : ∀ j, j < k → (s.answerAt j &&& s.config.mPacketsent) = 0)
    (hend : (s.answerAt k &&& s.config.mPacketsent) ≠ 0 ∨ k + 1 = s.config.txPollMax) :
    Host.Core.run core (k + 1) s = .next ((s.txPolled (k + 1)).finish
      (if (s.answerAt k &&& s.config.mPacketsent) ≠ 0 then .ok else .timeout)) := by
  have hstart : s.txPolled 0 = s := by simp only [State.txPolled, State.busReads_zero, ← hrun.2.2]; rfl
  have hpolls : Host.Core.run core k s = .next (s.txPolled k) := by
    conv_lhs => rw [← hstart]
    refine run_along fun j hj => ?_
    rw [step_txPolled hw hrun hh, if_neg (not_not_intro (hclear j hj)), if_pos (by omega)]
  refine (run_add 1 k hpolls).trans (run_next 0 ?_)
  rw [step_txPolled hw hrun hh]
  by_cases hset : (s.answerAt k &&& s.config.mPacketsent) ≠ 0
  · rw [if_pos hset, if_pos hset]
  · rw [if_neg hset, if_neg hset, if_neg (Nat.not_lt.mpr (hend.resolve_left hset).ge)]

end

/-- Settles O31: the FIFO load, then the polls. -/
theorem transmitWholeCommand : Obligations.TransmitWholeCommand := by
  intro s bs k hw hrun hh hi hm hmode h1 h66 hlen hbs hk1 hk hclear hend
  obtain ⟨n, rfl⟩ := Nat.exists_eq_add_of_le' hk1
  have hload := run_transmit_load hw hrun hh hi hm hmode h1 h66 hlen hbs
  have hpolls := run_transmit_polls (s := s.txLoaded bs s.flen.toNat) hw
    ⟨hrun.1, hrun.2.1, if_neg (Nat.lt_irrefl _)⟩ hh hk hclear hend
  refine ⟨some (n + 1), (s.txLoaded bs s.flen.toNat).idxJ, (run_add (n + 1) _ hload).trans (hpolls.trans ?_)⟩
  simp only [State.txLoaded, ← hlen, List.take_length]
  rfl

end Sys2Proof.Machine

/-! SUPPORT. Proofs of the codec family (43_codec.md): XCRYPT, DECODE's checks and what it stores, and the round trip of a
frame. -/

namespace Sys2Proof.Machine

/-! ### XCRYPT (R193, R194) -/

/-- XCRYPT begins at offset 3 (R193). -/
theorem xcrypt_getElem?_of_lt (c : Config) (x : List Byte) (n : Nat) (s : BitVec 16) {j : Nat} (hj : j < 3) :
    (xcrypt c x n s)[j]? = x[j]? := by
  simp [xcrypt_getElem?, Nat.not_le.mpr hj]

/-- Settles O32: XCRYPT byte by byte, and offset 2 is below the first it changes. -/
theorem xcryptIsInvolution : Obligations.XcryptIsInvolution := fun c x n s =>
  ⟨xcrypt_xcrypt c x n s, xcrypt_length c x n s, xcrypt_getElem?_of_lt c x n s (by decide)⟩

/-- Settles O33: `xcrypt_getElem?`, with the last offset said by a subtraction. -/
theorem xcryptCoversOffsets3ToNminus2 : Obligations.XcryptCoversOffsets3ToNminus2 := by
  intro c x n s i b hb
  have hrange : (3 ≤ i ∧ i ≤ n - 2 ∧ 2 ≤ n) ↔ (3 ≤ i ∧ i + 2 ≤ n) := by omega
  simp only [xcrypt_getElem?, hb, Option.map_some, hrange]

/-! ### DECODE's checks (R205, R206, R208) -/

/-- FLEN and FBUF hold the frame f, of a length DECODE takes and with the length byte that says it (R206). -/
structure State.Holds (s : State) (f : List Byte) : Prop where
  min_length : 9 ≤ f.length
  max_length : f.length ≤ 66
  flen_eq : s.flen.toNat = f.length
  length_byte : f[0]? = some (BitVec.ofNat 8 (f.length - 1))
  read_eq : ∀ j, j < f.length → Memory.read s.fbuf j = f[j]?

section
variable {s : State} {f : List Byte}

theorem receivedFrame_malformed (h : s.flen.toNat < 9 ∨ 66 < s.flen.toNat ∨
    ∃ l, Memory.read s.fbuf 0 = some l ∧ l.toNat ≠ s.flen.toNat - 1) :
    receivedFrame s = .error (.finish .malformedRecord) := by
  have hmax : Config.maxFifoBuffer = 66 := rfl
  by_cases hrange : s.flen.toNat < 9 ∨ Config.maxFifoBuffer < s.flen.toNat
  · exact if_pos hrange
  · obtain ⟨l, h0, hl⟩ : ∃ l, Memory.read s.fbuf 0 = some l ∧ l.toNat ≠ s.flen.toNat - 1 := by
      rw [hmax] at hrange; tauto
    simp [receivedFrame, hrange, State.fbufByte, h0, hl]

/-- Past the length check the checksum decides (R208). -/
theorem State.Holds.receivedFrame_eq (h : s.Holds f) :
    receivedFrame s =
      if checksum f f.length ≠ f.getD (f.length - 1) 0 then .error (.finish .checksumFailed) else .ok f := by
  have hmin := h.min_length
  have hmax := h.max_length
  have hrange : ¬ (f.length < 9 ∨ Config.maxFifoBuffer < f.length) :=
    not_or.mpr ⟨Nat.not_lt.mpr hmin, Nat.not_lt.mpr hmax⟩
  have h0 : Memory.read s.fbuf 0 = some (BitVec.ofNat 8 (f.length - 1)) := (h.read_eq 0 (by omega)).trans h.length_byte
  have hl : (BitVec.ofNat 8 (f.length - 1)).toNat = f.length - 1 := by
    rw [BitVec.toNat_ofNat]; omega
  have hbytes : s.fbufBytes 0 f.length = .ok f := s.fbufBytes_ok f 0 fun j hj => by rw [Nat.zero_add, h.read_eq j hj]
  simp only [receivedFrame, h.flen_eq, if_neg hrange, State.fbufByte, h0, need_some, hl, hbytes]
  exact if_neg (not_not_intro rfl)

theorem exec_decode_finish {c : ResultCode} (hrun : s.Running .decode .codec)
    (h : receivedFrame s = .error (.finish c)) : exec .decode s = .next (s.finish c) := by
  refine (hrun.exec_eq rfl).trans ?_
  rw [decodeStep, hrun.2.2]; simp only [h]

theorem exec_decode_failed {c : ResultCode} (hrun : s.Running .decode .codec) (h : receivedFrame s = .ok f)
    (hc : (parseFrame s.config f).status = .failed c) :
    exec .decode s = .next ({ s with parser := Parser.empty }.finish c) := by
  refine (hrun.exec_eq rfl).trans ?_
  rw [decodeStep, hrun.2.2]; simp only [h, hc]

theorem exec_decode_done (hrun : s.Running .decode .codec) (h : receivedFrame s = .ok f)
    (hd : (parseFrame s.config f).status = .done) :
    exec .decode s = .next ({ s with
      msg := s.msg.store (parseFrame s.config f).plain (parseFrame s.config f).recs,
      parser := Parser.empty }.finish .ok) := by
  refine (hrun.exec_eq rfl).trans ?_
  rw [decodeStep, hrun.2.2]; simp only [h, hd]

end

/-- Settles O41: both ways to fail the length check end `receivedFrame` with MALFORMED_RECORD. -/
theorem decodeLengthCheck : Obligations.DecodeLengthCheck :=
  fun _ hrun h => exec_decode_finish hrun (receivedFrame_malformed h)

/-! ### One flipped bit (R208) -/

theorem xor_twoPow_ne {b : Nat} (hb : b < 8) (x : Byte) : x ^^^ BitVec.twoPow 8 b ≠ x := fun h => by
  have hbit := congrArg (BitVec.getLsbD · b) h
  simp [hb] at hbit

/-- A change of one byte changes the sum by as much (R195). -/
theorem sumBytes_set {x v : Byte} : ∀ {bs : List Byte} {i : Nat}, bs[i]? = some x →
    sumBytes (bs.set i v) + x = sumBytes bs + v
  | b :: bs, 0, h => by
    cases h
    simp only [List.set_cons_zero, sumBytes]
    ac_rfl
  | b :: bs, i + 1, h => by
    simp only [List.set_cons_succ, sumBytes, BitVec.add_assoc, sumBytes_set (bs := bs) (by simpa using h)]

section
variable {f : List Byte} {i : Nat} {v : Byte}

/-- The checksum byte is not summed (R195). -/
theorem checksum_set_last (hi : i = f.length - 1) : checksum (f.set i v) f.length = checksum f f.length := by
  rw [checksum, List.take_set_of_le (Nat.le_of_eq hi.symm)]; rfl

/-- A change of a summed byte changes the checksum (R195, R208). -/
theorem checksum_set_ne {x : Byte} (h1 : 1 ≤ i) (hi : i < f.length - 1) (hx : f[i]? = some x) (hv : v ≠ x) :
    checksum (f.set i v) f.length ≠ checksum f f.length := by
  obtain ⟨i, rfl⟩ := Nat.exists_eq_add_of_le' h1
  have hset : ((f.set (i + 1) v).take (f.length - 1)).drop 1 = ((f.take (f.length - 1)).drop 1).set i v := by
    rw [List.take_set, List.drop_set, if_neg (by omega)]; rfl
  have hx' : ((f.take (f.length - 1)).drop 1)[i]? = some x := by
    rw [List.getElem?_drop, List.getElem?_take_of_lt (by omega), Nat.add_comm, hx]
  intro heq
  have hsum := sumBytes_set (v := v) hx'
  rw [← hset] at hsum
  exact hv (add_left_cancel (hsum.symm.trans (congrArg (· + x) heq)))

/-- A frame with a right checksum is wrong after a change of one byte at offsets 1 to N-1 (R208). -/
theorem checksum_set_wrong {x : Byte} (h1 : 1 ≤ i) (hx : f[i]? = some x) (hv : v ≠ x)
    (hsum : checksum f f.length = f.getD (f.length - 1) 0) :
    checksum (f.set i v) f.length ≠ (f.set i v).getD (f.length - 1) 0 := by
  obtain ⟨hi, -⟩ := List.getElem?_eq_some_iff.mp hx
  by_cases hlast : i = f.length - 1
  · rw [checksum_set_last hlast, hsum, ← hlast, List.getD_eq_getElem?_getD, hx, List.getD_eq_getElem?_getD,
      List.getElem?_set_self hi]
    exact hv.symm
  · have hkeep : (f.set i v).getD (f.length - 1) 0 = f.getD (f.length - 1) 0 := by
      simp [List.getD_eq_getElem?_getD, List.getElem?_set_ne hlast]
    rw [hkeep, ← hsum]
    exact checksum_set_ne h1 (by omega) hx hv

theorem State.Holds.setFbuf {s : State} (h : s.Holds f) (h1 : 1 ≤ i) : (s.setFbuf i v).Holds (f.set i v) where
  min_length := (List.length_set ..).symm ▸ h.min_length
  max_length := (List.length_set ..).symm ▸ h.max_length
  flen_eq := h.flen_eq.trans (List.length_set ..).symm
  length_byte := by
    rw [List.length_set, List.getElem?_set_ne (by omega)]
    exact h.length_byte
  read_eq := fun j hj => by
    rw [List.length_set] at hj
    have hmax := h.max_length
    refine (Memory.read_write s.fbuf i j v).trans ?_
    obtain rfl | hne := eq_or_ne j i
    · rw [if_pos ⟨rfl, by omega⟩, List.getElem?_set_self hj]
    · rw [if_neg fun e => hne e.1, List.getElem?_set_ne hne.symm, h.read_eq j hj]

end

/-- Settles O42: DECODE's answer on a frame it holds, by the frame's checksum. -/
theorem decodeChecksumFirst : Obligations.DecodeChecksumFirst := by
  intro s f hrun h9 h66 hlen h0 hread
  have hf : s.Holds f := ⟨h9, h66, hlen, h0, hread⟩
  rw [← sumBytes_eq_foldl]
  refine ⟨fun hne => exec_decode_finish hrun ?_, fun heq i b h1 hi hb => exec_decode_finish hrun ?_⟩
  · exact hf.receivedFrame_eq.trans (if_pos hne.symm)
  · have hx : f[i]? = some (f.getD i 0) := by simp [List.getD_eq_getElem?_getD, hi]
    refine (hf.setFbuf h1).receivedFrame_eq.trans (if_pos ?_)
    rw [List.length_set]
    exact checksum_set_wrong h1 hx (xor_twoPow_ne hb _) heq.symm

/-! ### What PARSE returns on a frame (R197) -/

/-- What PARSE keeps while it reads `plain` up to offset `stop`: the records it has taken are valid and lie, with 2 bytes or
more each, between offset 8 and its position. -/
structure Parser.Reading (c : Config) (plain : List Byte) (stop : Nat) (p : Parser) : Prop where
  plain_eq : p.plain = plain
  stop_eq : p.stop = stop
  pos_le : p.pos ≤ stop
  room : 8 + 2 * p.recs.length ≤ p.pos
  valid : ∀ r ∈ p.recs, r.Valid c

section
variable {c : Config} {plain : List Byte} {stop : Nat} {p : Parser}

/-- To return changes nothing but the status. -/
theorem Parser.Reading.withStatus (h : p.Reading c plain stop) (st : ParseStatus) :
    { p with status := st }.Reading c plain stop := ⟨h.plain_eq, h.stop_eq, h.pos_le, h.room, h.valid⟩

theorem Parser.Reading.takeRecord (h : p.Reading c plain stop) (hstop : stop ≤ plain.length) (t : Byte)
    (hr : p.status = .running) (hpid : p.plain.getD p.pos 0 ≠ 0) : (p.takeRecord c t).Reading c plain stop := by
  obtain ⟨-, e⟩ | ⟨w, -, -, e⟩ | ⟨w, hw, hle, e⟩ := p.takeRecord_cases c t hr <;> rw [e]
  · exact h.withStatus _
  · exact h.withStatus _
  · have hval : ((p.plain.drop (p.pos + 2)).take w).length = w := by
      rw [List.length_take_of_le]
      rw [List.length_drop, h.plain_eq]
      have := h.stop_eq
      omega
    have hroom := h.room
    refine ⟨h.plain_eq, h.stop_eq, h.stop_eq ▸ hle, ?_, fun r hr => ?_⟩
    · simp only [List.length_append, List.length_singleton]; omega
    · obtain hr | hr := List.mem_append.mp hr
      · exact h.valid r hr
      · cases List.mem_singleton.mp hr
        exact ⟨hpid, hw, hval⟩

theorem Parser.Reading.next (h : p.Reading c plain stop) (hstop : stop ≤ plain.length) :
    (p.next c).Reading c plain stop := by
  by_cases hr : p.status = .running
  · obtain ⟨-, e⟩ | ⟨-, -, -, e⟩ | ⟨-, -, -, e⟩ | ⟨-, -, -, e⟩ | ⟨-, hpid, e⟩ := p.next_cases c hr <;> rw [e]
    · exact h.withStatus _
    · exact h.withStatus _
    · exact h.withStatus _
    · exact h.withStatus _
    · exact h.takeRecord hstop _ hr hpid
  · have hreturned : p.next c = p := p.run_of_returned c 1 hr
    rwa [hreturned]

theorem Parser.Reading.run (hstop : stop ≤ plain.length) (n : Nat) (h : p.Reading c plain stop) :
    (p.run c n).Reading c plain stop := by
  induction n generalizing p with
  | zero => exact h
  | succ n ih => exact ih (h.next hstop)

/-- PARSE of a received frame returns valid records of the decrypted frame (R197, R207). -/
theorem parseFrame_reading (c : Config) {f : List Byte} (h : 9 ≤ f.length) :
    (parseFrame c f).Reading c (decryptedFrame c f) (f.length - 1) :=
  Parser.Reading.run (by simp [decryptedFrame]) _
    ⟨rfl, rfl, by simp only [Parser.start]; omega, Nat.le_refl 8, by simp [Parser.start]⟩

/-- A frame has room for the records MSG has registers for (R34, R197). -/
theorem parseFrame_recs_length (c : Config) {f : List Byte} (h9 : 9 ≤ f.length) (h66 : f.length ≤ 66) :
    (parseFrame c f).recs.length ≤ 28 := by
  have hreading := parseFrame_reading c h9
  have hroom := hreading.room
  have hpos := hreading.pos_le
  omega

end

/-! ### What DECODE stores (R205, R209; log entry 20) -/

theorem MsgRec.stored_valAt (old : MsgRec) {c : Config} {r : Rec} (hr : r.Valid c) (b : Nat) :
    (old.stored r).valAt b = if b < r.width then r.val[b]? else old.valAt b := by
  obtain ⟨-, hw, hval⟩ := hr
  have hlt := width_lt hw
  refine (MsgRec.valAt_setVals r.val old 0 b).trans (if_congr ?_ (by rw [Nat.sub_zero]) rfl)
  omega

section
variable {m : Msg} {p : List Byte} {recs : List Rec}

theorem Msg.recAt_store (hn : recs.length ≤ 28) (k : Nat) :
    (m.store p recs).recAt k = recs[k]?.elim (m.recAt k) (m.recAt k).stored := by
  refine (Msg.recAt_storeRecs recs _ 0 k).trans ?_
  by_cases hk : k < 28
  · rw [if_pos ⟨Nat.zero_le k, hk⟩, Nat.sub_zero]
    cases recs[k]? <;> rfl
  · rw [if_neg fun h => hk h.2, List.getElem?_eq_none (by omega), Option.elim_none]
    rfl

theorem Msg.store_header :
    (m.store p recs).mfr = some (p.getD 1 0) ∧ (m.store p recs).product = some (p.getD 2 0) ∧
    (m.store p recs).pip = some (join16 (p.getD 3 0) (p.getD 4 0)) ∧
    (m.store p recs).devid = some (join24 (p.getD 5 0) (p.getD 6 0) (p.getD 7 0)) ∧
    (m.store p recs).nrec = BitVec.ofNat 5 recs.length :=
  Msg.storeRecs_other recs _ 0

/-- A stored record register, register by register (R205; log entry 20). -/
theorem Msg.recAt_store_taken {c : Config} {k : Nat} {r : Rec} (hn : recs.length ≤ 28) (hr : recs[k]? = some r)
    (hv : r.Valid c) :
    ((m.store p recs).recAt k).pid = some r.pid ∧ ((m.store p recs).recAt k).type = some r.type ∧
    (∃ v, ((m.store p recs).recAt k).vlen = some v ∧ v.toNat = r.width) ∧
    ∀ b, ((m.store p recs).recAt k).valAt b = if b < r.width then r.val[b]? else (m.recAt k).valAt b := by
  have hk : (m.store p recs).recAt k = (m.recAt k).stored r := by rw [Msg.recAt_store hn, hr, Option.elim_some]
  have ⟨_, hw, _⟩ := hv
  have hvlen : (BitVec.ofNat 4 r.width).toNat = r.width := BitVec.toNat_ofNat .. ▸ Nat.mod_eq_of_lt (width_lt hw)
  rw [hk]
  exact ⟨rfl, rfl, ⟨_, rfl, hvlen⟩, (m.recAt k).stored_valAt hv⟩

end

/-- Settles O43: `parseFrame_returns` says how PARSE can end, `Msg.store` what OK writes. -/
theorem decodeParsesDecryptedFrame : Obligations.DecodeParsesDecryptedFrame := by
  intro s f hrun hempty h9 h66 hlen h0 hread hsum p r
  have hf : s.Holds f := ⟨h9, h66, hlen, h0, hread⟩
  rw [← sumBytes_eq_foldl] at hsum
  have hok : receivedFrame s = .ok f := hf.receivedFrame_eq.trans (if_neg (not_not_intro hsum.symm))
  have hkeep : { s with parser := Parser.empty } = s := hempty ▸ rfl
  refine ⟨fun c hc => ?_, fun hd => ⟨_, exec_decode_done hrun hok hd, ?_⟩, ?_⟩
  · exact (exec_decode_failed hrun hok hc).trans (by rw [hkeep]; rfl)
  · have hreading := parseFrame_reading s.config h9
    have hn : r.recs.length ≤ 28 := parseFrame_recs_length s.config h9 h66
    rw [hreading.plain_eq]
    obtain ⟨hmfr, hproduct, hpip, hdevid, hnrec⟩ := Msg.store_header (m := s.msg) (p := p) (recs := r.recs)
    refine ⟨congrArg (State.finish · .ok) hkeep, hmfr, hproduct, hpip, hdevid, ?_, fun k x hx => ?_, fun k hk => ?_⟩
    · exact (congrArg BitVec.toNat hnrec).trans (by rw [BitVec.toNat_ofNat]; omega)
    · exact Msg.recAt_store_taken hn hx (hreading.valid x (List.mem_of_getElem? hx))
    · exact (Msg.recAt_store hn k).trans (by rw [List.getElem?_eq_none hk, Option.elim_none])
  · obtain h | h | h := parseFrame_returns s.config h9
    · exact .inl h
    · exact .inr (.inr h)
    · exact .inr (.inl h)

/-! ### A message ENCODE accepts (R215, R216) -/

/-- ENCODE takes the message: it passes the checks, and every register ENCODE reads is written, the header with these
values (R215, R216). -/
structure Msg.Encodable (c : Config) (m : Msg) (mfr product : Byte) (pip : BitVec 16) (devid : BitVec 24) : Prop where
  nrec_le : m.nrec.toNat ≤ 28
  recs : ∀ k, k < m.nrec.toNat → m.RecPasses c k ∧ m.ValsWritten k
  length_le : 10 + m.recsWire.length ≤ 66
  mfr_eq : m.mfr = some mfr
  product_eq : m.product = some product
  pip_eq : m.pip = some pip
  devid_eq : m.devid = some devid

section
variable {c : Config} {m : Msg}

theorem checkRecs_ok {n : Nat} : ∀ {k total : Nat}, checkRecs c m k n = .ok total →
    ∀ j, k ≤ j → j < k + n → m.RecPasses c j := by
  induction n with
  | zero => intros; omega
  | succ n ih =>
    intro k total h j h1 h2
    obtain ⟨pid, hpid, h⟩ := needHalt_ok h
    split at h
    · cases h
    next hne =>
    obtain ⟨t, ht, h⟩ := needHalt_ok h
    split at h
    · cases h
    next w hw =>
    obtain ⟨vlen, hvlen, h⟩ := needHalt_ok h
    split at h
    · cases h
    next hlen =>
    split at h
    · cases h
    next hrest =>
    obtain rfl | hlt := Nat.eq_or_lt_of_le h1
    · exact ⟨pid, t, vlen, hpid, hne, ht, hvlen, by rw [hw, not_not.mp hlen]⟩
    · exact ih hrest j hlt (by omega)

theorem recVals_ok {k n : Nat} : ∀ {b : Nat} {vs : List Byte}, recVals m k b n = .ok vs →
    ∀ i, b ≤ i → i < b + n → ∃ v, (m.recAt k).valAt i = some v := by
  induction n with
  | zero => intros; omega
  | succ n ih =>
    intro b vs h i h1 h2
    obtain ⟨v, hv, h⟩ := needHalt_ok h
    split at h
    · cases h
    next hrest =>
    obtain rfl | hlt := Nat.eq_or_lt_of_le h1
    · exact ⟨v, hv⟩
    · exact ih hrest i hlt (by omega)

theorem recBytes_ok {k : Nat} {bs : List Byte} (h : recBytes m k = .ok bs) : m.ValsWritten k := by
  obtain ⟨pid, -, h⟩ := needHalt_ok h
  obtain ⟨t, -, h⟩ := needHalt_ok h
  obtain ⟨vlen, hvlen, h⟩ := needHalt_ok h
  split at h
  · cases h
  next hvals =>
  intro b hb
  rw [hvlen, Option.getD_some] at hb
  exact recVals_ok hvals b (Nat.zero_le b) (by omega)

theorem recsBytes_ok {n : Nat} : ∀ {k : Nat} {bs : List Byte}, recsBytes m k n = .ok bs →
    ∀ j, k ≤ j → j < k + n → m.ValsWritten j := by
  induction n with
  | zero => intros; omega
  | succ n ih =>
    intro k bs h j h1 h2
    unfold recsBytes at h
    split at h
    · cases h
    next hrec =>
    split at h
    · cases h
    next hrest =>
    obtain rfl | hlt := Nat.eq_or_lt_of_le h1
    · exact recBytes_ok hrec
    · exact ih hrest j hlt (by omega)

theorem headerBytes_ok {bs : List Byte} (h : headerBytes m = .ok bs) :
    ∃ mfr product pip devid, m.mfr = some mfr ∧ m.product = some product ∧ m.pip = some pip ∧ m.devid = some devid := by
  obtain ⟨mfr, h1, h⟩ := needHalt_ok h
  obtain ⟨product, h2, h⟩ := needHalt_ok h
  obtain ⟨pip, h3, h⟩ := needHalt_ok h
  obtain ⟨devid, h4, -⟩ := needHalt_ok h
  exact ⟨mfr, product, pip, devid, h1, h2, h3, h4⟩

/-- ENCODE builds a frame only of a message that passes its checks, with every register it reads written (R215, R216). -/
theorem encodedFrame_encodable {f : List Byte} (h : encodedFrame c m = .ok f) :
    ∃ mfr product pip devid, m.Encodable c mfr product pip devid := by
  unfold encodedFrame at h
  split at h
  · cases h
  next hn =>
  split at h
  · cases h
  next total hcheck =>
  have hpass : ∀ k, k < m.nrec.toNat → m.RecPasses c k := fun k hk => checkRecs_ok hcheck k (Nat.zero_le k) (by omega)
  cases (checkRecs_all hpass).symm.trans hcheck
  split at h
  · cases h
  next hlen =>
  split at h
  · cases h
  next header hheader =>
  split at h
  · cases h
  next records hrecords =>
  obtain ⟨mfr, product, pip, devid, h1, h2, h3, h4⟩ := headerBytes_ok hheader
  refine ⟨mfr, product, pip, devid, Nat.not_lt.mp hn, fun k hk => ⟨hpass k hk, ?_⟩, ?_, h1, h2, h3, h4⟩
  · exact recsBytes_ok hrecords k (Nat.zero_le k) (by omega)
  · exact m.frameBytes_eq ▸ Nat.not_lt.mp hlen

end

/-! ### A message read back (R219) -/

/-- Record k of a message whose registers are written, as PARSE returns it. -/
def Msg.recOf (m : Msg) (k : Nat) : Rec where
  pid := (m.recAt k).pid.getD 0
  type := (m.recAt k).type.getD 0
  width := ((m.recAt k).vlen.getD 0).toNat
  val := (List.range ((m.recAt k).vlen.getD 0).toNat).map fun b => ((m.recAt k).valAt b).getD 0

/-- The records of a message, in index order. -/
def Msg.recList (m : Msg) : List Rec := (List.range m.nrec.toNat).map m.recOf

theorem MsgRec.ext_valAt {r r' : MsgRec} (hpid : r.pid = r'.pid) (htype : r.type = r'.type) (hvlen : r.vlen = r'.vlen)
    (hval : ∀ b, r.valAt b = r'.valAt b) : r = r' := by
  obtain ⟨pid, type, vlen, val⟩ := r
  obtain ⟨pid', type', vlen', val'⟩ := r'
  obtain rfl : val = val' := Vector.ext fun b hb => by simpa [MsgRec.valAt, hb] using hval b
  cases hpid; cases htype; cases hvlen; rfl

theorem Msg.ext_recAt {m m' : Msg} (hmfr : m.mfr = m'.mfr) (hproduct : m.product = m'.product) (hpip : m.pip = m'.pip)
    (hdevid : m.devid = m'.devid) (hnrec : m.nrec = m'.nrec) (hrecs : ∀ k, m.recAt k = m'.recAt k) : m = m' := by
  obtain ⟨mfr, product, pip, devid, nrec, recs⟩ := m
  obtain ⟨mfr', product', pip', devid', nrec', recs'⟩ := m'
  obtain rfl : recs = recs' := Vector.ext fun k hk => by simpa [Msg.recAt, hk] using hrecs k
  cases hmfr; cases hproduct; cases hpip; cases hdevid; cases hnrec; rfl

section
variable {c : Config} {m : Msg}

theorem Msg.recsWire_eq_flatMap (m : Msg) : m.recsWire = m.recList.flatMap Rec.wire := by
  rw [Msg.recList, List.flatMap_map]; rfl

theorem Msg.recOf_valid {k : Nat} (h : m.RecPasses c k) : (m.recOf k).Valid c := by
  obtain ⟨pid, t, vlen, hpid, hne, ht, hvlen, hw⟩ := h
  simp only [Msg.recOf, hpid, ht, hvlen, Option.getD_some]
  exact ⟨hne, hw, by rw [List.length_map, List.length_range]⟩

/-- A record register stores its own record as it stands (R205). -/
theorem Msg.stored_recOf {k : Nat} (hpass : m.RecPasses c k) (hvals : m.ValsWritten k) :
    (m.recAt k).stored (m.recOf k) = m.recAt k := by
  have hvalid := Msg.recOf_valid hpass
  obtain ⟨pid, t, vlen, hpid, -, ht, hvlen, -⟩ := hpass
  refine MsgRec.ext_valAt ?_ ?_ ?_ fun b => ?_
  · simp [MsgRec.stored, Msg.recOf, hpid]
  · simp [MsgRec.stored, Msg.recOf, ht]
  · simp [MsgRec.stored, Msg.recOf, hvlen]
  · rw [MsgRec.stored_valAt _ hvalid]
    refine ite_eq_right_iff.mpr fun hb => ?_
    obtain ⟨v, hv⟩ := hvals b hb
    have hval : (m.recOf k).val[b]? = some (((m.recAt k).valAt b).getD 0) := by
      simp only [Msg.recOf, List.getElem?_map, List.getElem?_range (show b < ((m.recAt k).vlen.getD 0).toNat from hb)]
      rfl
    rw [hval, hv, Option.getD_some]

theorem join16_byteOf (v : BitVec 16) : join16 (byteOf v 1) (byteOf v 0) = v :=
  (BitVec.extractLsb'_append_extractLsb'_eq_extractLsb' (show 8 = 0 + 8 from rfl)).trans BitVec.extractLsb'_eq_self

theorem join24_byteOf (v : BitVec 24) : join24 (byteOf v 2) (byteOf v 1) (byteOf v 0) = v := by
  have hupper : byteOf v 2 ++ byteOf v 1 = v.extractLsb' 8 16 :=
    BitVec.extractLsb'_append_extractLsb'_eq_extractLsb' rfl
  rw [join24, hupper]
  exact (BitVec.extractLsb'_append_extractLsb'_eq_extractLsb' (show 8 = 0 + 8 from rfl)).trans
    BitVec.extractLsb'_eq_self

/-- PARSE of a frame that decrypts to a header, valid records and the terminator returns those records (R197). -/
theorem parseFrame_of_wire {f head : List Byte} {recs : List Rec} {sum : Byte} (hh : head.length = 8)
    (hv : ∀ r ∈ recs, r.Valid c) (hplain : decryptedFrame c f = head ++ recs.flatMap Rec.wire ++ [0, sum]) :
    (parseFrame c f).status = .done ∧ (parseFrame c f).recs = recs := by
  have hlen : (decryptedFrame c f).length = f.length := xcrypt_length ..
  rw [parseFrame, ← hlen, hplain]
  exact (parseReadsBackRecords c head [] recs sum hh hv).2.1

end

section
variable {c : Config} {m : Msg} {mfr product : Byte} {pip : BitVec 16} {devid : BitVec 24}

theorem Msg.Encodable.recList_valid (h : m.Encodable c mfr product pip devid) : ∀ r ∈ m.recList, r.Valid c := by
  intro r hr
  obtain ⟨k, hk, rfl⟩ := List.mem_map.mp hr
  exact Msg.recOf_valid (h.recs k (List.mem_range.mp hk)).1

/-- DECODE's stores of a message's own header and records leave the message as it stands (R219; log entry 20). -/
theorem Msg.Encodable.store_self (h : m.Encodable c mfr product pip devid) (len : Byte) (rest : List Byte) :
    m.store (len :: headerWire mfr product pip devid ++ rest) m.recList = m := by
  obtain ⟨hmfr, hproduct, hpip, hdevid, hnrec⟩ :=
    Msg.store_header (m := m) (p := len :: headerWire mfr product pip devid ++ rest) (recs := m.recList)
  have hlen : m.recList.length = m.nrec.toNat := by simp [Msg.recList]
  refine Msg.ext_recAt (hmfr.trans h.mfr_eq.symm) (hproduct.trans h.product_eq.symm) ?_ ?_ ?_ fun k => ?_
  · exact hpip.trans ((congrArg some (join16_byteOf pip)).trans h.pip_eq.symm)
  · exact hdevid.trans ((congrArg some (join24_byteOf devid)).trans h.devid_eq.symm)
  · rw [hnrec, hlen, BitVec.ofNat_toNat, BitVec.setWidth_eq]
  · rw [Msg.recAt_store (hlen ▸ h.nrec_le)]
    by_cases hk : k < m.nrec.toNat
    · obtain ⟨hpass, hvals⟩ := h.recs k hk
      have hget : m.recList[k]? = some (m.recOf k) := by simp [Msg.recList, hk]
      rw [hget, Option.elim_some]
      exact Msg.stored_recOf hpass hvals
    · rw [List.getElem?_eq_none (by omega), Option.elim_none]

/-- DECODE of a frame that decrypts to the message's own header and records finishes OK and leaves MSG as it stands (R219). -/
theorem Msg.Encodable.exec_decode {s : State} {f : List Byte} {len sum : Byte}
    (h : s.msg.Encodable s.config mfr product pip devid) (hrun : s.Running .decode .codec) (hf : s.Holds f)
    (hsum : checksum f f.length = f.getD (f.length - 1) 0)
    (hplain : decryptedFrame s.config f = len :: headerWire mfr product pip devid ++ s.msg.recsWire ++ [0, sum]) :
    exec .decode s = .next ({ s with parser := Parser.empty }.finish .ok) := by
  have hok : receivedFrame s = .ok f := hf.receivedFrame_eq.trans (if_neg (not_not_intro hsum))
  obtain ⟨hdone, hrecs⟩ := parseFrame_of_wire (head := len :: headerWire mfr product pip devid) rfl h.recList_valid
    (s.msg.recsWire_eq_flatMap ▸ hplain)
  rw [exec_decode_done hrun hok hdone, hrecs, (parseFrame_reading s.config hf.min_length).plain_eq, hplain,
    List.append_assoc, h.store_self]

end

theorem State.Holds.accept {s : State} {f : List Byte} (h : s.Holds f) (i : Instr) : (s.accept i).Holds f :=
  ⟨h.min_length, h.max_length, h.flen_eq, h.length_byte, h.read_eq⟩

/-- Settles O45: the frame ENCODE leaves (O40) decrypts to the message's own header and records. -/
theorem encodeThenDecodeIsIdentity : Obligations.EncodeThenDecodeIsIdentity := by
  intro s t hrun h hres
  obtain ⟨-, ⟨c, hc, rfl⟩ | ⟨f, hf, -⟩⟩ := encodeStep_next ((hrun.exec_eq rfl).symm.trans h)
  · obtain rfl | rfl | rfl := encodedFrame_finish hc <;> cases hres
  · obtain ⟨mfr, product, pip, devid, hm⟩ := encodedFrame_encodable hf
    obtain ⟨t, f, he, hlen, ht, hread, hplain, hsum⟩ :=
      encodeBuildsFrame s mfr product pip devid hrun hm.nrec_le hm.recs hm.length_le hm.mfr_eq hm.product_eq hm.pip_eq
        hm.devid_eq
    cases he.symm.trans h
    obtain ⟨hflen, hmsg, hconfig, hbusy⟩ : t.flen = BitVec.ofNat 8 f.length ∧ t.msg = s.msg ∧ t.config = s.config ∧
        t.busy = false := by
      injection ht; simp only [*, and_self]
    have hmax := hm.length_le
    have hbelow {j : Nat} (hj : j < 3) := xcrypt_getElem?_of_lt s.config f f.length (seed s.config product) hj
    rw [hplain] at hbelow
    have hseed : f.getD 2 0 = product := by rw [List.getD_eq_getElem?_getD, ← hbelow (by decide)]; rfl
    have hholds : t.Holds f :=
      { min_length := by omega
        max_length := by omega
        flen_eq := by rw [hflen, BitVec.toNat_ofNat]; omega
        length_byte := (hbelow (by decide)).symm
        read_eq := fun j hj => (hread j).trans (if_pos hj) }
    have hdecode := Msg.Encodable.exec_decode (s := t.accept .decode) (hmsg ▸ hconfig ▸ hm) ⟨rfl, rfl, rfl⟩
      (hholds.accept .decode) ((sumBytes_eq_foldl _).trans hsum.symm)
      (by rw [State.accept_config, State.accept_msg, hmsg, hconfig, decryptedFrame, hseed]; exact hplain)
    exact ⟨_, _, runCommand_idle hbusy, hdecode, rfl, rfl, hmsg, rfl, rfl⟩

end Sys2Proof.Machine

/-! SUPPORT. Proof of the exceptions family (60_exceptions.md): the gate of INIT_OK (R241). -/

namespace Sys2Proof.Machine

/-! ### The commands behind the gate -/

section
variable {s : State}

theorem exec_setmode_notInitialised {i : Instr} {m : Target} (hm : setmodeTarget i = some m) (hrun : s.Running i .smWrite)
    (hi : s.initOk = false) : exec i s = .next (s.finish .notInitialised) := by
  rw [exec_setmode_write hm hrun, if_neg (by simp [hi])]

theorem receiveStart_notInitialised (hi : s.initOk = false) : receiveStart s = s.finish .notInitialised := if_pos hi

end

/-! ### The commands without the gate -/

section
variable {s t : State}

/-- INIT goes on to its next phase, or finishes with the version check's code (R141, R142). -/
theorem initStep_busy_or_result (h : initStep s = .next t) :
    t.busy = s.busy ∨ t.result = .ok ∨ t.result = .versionMismatch := by
  obtain ⟨k, e, -, -, rfl⟩ | ⟨-, -, rfl⟩ | ⟨-, -, rfl⟩ := initStep_next h
  · refine .inl ?_
    split <;> rfl
  · exact .inr (.inl rfl)
  · exact .inr (.inr rfl)

/-- ENCODE's one step finishes OK or with a code of its checks (R215, R216). -/
theorem encodeStep_result (h : encodeStep s = .next t) :
    t.result = .ok ∨ t.result = .malformedRecord ∨ t.result = .unsupportedType ∨ t.result = .badLength := by
  obtain ⟨-, ⟨c, hc, rfl⟩ | ⟨f, -, rfl⟩⟩ := encodeStep_next h
  · exact .inr (encodedFrame_finish hc)
  · exact .inl rfl

/-- PARSE of a received frame fails with one of two codes (R197, R200). -/
theorem parseFrame_failed {f : List Byte} {c : ResultCode} (hf : receivedFrame s = .ok f)
    (hc : (parseFrame s.config f).status = .failed c) : c = .malformedRecord ∨ c = .unsupportedType := by
  have hret := parseFrame_returns s.config (receivedFrame_ok hf).1
  rw [hc] at hret
  simpa using hret

/-- DECODE's one step finishes OK or with a code of its checks or of PARSE (R205, R206, R207). -/
theorem decodeStep_result (h : decodeStep s = .next t) :
    t.result = .ok ∨ t.result = .malformedRecord ∨ t.result = .checksumFailed ∨ t.result = .unsupportedType := by
  obtain ⟨-, ⟨c, hc, rfl⟩ | ⟨f, c, hf, hc, rfl⟩ | ⟨f, -, -, rfl⟩⟩ := decodeStep_next h
  · exact .inr ((receivedFrame_finish hc).imp_right .inl)
  · exact .inr ((parseFrame_failed hf hc).imp_right .inr)
  · exact .inl rfl

theorem runCommand_next_of_busy {i : Instr} {f : State → Host.Outcome State Fault Refusal} (hb : s.busy = true)
    (h : s.runCommand i f = .next t) : f s = .next t := by
  obtain ⟨hb', -⟩ | ⟨-, -, h⟩ := runCommand_next h
  · simp [hb] at hb'
  · exact h

end

/-- Settles O14: the gate stands first in the first step of the five commands, and the finishes of the other three have
codes of their own. -/
theorem initialisationGate : Obligations.InitialisationGate := by
  refine ⟨fun i s hcmd hrun hi => ?_, fun i s t hcmd hb h hidle => ?_⟩
  · rcases hcmd with rfl | rfl | rfl | rfl | rfl
    · exact exec_setmode_notInitialised rfl hrun hi
    · exact exec_setmode_notInitialised rfl hrun hi
    · exact exec_setmode_notInitialised rfl hrun hi
    · exact (exec_receive_first hrun).trans (congrArg _ (receiveStart_notInitialised hi))
    · exact (exec_transmit_first hrun).trans (transmitStart_notInitialised hi)
  · rcases hcmd with rfl | rfl | rfl
    · obtain hbusy | hres | hres := initStep_busy_or_result (runCommand_next_of_busy hb h)
      · simp [hidle, hb] at hbusy
      · simp [hres]
      · simp [hres]
    · obtain hres | hres | hres | hres := encodeStep_result (runCommand_next_of_busy hb h) <;> simp [hres]
    · obtain hres | hres | hres | hres := decodeStep_result (runCommand_next_of_busy hb h) <;> simp [hres]

end Sys2Proof.Machine

/-! SUPPORT. Proof of the reset and hazards family (70_reset_and_hazards.md): the one reset (R270, R271), and the idle block
that waits. -/

namespace Sys2Proof.Machine

section
variable {s : State} {rest : List HostMove}

/-- A reset needs no idle block: it comes between any two steps (R271). -/
theorem step_reset (hw : s.config.wf = true) (hh : s.host = .reset :: rest) :
    step s = .next { s with host := rest }.hostReset :=
  step_host hw hh

/-- With no command running and no host move to come, nothing happens (R30). -/
theorem step_idle (hw : s.config.wf = true) (hb : s.busy = false) (hh : s.host = []) : step s = .next s := by
  simp [step, machineStep, hw, hh, hb]

end

/-- Settles O8: a reset is `hostReset`, whose fields are R271's, and an idle block with no host move stays as it is. -/
theorem hostResetAtAnyTime : Obligations.HostResetAtAnyTime :=
  ⟨fun _ _ => step_reset, fun _ => step_idle⟩

end Sys2Proof.Machine
